-- ==== Sys2Proof/Word.lean ====
section
/-! DEFINITION. The value types of the machine: bytes and snapshots, with the parameters that size a snapshot
(spec/00_scope.md R6, R12). -/

namespace Sys2Proof

/-- A byte is 8 bits (R12). -/
abbrev Byte := BitVec 8

/-- SNAP_BYTES (R6). -/
abbrev Config.snapBytes : Nat := 8
/-- SNAP_BITS = 8 * SNAP_BYTES (R6). -/
abbrev Config.snapBits : Nat := 8 * Config.snapBytes

/-- F-SNAP: one RawSnapshot as a value of SNAP_BITS bits, byte k bit i at position 8k+i (R61, R91). -/
abbrev Snapshot := BitVec Config.snapBits

end Sys2Proof
end

