-- ==== Sys2Proof/Config.lean ====
section
/-! DEFINITION. The parameters of spec/00_scope.md R6 to R9 and R111: the literals the spec fixes, each under its name,
and the OPEN ones, as one record of data that is well formed by construction. -/

namespace Sys2Proof.Config

/-! ### Literals with a value (R6 to R9); SNAP_BYTES and SNAP_BITS stand beside `Snapshot` in Word.lean -/

/-- DEPTH, the ring's capacity (R6). -/
abbrev depth : Nat := 3
/-- PLAYERS, p1 and p2 (R7). -/
abbrev players : Nat := 2
/-- BTN_BITS, the width of each button mask (R7). -/
abbrev btnBits : Nat := 12
/-- UTIL_BITS, the width of the utility field (R7). -/
abbrev utilBits : Nat := 6
/-- AXIS_NEG = -127 (R7, R96). -/
abbrev axisNeg : Byte := 0x81
/-- AXIS_ZERO (R7). -/
abbrev axisZero : Byte := 0x00
/-- AXIS_POS = +127 (R7, R96). -/
abbrev axisPos : Byte := 0x7F
/-- The spec's bound on PIXEL_COUNT (R8, D12). -/
abbrev maxPixels : Nat := 16384
/-- START_LEN (R8). -/
abbrev startLen : Nat := 8
/-- START_BYTE (R8). -/
abbrev startByte : Byte := 0x00
/-- END_LEN (R8). -/
abbrev endLen : Nat := 8
/-- END_BYTE (R8). -/
abbrev endByte : Byte := 0xFF
/-- PIX_MARKER as a byte mask: 0b111 in the high 3 bits (R8). -/
abbrev pixMarker : Byte := 0xE0
/-- BRIGHT_BITS, the brightness bits carried to the strand (R8). -/
abbrev brightBits : Nat := 5
/-- OFFW, the width of the front-buffer offset field (R8). -/
abbrev offw : Nat := 16
/-- MAGIC_LEN (R9). -/
abbrev magicLen : Nat := 11
/-- CODE_LEN (R9). -/
abbrev codeLen : Nat := 4
/-- T_MAGIC in TICKs, 'about 50 ms' (R9, U12; entry 21). -/
abbrev tMagic : Nat := 50
/-- T_DATA in TICKs, 'at least 1000 ms' (R9, U12; entry 21). -/
abbrev tData : Nat := 1000
/-- How many controls there are: each player's buttons and four directions, and the utility controls, ids 0..37 (R92). -/
abbrev controls : Nat := players * (btnBits + 4) + utilBits

/-! ### OPEN parameters -/

/-- R94: a packed LAYOUT (each row `row[11:9]` = byte, `row[8:6]` = bit, `row[5:0]` = control id) is well formed when
every control id is at most 37, no control appears twice and no (byte, bit) position appears twice. -/
def layoutOk (rows : List (BitVec 12)) : Bool :=
  rows.all (fun r => decide ((r.extractLsb' 0 6).toNat < controls)) &&
  decide ((rows.map (fun r => r.extractLsb' 0 6)).Nodup) &&
  decide ((rows.map (fun r => r.extractLsb' 6 6)).Nodup)

/-- The parameters a model takes as arguments (92_eei_decisions.md, 'Open parameters'), each with the proof of the
bound the spec puts on it (R8, R9, R94). -/
structure Params where
  /-- LAYOUT, the bit-layout table, packed rows (R94). -/
  layout : List (BitVec 12)
  layout_ok : layoutOk layout = true
  /-- PIXEL_COUNT = N (R8). -/
  pixelCount : Nat
  pixelCount_ok : 1 ≤ pixelCount ∧ pixelCount ≤ maxPixels
  /-- T_CODE (R9). -/
  tCode : Nat
  tCode_ok : 1 ≤ tCode ∧ tCode < tData
  /-- T_RSTDELAY (R9). -/
  tRstDelay : Nat
  tRstDelay_ok : 1 ≤ tRstDelay
  /-- KEYMAP: one keycode per utility bit (R111, R275). -/
  keymap : Vector Byte utilBits
  /-- HOTKEY_MASK (R111, R272). -/
  hotkeyMask : BitVec utilBits
  deriving DecidableEq, Repr

/-- FB_LEN = L = 4 * N, the byte length of front, back and scan (R8). -/
def Params.fbLen (p : Params) : Nat := 4 * p.pixelCount

/-- Why a configuration is refused (R300: the only refusals of the hardware's own are at configuration time).
Safe: a refused configuration has no machine. -/
inductive ConfigError where
  /-- LAYOUT is not well formed (R94, U9). -/
  | illFormedLayout
  /-- PIXEL_COUNT is outside 1..16384 (R8, U10). -/
  | pixelCountOutOfRange
  /-- T_CODE is not in 1..T_DATA-1 (R9). -/
  | codeTimeoutOutOfRange
  /-- T_RSTDELAY is 0 (R9). -/
  | resetDelayZero
  deriving DecidableEq, Repr

/-- Configuration before reset is released (R42): the parameters, or the reason they are refused (R94, R300). -/
def configure (layout : List (BitVec 12)) (pixelCount tCode tRstDelay : Nat) (keymap : Vector Byte utilBits)
    (hotkeyMask : BitVec utilBits) : Except ConfigError Params :=
  if hl : layoutOk layout = true then
    if hp : 1 ≤ pixelCount ∧ pixelCount ≤ maxPixels then
      if hc : 1 ≤ tCode ∧ tCode < tData then
        if hr : 1 ≤ tRstDelay then
          .ok ⟨layout, hl, pixelCount, hp, tCode, hc, tRstDelay, hr, keymap, hotkeyMask⟩
        else .error .resetDelayZero
      else .error .codeTimeoutOutOfRange
    else .error .pixelCountOutOfRange
  else .error .illFormedLayout

/-! The product's values: not in the source (N3, N4, N7, N8, N9, N10). Each is an open constant with no body; the
spec's bounds are put on it below, so that every admitted value is possible and no other (entry 1). -/

/-- Stands for the rows of the product's LAYOUT (N4). -/
opaque layoutRows : List (BitVec 12)
/-- Stands for PIXEL_COUNT - 1 (N3). -/
opaque pixelCountLess1 : Fin maxPixels
/-- Stands for T_CODE - 1 (N7): 0 to T_DATA - 2, since T_CODE < T_DATA (R9). -/
opaque tCodeLess1 : Fin (tData - 2 + 1)
/-- Stands for T_RSTDELAY - 1 (N8). -/
opaque tRstDelayLess1 : Nat
/-- Stands for KEYMAP (N9). -/
opaque keymapBytes : Vector Byte utilBits
/-- Stands for HOTKEY_MASK (N10). -/
opaque hotkeyBits : BitVec utilBits

/-- LAYOUT of the machine at hand: any well-formed table. -/
def layoutRowsOk : List (BitVec 12) := if layoutOk layoutRows then layoutRows else []

theorem layoutRowsOk_ok : layoutOk layoutRowsOk = true := by
  unfold layoutRowsOk; split
  · assumption
  · rfl

/-- The parameters of the machine at hand (`State.reset` holds these). -/
def params : Params where
  layout := layoutRowsOk
  layout_ok := layoutRowsOk_ok
  pixelCount := pixelCountLess1.val + 1
  pixelCount_ok := ⟨Nat.le_add_left 1 _, pixelCountLess1.isLt⟩
  tCode := tCodeLess1.val + 1
  tCode_ok := ⟨Nat.le_add_left 1 _, Nat.succ_lt_succ tCodeLess1.isLt⟩
  tRstDelay := tRstDelayLess1 + 1
  tRstDelay_ok := Nat.le_add_left 1 _
  keymap := keymapBytes
  hotkeyMask := hotkeyBits

end Sys2Proof.Config
end

