-- ==== Sys2Proof/Syntax.lean ====
section
/-! DEFINITION. The operations and command frames of spec/opcode_table.json, one constructor a row, in the order of
spec/30_encoding.md R119; and the words that carry them, one format each (R90, R112 to R117). -/

namespace Sys2Proof

/-- The 25 rows of the operation and command table (R119). -/
inductive Instr where
  /-- DBF.PUSH s (R130). -/
  | dbfPush (snap : Snapshot)
  /-- DBF.IDLE (R132). -/
  | dbfIdle
  /-- DBF.MERGE (R131). -/
  | dbfMerge
  /-- DEC.DECODE (R156, R157). -/
  | decDecode
  /-- DEC.HOLD (R158). -/
  | decHold
  /-- LFS.NOP (R186). -/
  | lfsNop
  /-- LFS.SET_ALL r, g, b, br (R181). -/
  | lfsSetAll (r g b br : Byte)
  /-- LFS.WRITE_FRONT off, v (R182). -/
  | lfsWriteFront (off : BitVec Config.offw) (v : Byte)
  /-- LFS.FLIP (R183). -/
  | lfsFlip
  /-- LFS.ARM (R185). -/
  | lfsArm
  /-- LFS.RSVD5 (R186). -/
  | lfsRsvd5
  /-- LFS.RSVD6 (R186). -/
  | lfsRsvd6
  /-- LFS.RSVD7 (R186). -/
  | lfsRsvd7
  /-- LFS.SCAN (R187). -/
  | lfsScan
  /-- CMD.RX b (R221). -/
  | cmdRx (b : Byte)
  /-- CMD.TICK (R232). -/
  | cmdTick
  /-- CMD.DATA: the frame "multiverse:data" (R225). -/
  | cmdData
  /-- CMD._RST: the frame "multiverse:_rst" (R227). -/
  | cmdRst
  /-- CMD._USB: the frame "multiverse:_usb" (R228). -/
  | cmdUsb
  /-- CMD.UNKNOWN: MAGIC and four other code bytes, the first one most significant (R229). -/
  | cmdUnknown (code : BitVec 32)
  /-- WIRE.START: eight start bytes on the strand (R99). -/
  | wireStart
  /-- WIRE.PIXEL: one pixel on the strand, its brightness, B, G, R (R98, R100). -/
  | wirePixel (brightness : BitVec Config.brightBits) (b g r : Byte)
  /-- WIRE.END: eight end bytes on the strand (R101). -/
  | wireEnd
  /-- REP.GPAD: a gamepad report: x, y, buttons 11..0 and the hotkey flag (R109). -/
  | repGpad (x y : Byte) (buttons : BitVec Config.btnBits) (hotkey : Bool)
  /-- REP.KBD: a keyboard report: its six keycode slots (R110). -/
  | repKbd (k0 k1 k2 k3 k4 k5 : Byte)
  deriving DecidableEq, Repr

/-- A word on one port or output of the machine, in the format of R90 that belongs there. -/
inductive PortWord where
  /-- F-DBFREQ (R113). -/
  | dbfReq (w : BitVec (1 + Config.snapBits))
  /-- The reading of `merged`: no request word (R113, R131). -/
  | mergeRead
  /-- F-DECREQ (R114). -/
  | decReq (w : BitVec 1)
  /-- F-LFSREQ (R115). -/
  | lfsReq (w : BitVec 51)
  /-- F-TXSTEP: `tx_ready` (R116). -/
  | txStep (w : BitVec 1)
  /-- F-RXBYTE (R117). -/
  | rxByte (w : BitVec 9)
  /-- F-TICK (R117). -/
  | tick (w : BitVec 1)
  /-- F-CMDFRAME up to its code: 15 bytes, the first one most significant (R104, R119). -/
  | cmdFrame (w : BitVec 120)
  /-- F-WIRE, a start or an end frame: 8 bytes, the first one most significant (R99, R101, R119). -/
  | wireFrame (w : BitVec 64)
  /-- F-BACKPIX on the strand: 4 bytes, the first one most significant (R98, R119). -/
  | wirePix (w : BitVec 32)
  /-- F-GPAD: 4 bytes, byte 0 most significant (R109, R119). -/
  | gpad (w : BitVec 32)
  /-- F-KBD: 8 bytes, byte 0 most significant (R110, R119). -/
  | kbd (w : BitVec 64)
  /-- A word of `nbits` bits that no port carries. -/
  | other (nbits w : Nat)
  deriving DecidableEq, Repr

end Sys2Proof
end

