-- ==== Sys2Proof/Decode.lean ====
section
/-! DEFINITION. The words of the operation and command table (spec/30_encoding.md R104 to R119): the decoder, total on
every word, and the encoder written from the same tables. -/

namespace Sys2Proof

/-! ### Protocol bytes -/

/-- MAGIC, "multiverse:", first byte first (R105). -/
def magic : Vector Byte Config.magicLen := #v[0x6D, 0x75, 0x6C, 0x74, 0x69, 0x76, 0x65, 0x72, 0x73, 0x65, 0x3A]

/-- MAGIC as the high 88 bits of a frame word, the first byte most significant (R119). -/
def magicWord : BitVec 88 := 0x6D756C746976657273653A#88

/-- CODE_DATA, "data" (R106). -/
def codeData : BitVec 32 := 0x64617461#32
/-- CODE_RST, "_rst" (R106). -/
def codeRst : BitVec 32 := 0x5F727374#32
/-- CODE_USB, "_usb" (R106). -/
def codeUsb : BitVec 32 := 0x5F757362#32

/-- The four bytes of a command code, first byte received first (R64, R119). -/
def codeBytes (c : BitVec 32) : Vector Byte Config.codeLen :=
  #v[c.extractLsb' 24 8, c.extractLsb' 16 8, c.extractLsb' 8 8, c.extractLsb' 0 8]

/-- R106, R108: the codes that name a command; every other one is an unknown code. -/
def knownCode (c : BitVec 32) : Bool := c == codeData || c == codeRst || c == codeUsb

/-- The 15 bytes of a command frame up to its code, in the order received (R104). -/
def frameBytes (c : BitVec 32) : List Byte := magic.toList ++ (codeBytes c).toList

/-! ### The decoder -/

/-- Why a word names no row of the table. None of them stops a step that the hardware would take: see entry 22. -/
inductive DecodeError where
  /-- A strobe is 0: nothing is requested (R116, R117). -/
  | notRequested
  /-- 15 bytes that do not begin with MAGIC (R104). -/
  | noMagic
  /-- 8 or 4 bytes that are no unit of F-WIRE (R99 to R101). -/
  | noWireUnit
  /-- A report with a reserved bit set: buttons[15:13] of F-GPAD (R109), bytes 0 and 1 of F-KBD (R110). -/
  | reservedReportBits
  /-- No port carries words of this form. -/
  | noPort
  deriving DecidableEq, Repr

/-- F-LFSREQ `{op[2:0], off[15:0], data[31:0]}` (R115): the request of an `op`, an `off` and a `data`. -/
def decodeLfs (op : BitVec 3) (off : BitVec Config.offw) (data : BitVec 32) : Instr :=
  if op = 0b000#3 then .lfsNop
  else if op = 0b001#3 then
    .lfsSetAll (data.extractLsb' 0 8) (data.extractLsb' 8 8) (data.extractLsb' 16 8) (data.extractLsb' 24 8)
  else if op = 0b010#3 then .lfsWriteFront off (data.extractLsb' 0 8)
  else if op = 0b011#3 then .lfsFlip
  else if op = 0b100#3 then .lfsArm
  else if op = 0b101#3 then .lfsRsvd5
  else if op = 0b110#3 then .lfsRsvd6
  else .lfsRsvd7

/-- The request of a whole F-LFSREQ word (R115). -/
def decodeLfsWord (w : BitVec 51) : Instr := decodeLfs (w.extractLsb' 48 3) (w.extractLsb' 32 16) (w.extractLsb' 0 32)

/-- R106, R108: the frame that a code makes. -/
def decodeCode (c : BitVec 32) : Instr :=
  if c = codeData then .cmdData
  else if c = codeRst then .cmdRst
  else if c = codeUsb then .cmdUsb
  else .cmdUnknown c

/-- The row of the table that a word on a port selects (R119), or the reason it selects none. -/
def decode : PortWord → Except DecodeError Instr
  | .dbfReq w => if w.getLsbD Config.snapBits then .ok (.dbfPush (w.extractLsb' 0 Config.snapBits)) else .ok .dbfIdle
  | .mergeRead => .ok .dbfMerge
  | .decReq w => if w = 1#1 then .ok .decDecode else .ok .decHold
  | .lfsReq w => .ok (decodeLfsWord w)
  | .txStep w => if w = 1#1 then .ok .lfsScan else .error .notRequested
  | .rxByte w => if w.getLsbD 8 then .ok (.cmdRx (w.extractLsb' 0 8)) else .error .notRequested
  | .tick w => if w = 1#1 then .ok .cmdTick else .error .notRequested
  | .cmdFrame w => if w.extractLsb' 32 88 = magicWord then .ok (decodeCode (w.extractLsb' 0 32)) else .error .noMagic
  | .wireFrame w =>
    if w = 0#64 then .ok .wireStart else if w = BitVec.allOnes 64 then .ok .wireEnd else .error .noWireUnit
  | .wirePix w =>
    if w.extractLsb' 29 3 = 0b111#3 then
      .ok (.wirePixel (w.extractLsb' 24 5) (w.extractLsb' 16 8) (w.extractLsb' 8 8) (w.extractLsb' 0 8))
    else .error .noWireUnit
  | .gpad w =>
    if w.extractLsb' 5 3 = 0b000#3 then
      .ok (.repGpad (w.extractLsb' 24 8) (w.extractLsb' 16 8) (w.extractLsb' 0 4 ++ w.extractLsb' 8 8) (w.getLsbD 4))
    else .error .reservedReportBits
  | .kbd w =>
    if w.extractLsb' 48 16 = 0#16 then
      .ok (.repKbd (w.extractLsb' 40 8) (w.extractLsb' 32 8) (w.extractLsb' 24 8) (w.extractLsb' 16 8)
        (w.extractLsb' 8 8) (w.extractLsb' 0 8))
    else .error .reservedReportBits
  | .other _ _ => .error .noPort

/-! ### The encoder -/

/-- The word of an instruction (R113 to R119); bits that the format ignores are 0. -/
def encode : Instr → PortWord
  | .dbfPush snap => .dbfReq (1#1 ++ snap)
  | .dbfIdle => .dbfReq 0
  | .dbfMerge => .mergeRead
  | .decDecode => .decReq 1
  | .decHold => .decReq 0
  | .lfsNop => .lfsReq (0b000#3 ++ 0#48)
  | .lfsSetAll r g b br => .lfsReq (0b001#3 ++ (0#16 ++ (br ++ b ++ g ++ r)))
  | .lfsWriteFront off v => .lfsReq (0b010#3 ++ (off ++ (0#24 ++ v)))
  | .lfsFlip => .lfsReq (0b011#3 ++ 0#48)
  | .lfsArm => .lfsReq (0b100#3 ++ 0#48)
  | .lfsRsvd5 => .lfsReq (0b101#3 ++ 0#48)
  | .lfsRsvd6 => .lfsReq (0b110#3 ++ 0#48)
  | .lfsRsvd7 => .lfsReq (0b111#3 ++ 0#48)
  | .lfsScan => .txStep 1
  | .cmdRx b => .rxByte (1#1 ++ b)
  | .cmdTick => .tick 1
  | .cmdData => .cmdFrame (magicWord ++ codeData)
  | .cmdRst => .cmdFrame (magicWord ++ codeRst)
  | .cmdUsb => .cmdFrame (magicWord ++ codeUsb)
  | .cmdUnknown code => .cmdFrame (magicWord ++ code)
  | .wireStart => .wireFrame 0
  | .wirePixel brightness b g r => .wirePix (0b111#3 ++ (brightness ++ (b ++ g ++ r)))
  | .wireEnd => .wireFrame (BitVec.allOnes 64)
  | .repGpad x y buttons hotkey =>
    .gpad (x ++ (y ++ (buttons.extractLsb' 0 8 ++ (0b000#3 ++ (BitVec.ofBool hotkey ++ buttons.extractLsb' 8 4)))))
  | .repKbd k0 k1 k2 k3 k4 k5 => .kbd (0#16 ++ (k0 ++ k1 ++ k2 ++ k3 ++ k4 ++ k5))

/-! ### The table's own numbering -/

/-- The port on which a table word of `nbits` bits, in whole bytes, is offered. Where rows of several formats have that
many bits, the word goes to the first of them whose row it matches (entry 4): 8 bits to DEC, 32 bits to the strand's
pixel and then to the gamepad report, 64 bits to the strand's frames and then to the keyboard report. -/
def tablePort (nbits w : Nat) : PortWord :=
  if nbits = 0 ∧ w = 0 then .mergeRead
  else if nbits = 8 ∧ w < 2 ^ 1 then .decReq (BitVec.ofNat 1 w)
  else if nbits = 16 ∧ w < 2 ^ 9 then .rxByte (BitVec.ofNat 9 w)
  else if nbits = 32 ∧ w < 2 ^ 32 then
    if w / 2 ^ 29 = 7 then .wirePix (BitVec.ofNat 32 w) else .gpad (BitVec.ofNat 32 w)
  else if nbits = 56 ∧ w < 2 ^ 51 then .lfsReq (BitVec.ofNat 51 w)
  else if nbits = 64 ∧ w < 2 ^ 64 then
    if w = 0 ∨ w = 2 ^ 64 - 1 then .wireFrame (BitVec.ofNat 64 w) else .kbd (BitVec.ofNat 64 w)
  else if nbits = 72 ∧ w < 2 ^ (1 + Config.snapBits) then .dbfReq (BitVec.ofNat _ w)
  else if nbits = 120 ∧ w < 2 ^ 120 then .cmdFrame (BitVec.ofNat 120 w)
  else .other nbits w

/-- The instruction the decoder reads from a table word. -/
def decodeTableWord (nbits w : Nat) : Option Instr :=
  match decode (tablePort nbits w) with
  | .ok i => some i
  | .error _ => none

end Sys2Proof
end

