-- ==== Sys2Proof/WellFormed.lean ====
section
/-! DEFINITION. Which terms of `Instr` stand for a word of the table. -/

namespace Sys2Proof

/-- Every operand of a fixed width is legal at each of its values (R91, R97, R115); the one check is on CMD.UNKNOWN, whose
code is none of the three known ones (R106, R108). -/
def Instr.wf : Instr → Bool
  | .dbfPush _ => true
  | .dbfIdle => true
  | .dbfMerge => true
  | .decDecode => true
  | .decHold => true
  | .lfsNop => true
  | .lfsSetAll _ _ _ _ => true
  | .lfsWriteFront _ _ => true
  | .lfsFlip => true
  | .lfsArm => true
  | .lfsRsvd5 => true
  | .lfsRsvd6 => true
  | .lfsRsvd7 => true
  | .lfsScan => true
  | .cmdRx _ => true
  | .cmdTick => true
  | .cmdData => true
  | .cmdRst => true
  | .cmdUsb => true
  | .cmdUnknown code => !knownCode code
  | .wireStart => true
  | .wirePixel _ _ _ _ => true
  | .wireEnd => true
  | .repGpad _ _ _ _ => true
  | .repKbd _ _ _ _ _ _ => true

end Sys2Proof
end

