-- ==== Sys2Proof/Machine/State.lean ====
section
/-! DEFINITION. The state of the machine (spec/10_state.md), its reset value (R44), and the reasons a step can stop. -/

namespace Sys2Proof.Machine

open Sys2Proof

/-! ### The blocks -/

/-- DBF (R20, R21). -/
structure Dbf where
  /-- The last DEPTH snapshots, slot 0 first (R20). -/
  ring : Vector Snapshot Config.depth
  /-- The slot that the next PUSH writes (R21). -/
  cursor : Fin Config.depth
  deriving DecidableEq, Repr

/-- A ControllerState without `changed`: the record of R23 and R150. -/
structure CState where
  p1 : BitVec Config.btnBits
  p2 : BitVec Config.btnBits
  util : BitVec Config.utilBits
  p1x : Byte
  p1y : Byte
  p2x : Byte
  p2y : Byte
  deriving DecidableEq, Repr

/-- DEC (R23, R24). -/
structure Dec where
  prev : CState
  changed : Bool
  deriving DecidableEq, Repr

/-- Which part of a pass the next SCAN step emits (R30). -/
inductive Phase where
  | start | pixels | ending
  deriving DecidableEq, Repr

/-- LFS (R26 to R31). The three buffers are lists of (offset, byte) in canonical form; `Ops.lean` says what an unlisted
offset reads as. -/
structure Lfs where
  front : List Host.Cell
  back : List Host.Cell
  scan : List Host.Cell
  armed : Bool
  phase : Phase
  /-- The next byte inside the phase (R31). -/
  idx : Nat
  deriving DecidableEq, Repr

/-- The state register of the command state machine (R32). -/
inductive CmdState where
  | seekMagic | readCode | readData | resetWait | halted
  deriving DecidableEq, Repr

/-- Which reset was commanded (R37). -/
inductive ResetKind where
  | rst | usb
  deriving DecidableEq, Repr

/-- CMD (R32 to R38). -/
structure Cmd where
  st : CmdState
  midx : Fin Config.magicLen
  code : Vector Byte Config.codeLen
  cnt : Nat
  timer : Nat
  kind : ResetKind
  resetReq : Bool
  bootReq : Bool
  deriving DecidableEq, Repr

/-- REP, outside the block (R39, R279). -/
structure Rep where
  lastUtil : BitVec Config.utilBits
  wakeArmed : Bool
  deriving DecidableEq, Repr

/-! ### The surroundings -/

/-- The levels of the transport's signals as last set (R271). The model's own field: they are inputs (entry 19). -/
structure Transport where
  gp1Ready : Bool
  gp2Ready : Bool
  kbdReady : Bool
  suspended : Bool
  deriving DecidableEq, Repr

/-- The parts of REP's step that are still to run in this poll: REP 'runs once per poll, after DECODE' (R270). The model's own
field (entry 27): DECODE sets all four, a part that has run is no longer due. -/
structure RepDue where
  gp1 : Bool
  gp2 : Bool
  kbd : Bool
  wake : Bool
  deriving DecidableEq, Repr

/-- Nothing is due: before the first DECODE, and when the poll's step of REP has run. -/
def RepDue.none : RepDue := { gp1 := false, gp2 := false, kbd := false, wake := false }

/-- A whole step of REP is due: a DECODE has just run. -/
def RepDue.all : RepDue := { gp1 := true, gp2 := true, kbd := true, wake := true }

/-- What left the machine so far, oldest first. The model's own field, read by no operation (entries 5, 6). -/
structure Outputs where
  /-- The strand byte stream TX (R13, R102). -/
  tx : List Byte
  /-- The values that MERGE handed to its reader (R131). -/
  merged : List Snapshot
  /-- Gamepad reports of player 1 (R272). -/
  gpad1 : List (List Byte)
  /-- Gamepad reports of player 2 (R273). -/
  gpad2 : List (List Byte)
  /-- Keyboard reports (R275, R276). -/
  kbd : List (List Byte)
  /-- How often `wake_req` pulsed (R278). -/
  wakes : Nat
  deriving DecidableEq, Repr

/-- The inputs of one clock cycle (R112 to R117, R306). -/
structure CycleIn where
  rst : Bool
  push : Bool
  snapIn : Snapshot
  decode : Bool
  /-- A new request of INIT on `init_req` (R115). -/
  initReq : Option (BitVec 51)
  txReady : Bool
  rxValid : Bool
  rxData : Byte
  tick : Bool
  deriving DecidableEq, Repr

/-- The cycle in which nothing is requested and every strobe is 0. -/
def CycleIn.idle : CycleIn :=
  { rst := false, push := false, snapIn := 0, decode := false, initReq := none, txReady := false, rxValid := false,
    rxData := 0, tick := false }

/-- One input of the machine. -/
inductive Input where
  /-- One word on one port: at most one operation of the table (R14). -/
  | word (w : PortWord)
  /-- `rst` (R330), the line RESET of the trace notation (R120). -/
  | rst
  /-- The transport sets its signals (R271). -/
  | transport (t : Transport)
  /-- One step of REP (R270). -/
  | repStep
  /-- One clock cycle: several requests at once (R306). -/
  | cycle (c : CycleIn)
  deriving DecidableEq, Repr

/-! ### The whole machine -/

/-- The machine. `cfg` holds the parameters, which no step writes (R16, R42); the blocks follow; then the model's own fields
for the surroundings: what REP has still to do in this poll (entry 27), the transport's levels, the inputs still to come
(entry 2), the two fields of the cycle level (entries 13, 14), and the outputs so far. -/
structure State where
  cfg : Config.Params
  dbf : Dbf
  dec : Dec
  lfs : Lfs
  cmd : Cmd
  rep : Rep
  /-- What REP has still to do in this poll (R270, entry 27). -/
  repDue : RepDue
  transport : Transport
  inbox : List Input
  /-- INIT's requests that wait behind CMD's, oldest first (R115). -/
  initQ : List (BitVec 51)
  /-- CMD is in the extra cycle after the last payload byte: its FLIP is still to be issued (R117). -/
  cmdExtra : Bool
  out : Outputs
  deriving DecidableEq, Repr

/-! ### Reset (R44, R279, R335) -/

/-- DBF at reset (R20, R21). -/
def Dbf.reset : Dbf := { ring := Vector.replicate Config.depth 0, cursor := 0 }

/-- No control active, both sticks centred (R23). -/
def CState.reset : CState :=
  { p1 := 0, p2 := 0, util := 0, p1x := 0x00, p1y := 0x00, p2x := 0x00, p2y := 0x00 }

/-- DEC at reset (R23, R24). -/
def Dec.reset : Dec := { prev := CState.reset, changed := false }

/-- LFS at reset (R26 to R31): nothing is listed, so every buffer reads as its reset contents. -/
def Lfs.reset : Lfs := { front := [], back := [], scan := [], armed := false, phase := .start, idx := 0 }

/-- CMD at reset (R32 to R38). -/
def Cmd.reset : Cmd :=
  { st := .seekMagic, midx := 0, code := #v[0, 0, 0, 0], cnt := 0, timer := 0, kind := .rst,
    resetReq := false, bootReq := false }

/-- REP at reset (R279). -/
def Rep.reset : Rep := { lastUtil := 0, wakeArmed := true }

/-- The transport's levels before anything sets them: DESIGN CHOICE (entry 19). -/
def Transport.reset : Transport :=
  { gp1Ready := false, gp2Ready := false, kbdReady := false, suspended := false }

/-- Nothing has left the machine (entry 6). -/
def Outputs.none : Outputs := { tx := [], merged := [], gpad1 := [], gpad2 := [], kbd := [], wakes := 0 }

/-- The machine with the parameters `p` right after reset (R44), with no input yet to come. -/
def State.resetWith (p : Config.Params) : State :=
  { cfg := p, dbf := Dbf.reset, dec := Dec.reset, lfs := Lfs.reset, cmd := Cmd.reset, rep := Rep.reset,
    repDue := RepDue.none, transport := Transport.reset, inbox := [], initQ := [], cmdExtra := false, out := Outputs.none }

/-- The machine right after reset, its parameters the open ones (R7 to R9, entry 1). -/
def State.reset : State := State.resetWith Config.params

/-! ### Why a step stops -/

/-- No operation of this hardware faults (R300: "A model needs no fault outcome for any admitted operation"), so no
fault has a name. Safe: a step that cannot fault hides nothing. -/
inductive Fault where
  deriving DecidableEq, Repr

/-- Why the machine refuses an input. -/
inductive Refusal where
  /-- Raised by `exec` for an instruction that has no meaning yet; no arm raises it now. Safe. -/
  | notModelled (mnemonic : String)
  /-- Raised by `step` for a word that is no row of the operation table (entry 22): none of the request ports can carry
  one, only the frame, strand and report formats. Safe: the spec gives such a word no effect. -/
  | noSuchWord (e : DecodeError)
  deriving DecidableEq, Repr

end Sys2Proof.Machine
end

