-- ==== Sys2Proof/Machine/Operands.lean ====
section
/-! DEFINITION. What the operations read and how the formats pack it: the controls of LAYOUT and the decoding function
(spec/41_input_decoder.md), the pixel formats (R97, R98, R184), the output words and reports (R96, R109, R110). -/

namespace Sys2Proof.Machine

open Sys2Proof

/-! ### Codes of the state registers -/

/-- The 2-bit code of a phase (R30). -/
def phaseCode : Phase → BitVec 2
  | .start => 0
  | .pixels => 1
  | .ending => 2

/-- The 3-bit code of a state (R32). -/
def cmdStateCode : CmdState → BitVec 3
  | .seekMagic => 0
  | .readCode => 1
  | .readData => 2
  | .resetWait => 3
  | .halted => 4

/-- The 1-bit code of a reset kind (R37). -/
def resetKindCode : ResetKind → BitVec 1
  | .rst => 0
  | .usb => 1

/-! ### The input side: controls, LAYOUT, the decoding function -/

/-- The controls (R92). The indices in use are 0..11 for buttons and 0..5 for utility controls. -/
inductive Control where
  | p1Btn (n : Nat)
  | p2Btn (n : Nat)
  | util (n : Nat)
  | p1Left | p1Right | p1Up | p1Down
  | p2Left | p2Right | p2Up | p2Down
  deriving DecidableEq, Repr

/-- The id of a control in a packed LAYOUT row (R92). -/
def controlId : Control → Nat
  | .p1Btn n => n
  | .p2Btn n => Config.btnBits + n
  | .util n => Config.players * Config.btnBits + n
  | .p1Left => 30
  | .p1Right => 31
  | .p1Up => 32
  | .p1Down => 33
  | .p2Left => 34
  | .p2Right => 35
  | .p2Up => 36
  | .p2Down => 37

/-- `src(c)`: the position (byte, bit) of a control in LAYOUT, or none (R94). -/
def layoutSrc (layout : List (BitVec 12)) (c : Control) : Option (Nat × Nat) :=
  (layout.find? (fun r => (r.extractLsb' 0 6).toNat == controlId c)).map
    (fun r => ((r.extractLsb' 9 3).toNat, (r.extractLsb' 6 3).toNat))

/-- `bit(m, c)` (R151): bit i of byte k of the vector (R61), and 0 for a control without a row. -/
def controlBit (layout : List (BitVec 12)) (m : Snapshot) (c : Control) : Bool :=
  match layoutSrc layout c with
  | some (k, i) => m.getLsbD (8 * k + i)
  | none => false

/-- The packed rows (R94) that give the positions `p`, `p + 1`, … (position 8k + i is byte k, bit i) to these controls. -/
def rowsFrom (p : Nat) : List Control → List (BitVec 12)
  | [] => []
  | c :: cs => (BitVec.ofNat 6 p ++ BitVec.ofNat 6 (controlId c)) :: rowsFrom (p + 1) cs

/-- The sixteen controls of one player in LAYOUT_T, in the order of their positions (R95). -/
def layoutTPlayer (left right up down : Control) (btn : Nat → Control) : List Control :=
  [left, right, up, down, btn 0, btn 1, btn 2, btn 3, btn 4, btn 5, btn 6, btn 7, btn 8, btn 9, btn 10, btn 11]

/-- LAYOUT_T (R95): the spec's test table and not the product's. `State.reset` does not use it. -/
def layoutT : List (BitVec 12) :=
  rowsFrom 0 (layoutTPlayer Control.p1Left Control.p1Right Control.p1Up Control.p1Down Control.p1Btn) ++
  rowsFrom 16 (layoutTPlayer Control.p2Left Control.p2Right Control.p2Up Control.p2Down Control.p2Btn) ++
  rowsFrom 32 ((List.range 6).map Control.util)

/-- The n-bit field whose bit i is `f i`. -/
def bitField : (n : Nat) → (Nat → Bool) → BitVec n
  | 0, _ => 0#0
  | n + 1, f => BitVec.cons (f n) (bitField n f)

/-- One axis (R154, R155): two tests in sequence, the second one wins. -/
def axisValue (negBit posBit : Bool) : Byte :=
  let centre := Config.axisZero
  let afterNeg := if negBit then Config.axisNeg else centre
  if posBit then Config.axisPos else afterNeg

/-- `Decode(m, LAYOUT)` (R150 to R155). -/
def decodeState (layout : List (BitVec 12)) (m : Snapshot) : CState where
  p1 := bitField Config.btnBits (fun n => controlBit layout m (.p1Btn n))
  p2 := bitField Config.btnBits (fun n => controlBit layout m (.p2Btn n))
  util := bitField Config.utilBits (fun n => controlBit layout m (.util n))
  p1x := axisValue (controlBit layout m .p1Left) (controlBit layout m .p1Right)
  p1y := axisValue (controlBit layout m .p1Up) (controlBit layout m .p1Down)
  p2x := axisValue (controlBit layout m .p2Left) (controlBit layout m .p2Right)
  p2y := axisValue (controlBit layout m .p2Up) (controlBit layout m .p2Down)

/-- DBF's output `merged` (R22, R131): the bitwise OR of all DEPTH slots. -/
def mergedOf (d : Dbf) : Snapshot := d.ring.toList.foldl (· ||| ·) 0

/-- DEC's output port `cs` (R25, R96). -/
def csWord (d : Dec) : BitVec 63 :=
  BitVec.ofBool d.changed ++ d.prev.p2y ++ d.prev.p2x ++ d.prev.p1y ++ d.prev.p1x ++ d.prev.util ++ d.prev.p2 ++ d.prev.p1

/-! ### The output side: pixels -/

/-- What an unlisted offset of FRONT reads as: its reset contents (R26, entry 17). -/
def frontDefault (_ : Nat) : Byte := 0x00

/-- What an unlisted offset of BACK or SCAN reads as: its reset contents (R27, R28, entry 17). -/
def backDefault (a : Nat) : Byte := if a % 4 = 0 then Config.pixMarker else 0x00

/-- Byte `a` of a buffer that holds one pixel repeated, in F-FRONTPIX order (R63, R181). -/
def frontPixel (r g b br : Byte) (a : Nat) : Byte :=
  if a % 4 = 0 then r else if a % 4 = 1 then g else if a % 4 = 2 then b else br

/-- Byte `a` of `Reformat(f)` (R184): header, B, G, R from R, G, B, brightness. -/
def reformat (f : Nat → Byte) (a : Nat) : Byte :=
  if a % 4 = 0 then Config.pixMarker ||| f (a + 3)
  else if a % 4 = 1 then f (a + 1)
  else if a % 4 = 2 then f (a - 1)
  else f (a - 3)

/-- The bits of a byte in the order a serialiser sends them, bit 7 first (R64, R103; entry 20). -/
def lineBits (b : Byte) : List Bool := (List.range 8).map (fun k => b.getLsbD (7 - k))

/-- The four bytes of a strand pixel in wire order (R98, R100). -/
def wirePixelBytes (brightness : BitVec Config.brightBits) (b g r : Byte) : List Byte := [0b111#3 ++ brightness, b, g, r]

/-! ### Report formats (REP) -/

/-- F-GPAD (R109): x, y, `buttons` little-endian; buttons = zext_16(mask) | (hotkey << 12) (R272). -/
def gpadBytes (x y : Byte) (mask : BitVec Config.btnBits) (hotkey : Bool) : List Byte :=
  let buttons : BitVec 16 := mask.zeroExtend 16 ||| ((BitVec.ofBool hotkey).zeroExtend 16 <<< 12)
  [x, y, buttons.extractLsb' 0 8, buttons.extractLsb' 8 8]

/-- F-KBD (R110): modifier 0, reserved 0, six slots. -/
def kbdBytes (k0 k1 k2 k3 k4 k5 : Byte) : List Byte := [0x00, 0x00, k0, k1, k2, k3, k4, k5]

/-- `slot[n]` of the keyboard report (R275). -/
def kbdSlot (p : Config.Params) (util : BitVec Config.utilBits) (n : Fin Config.utilBits) : Byte :=
  if util.getLsbD n then p.keymap[n] else 0x00

end Sys2Proof.Machine
end

