-- ==== Sys2Proof/Machine/Flags.lean ====
section
/-! DEFINITION. The single-bit conditions that the operations compute: `changed` (R156), the hotkey flag (R272), the
conditions of REP (R276, R278), and the handshake outputs of the ports (R116, R117). -/

namespace Sys2Proof.Machine

open Sys2Proof

/-- `changed` of a DECODE (R156): the new state differs from `prev` in one of the seven fields. -/
def changedFlag (new prev : CState) : Bool :=
  new.p1 != prev.p1 || new.p2 != prev.p2 || new.util != prev.util ||
  new.p1x != prev.p1x || new.p1y != prev.p1y || new.p2x != prev.p2x || new.p2y != prev.p2y

/-- The hotkey flag of the gamepad reports (R272, R273). -/
def hotkeyFlag (p : Config.Params) (util : BitVec Config.utilBits) : Bool := (util &&& p.hotkeyMask) != 0

/-- When the keyboard report is sent (R276). -/
def kbdSendFlag (t : Transport) (d : Dec) (r : Rep) : Bool := t.kbdReady && d.changed && d.prev.util != r.lastUtil

/-- `active`: any input or utility bit is active (R278). -/
def activeFlag (c : CState) : Bool :=
  c.p1 != 0 || c.p2 != 0 || c.util != 0 || c.p1x != 0 || c.p1y != 0 || c.p2x != 0 || c.p2y != 0

/-- `cond` of the wake request (R278). -/
def wakeFlag (t : Transport) (c : CState) : Bool := t.suspended && activeFlag c

/-- RX is enabled: CMD is in one of its three reading states (R221). -/
def rxEnabled (c : Cmd) : Bool := c.st == .seekMagic || c.st == .readCode || c.st == .readData

/-- The output `rx_ready` in a cycle with this `rst`: 0 while `rst` is 1 (R117, R330). -/
def rxReady (rst : Bool) (s : State) : Bool := !rst && rxEnabled s.cmd && !s.cmdExtra

/-- The output `tx_valid` in a cycle with this `rst`: 0 while `rst` is 1 (R116, R330). -/
def txValid (rst : Bool) (s : State) : Bool := !rst && s.lfs.armed

/-- The byte is the last one of a payload (R226). -/
def lastPayloadByte (p : Config.Params) (c : Cmd) : Bool := c.st == .readData && c.cnt == p.fbLen - 1

end Sys2Proof.Machine
end

