-- ==== Sys2Proof/Machine/Ops.lean ====
section
/-! DEFINITION. The named operations over the state that the meanings share: the buffers, the operations of the four blocks
and of REP, and, in the place of exception entry and return (R308, R309), the return to SEEK_MAGIC and the entry of a
reset wait. -/

namespace Sys2Proof.Machine

open Sys2Proof

/-! ### One field of the state at a time -/

def State.withDbf (s : State) (x : Dbf) : State := { s with dbf := x }
def State.withDec (s : State) (x : Dec) : State := { s with dec := x }
def State.withLfs (s : State) (x : Lfs) : State := { s with lfs := x }
def State.withCmd (s : State) (x : Cmd) : State := { s with cmd := x }
def State.withRep (s : State) (x : Rep) : State := { s with rep := x }
def State.withRepDue (s : State) (x : RepDue) : State := { s with repDue := x }
def State.withOut (s : State) (x : Outputs) : State := { s with out := x }
def State.withInbox (s : State) (x : List Input) : State := { s with inbox := x }
def State.withInitQ (s : State) (x : List (BitVec 51)) : State := { s with initQ := x }
def State.withCmdExtra (s : State) (x : Bool) : State := { s with cmdExtra := x }

/-! ### Byte buffers: FRONT, BACK, SCAN (R60)

A buffer is the list of the offsets that hold something else than `dflt`, rising, with their bytes. -/

/-- The canonical form of a buffer of `size` bytes: offsets strictly rising, inside the buffer, and no entry equal to what an
unlisted offset reads as. -/
abbrev Memory.wf (dflt : Nat → Byte) (size : Nat) (m : List Host.Cell) : Prop :=
  m.Pairwise (fun x y => x.1 < y.1) ∧ ∀ c ∈ m, c.1 < size ∧ c.2 ≠ dflt c.1

/-- `MemRead(S, a, 1)` (R13). -/
def Memory.read (dflt : Nat → Byte) : List Host.Cell → Nat → Byte
  | [], a => dflt a
  | (k, v) :: m, a => if a = k then v else Memory.read dflt m a

/-- The buffer without an entry at offset `a`. -/
def Memory.erase (m : List Host.Cell) (a : Nat) : List Host.Cell := m.filter (fun c => c.1 ≠ a)

/-- The buffer with an entry at offset `a`, which it does not list yet, at its place in the order. -/
def Memory.insert : List Host.Cell → Nat → Byte → List Host.Cell
  | [], a, v => [(a, v)]
  | (k, x) :: m, a, v => if a < k then (a, v) :: (k, x) :: m else (k, x) :: Memory.insert m a v

/-- `MemWrite(S, a, 1, v)` (R13), keeping the canonical form. -/
def Memory.write (dflt : Nat → Byte) (m : List Host.Cell) (a : Nat) (v : Byte) : List Host.Cell :=
  if v = dflt a then Memory.erase m a else Memory.insert (Memory.erase m a) a v

/-- The buffer whose `n` bytes from offset `a` on are those of `f`, the rest unlisted. -/
def Memory.fillFrom (dflt f : Nat → Byte) (a : Nat) : Nat → List Host.Cell
  | 0 => []
  | n + 1 =>
    if f a = dflt a then Memory.fillFrom dflt f (a + 1) n else (a, f a) :: Memory.fillFrom dflt f (a + 1) n

/-- A whole-buffer write (R66): the buffer of `size` bytes that reads as `f`. -/
def Memory.fill (dflt f : Nat → Byte) (size : Nat) : List Host.Cell := Memory.fillFrom dflt f 0 size

/-- Byte `a` of FRONT. -/
def readFront (x : Lfs) (a : Nat) : Byte := Memory.read frontDefault x.front a
/-- Byte `a` of BACK. -/
def readBack (x : Lfs) (a : Nat) : Byte := Memory.read backDefault x.back a
/-- Byte `a` of SCAN. -/
def readScan (x : Lfs) (a : Nat) : Byte := Memory.read backDefault x.scan a

/-! ### DBF -/

/-- PUSH (R130): the snapshot goes to the cursor's slot, the cursor advances modulo DEPTH. -/
def pushSnapshot (v : Snapshot) (d : Dbf) : Dbf where
  ring := d.ring.set d.cursor.val v d.cursor.isLt
  cursor := ⟨(d.cursor.val + 1) % Config.depth, Nat.mod_lt _ (by decide)⟩

/-! ### DEC -/

/-- DECODE of the merged vector `m` (R156, R157). -/
def decodeInput (p : Config.Params) (m : Snapshot) (d : Dec) : Dec :=
  let new := decodeState p.layout m
  { prev := new, changed := changedFlag new d.prev }

/-! ### LFS: requests -/

/-- SET_ALL on a buffer of `len` bytes (R181). -/
def setAll (len : Nat) (r g b br : Byte) (x : Lfs) : Lfs :=
  { x with front := Memory.fill frontDefault (frontPixel r g b br) len }

/-- WRITE_FRONT (R182): an offset past the end is discarded (R75). -/
def writeFront (len off : Nat) (v : Byte) (x : Lfs) : Lfs :=
  if off < len then { x with front := Memory.write frontDefault x.front off v } else x

/-- FLIP (R183). -/
def flip (len : Nat) (x : Lfs) : Lfs := { x with back := Memory.fill backDefault (reformat (readFront x)) len }

/-- ARM (R185). -/
def arm (x : Lfs) : Lfs := if x.armed then x else { x with armed := true, phase := .start, idx := 0 }

/-! ### LFS: the scanner -/

/-- The byte that a SCAN step emits, `tx_data` (R116, R188 to R190). -/
def txData (x : Lfs) : Byte :=
  match x.phase with
  | .start => Config.startByte
  | .pixels => readScan x x.idx
  | .ending => Config.endByte

/-- What a SCAN step does to LFS (R188 to R190), with the pass latch (R191). -/
def scanAdvance (len : Nat) (x : Lfs) : Lfs :=
  match x.phase with
  | .start =>
    let y := if x.idx = 0 then { x with scan := x.back } else x
    if x.idx = Config.startLen - 1 then { y with phase := .pixels, idx := 0 } else { y with idx := x.idx + 1 }
  | .pixels => if x.idx = len - 1 then { x with phase := .ending, idx := 0 } else { x with idx := x.idx + 1 }
  | .ending =>
    if x.idx = Config.endLen - 1 then { x with phase := .start, idx := 0 } else { x with idx := x.idx + 1 }

/-- `emit(b)` (R13): append to TX. -/
def emit (b : Byte) (o : Outputs) : Outputs := { o with tx := o.tx ++ [b] }

/-- SCAN (R187): enabled exactly when armed. -/
def scanStep (s : State) : State :=
  if s.lfs.armed then (s.withLfs (scanAdvance s.cfg.fbLen s.lfs)).withOut (emit (txData s.lfs) s.out) else s

/-- n SCAN steps with nothing between them, `SCAN n` (R120). -/
def scanSteps : Nat → State → State
  | 0, s => s
  | n + 1, s => scanSteps n (scanStep s)

/-! ### CMD: what stands in the place of exception entry and return (R308, R309) -/

/-- The return to SEEK_MAGIC with nothing matched: after an unknown code, a completed payload, and the timeouts of
READ_CODE and READ_DATA (R226, R229, R234, R235). It saves nothing and reports nothing (R302, R303). -/
def resync (c : Cmd) : Cmd := { c with st := .seekMagic, midx := 0, cnt := 0, timer := 0 }

/-- A reset command is taken (R227, R228): `kind` is all it saves (R308). -/
def enterResetWait (k : ResetKind) (c : Cmd) : Cmd := { c with st := .resetWait, kind := k, cnt := 0, timer := 0 }

/-- EXPIRE (R236): the end of the reset delay. HALTED is left by `rst` alone (R309). -/
def expire (c : Cmd) : Cmd :=
  match c.kind with
  | .rst => { c with st := .halted, timer := 0, resetReq := true }
  | .usb => { c with st := .halted, timer := 0, bootReq := true }

/-! ### CMD: bytes -/

/-- RX in SEEK_MAGIC (R222). -/
def seekByte (b : Byte) (c : Cmd) : Cmd :=
  if b = magic.get c.midx then
    if h : c.midx.val = Config.magicLen - 1 then { c with st := .readCode, midx := 0, cnt := 0, timer := 0 }
    else { c with midx := ⟨c.midx.val + 1, by have := c.midx.isLt; omega⟩, timer := 0 }
  else { c with midx := if b = magic.get 0 then 1 else 0, timer := 0 }

/-- CMD.DATA at dispatch (R225). -/
def dispatchData (c : Cmd) : Cmd := { c with st := .readData, cnt := 0, timer := 0 }

/-- DISPATCH (R224): the code accumulated in `code` decides. -/
def dispatch (c : Cmd) : Cmd :=
  if c.code = codeBytes codeData then dispatchData c
  else if c.code = codeBytes codeRst then enterResetWait .rst c
  else if c.code = codeBytes codeUsb then enterResetWait .usb c
  else resync c

/-- RX in READ_CODE (R223). -/
def codeByte (b : Byte) (c : Cmd) : Cmd :=
  let c' := { c with code := c.code.setIfInBounds c.cnt b }
  if c.cnt = Config.codeLen - 1 then dispatch c' else { c' with cnt := c.cnt + 1 }

/-- RX in READ_DATA but for its FLIP (R226): the byte goes to FRONT, and after the last one CMD is back in SEEK_MAGIC. -/
def payloadWrite (b : Byte) (s : State) : State :=
  (s.withLfs (writeFront s.cfg.fbLen s.cmd.cnt b s.lfs)).withCmd
    (if s.cmd.cnt = s.cfg.fbLen - 1 then resync s.cmd else { s.cmd with cnt := s.cmd.cnt + 1 })

/-- RX in READ_DATA (R226): after the last byte FLIP, in one transition with the rest. -/
def payloadByte (b : Byte) (s : State) : State :=
  let t := payloadWrite b s
  if s.cmd.cnt = s.cfg.fbLen - 1 then t.withLfs (flip s.cfg.fbLen t.lfs) else t

/-- RX (R221): one byte taken in a reading state; in RESET_WAIT and HALTED none is (R238, entry 7). -/
def receiveByte (b : Byte) (s : State) : State :=
  match s.cmd.st with
  | .seekMagic => s.withCmd (seekByte b s.cmd)
  | .readCode => s.withCmd (codeByte b s.cmd)
  | .readData => payloadByte b s
  | .resetWait => s
  | .halted => s

/-- RX in a clock cycle (R117): as RX, but that the FLIP of the last payload byte is left to the extra cycle. -/
def receiveInCycle (b : Byte) (s : State) : State :=
  match s.cmd.st with
  | .readData => payloadWrite b s
  | _ => receiveByte b s

/-- What CMD still has to do of its last payload byte: the FLIP that belongs to one transition with it (R14, R226). Nothing
outside the extra cycle. -/
def completeFlip (s : State) : State :=
  if s.cmdExtra then (s.withLfs (flip s.cfg.fbLen s.lfs)).withCmdExtra false else s

/-- Bytes received one after another with nothing between them, `RXBYTES` (R121). -/
def receiveBytes : List Byte → State → State
  | [], s => s
  | b :: bs, s => receiveBytes bs (receiveByte b s)

/-! ### CMD: time -/

/-- TICK (R232), with the timeouts of R233 to R235 and the expiry of R236. -/
def tickCmd (p : Config.Params) (c : Cmd) : Cmd :=
  match c.st with
  | .seekMagic =>
    if c.midx = 0 then { c with timer := 0 }
    else if c.timer + 1 ≥ Config.tMagic then { c with midx := 0, timer := 0 }
    else { c with timer := c.timer + 1 }
  | .readCode => if c.timer + 1 ≥ p.tCode then resync c else { c with timer := c.timer + 1 }
  | .readData => if c.timer + 1 ≥ Config.tData then resync c else { c with timer := c.timer + 1 }
  | .resetWait => if c.timer + 1 ≥ p.tRstDelay then expire c else { c with timer := c.timer + 1 }
  | .halted => c

/-! ### REP -/

/-- The report of player 1 (R272). -/
def gpad1Report (s : State) : List Byte :=
  gpadBytes s.dec.prev.p1x s.dec.prev.p1y s.dec.prev.p1 (hotkeyFlag s.cfg s.dec.prev.util)

/-- The report of player 2 (R273). -/
def gpad2Report (s : State) : List Byte :=
  gpadBytes s.dec.prev.p2x s.dec.prev.p2y s.dec.prev.p2 (hotkeyFlag s.cfg s.dec.prev.util)

/-- The keyboard report (R275). -/
def kbdReport (s : State) : List Byte :=
  let slot := kbdSlot s.cfg s.dec.prev.util
  kbdBytes (slot 0) (slot 1) (slot 2) (slot 3) (slot 4) (slot 5)

/-- REP.GPAD1 (R272, R274): sent whenever its channel is ready, whatever `changed` says, at most once in a poll (R270). -/
def sendGpad1 (s : State) : State :=
  if s.repDue.gp1 && s.transport.gp1Ready then
    (s.withOut { s.out with gpad1 := s.out.gpad1 ++ [gpad1Report s] }).withRepDue { s.repDue with gp1 := false }
  else s

/-- REP.GPAD2 (R273, R274), at most once in a poll (R270). -/
def sendGpad2 (s : State) : State :=
  if s.repDue.gp2 && s.transport.gp2Ready then
    (s.withOut { s.out with gpad2 := s.out.gpad2 ++ [gpad2Report s] }).withRepDue { s.repDue with gp2 := false }
  else s

/-- REP.KBD (R276): sent when the condition holds, at most once in a poll (R270); `last_util` changes only then. -/
def sendKbd (s : State) : State :=
  if s.repDue.kbd && kbdSendFlag s.transport s.dec s.rep then
    ((s.withOut { s.out with kbd := s.out.kbd ++ [kbdReport s] }).withRep { s.rep with lastUtil := s.dec.prev.util }).withRepDue
      { s.repDue with kbd := false }
  else s

/-- REP.WAKE (R278): one pulse when the condition becomes true, none while it stays true; looked at once in a poll (R270). -/
def wakeStep (s : State) : State :=
  if s.repDue.wake then
    ((s.withOut { s.out with
        wakes := s.out.wakes + if wakeFlag s.transport s.dec.prev && s.rep.wakeArmed then 1 else 0 }).withRep
      { s.rep with wakeArmed := !wakeFlag s.transport s.dec.prev }).withRepDue { s.repDue with wake := false }
  else s

/-- One step of REP (R270): the parts that are due, on DEC's output, after which nothing is due until the next DECODE. With
nothing due it changes nothing. -/
def repStep (s : State) : State := (wakeStep (sendKbd (sendGpad2 (sendGpad1 s)))).withRepDue RepDue.none

/-! ### rst -/

/-- `rst` (R330): every block takes its reset value. The parameters (R332), the transport's levels, the inputs still to come
and what was already emitted (R333) are not the block's and stay; REP and the cycle level's fields are reset too
(entries 11, 12). -/
def applyRst (s : State) : State :=
  { State.resetWith s.cfg with transport := s.transport, inbox := s.inbox, out := s.out }

end Sys2Proof.Machine
end

