-- ==== Sys2Proof/Machine/CmdBlock.lean ====
section
/-! DEFINITION. The meanings of CMD.RX, CMD.TICK and the command frames (spec/43_command_dispatcher.md R221 to R236). A
frame is its 15 bytes taken one RX step after another (R104, R121; entry 8); the payload of CMD.DATA follows as RX
steps of its own (R225, R226). -/

namespace Sys2Proof.Machine

open Sys2Proof

/-- CMD.RX (R221 to R224, R226). -/
def execCmdRx (b : Byte) (s : State) : Host.Outcome State Fault Refusal := .next (receiveByte b s)

/-- CMD.TICK (R232). -/
def execCmdTick (s : State) : Host.Outcome State Fault Refusal := .next (s.withCmd (tickCmd s.cfg s.cmd))

/-- CMD.DATA (R225). -/
def execCmdData (s : State) : Host.Outcome State Fault Refusal := .next (receiveBytes (frameBytes codeData) s)

/-- CMD._RST (R227). -/
def execCmdRst (s : State) : Host.Outcome State Fault Refusal := .next (receiveBytes (frameBytes codeRst) s)

/-- CMD._USB (R228). -/
def execCmdUsb (s : State) : Host.Outcome State Fault Refusal := .next (receiveBytes (frameBytes codeUsb) s)

/-- CMD.UNKNOWN (R229). -/
def execCmdUnknown (code : BitVec 32) (s : State) : Host.Outcome State Fault Refusal :=
  .next (receiveBytes (frameBytes code) s)

end Sys2Proof.Machine
end

