-- ==== Sys2Proof/Machine/DbfBlock.lean ====
section
/-! DEFINITION. The meanings of DBF.PUSH, DBF.IDLE and DBF.MERGE (spec/40_debounce_filter.md R130 to R132). -/

namespace Sys2Proof.Machine

open Sys2Proof

/-- DBF.PUSH (R130). -/
def execDbfPush (snap : Snapshot) (s : State) : Host.Outcome State Fault Refusal :=
  .next (s.withDbf (pushSnapshot snap s.dbf))

/-- DBF.IDLE (R132): no state changes. -/
def execDbfIdle (s : State) : Host.Outcome State Fault Refusal := .next s

/-- DBF.MERGE (R131): its reader gets the OR of the slots; no block changes (entry 5). -/
def execDbfMerge (s : State) : Host.Outcome State Fault Refusal :=
  .next (s.withOut { s.out with merged := s.out.merged ++ [mergedOf s.dbf] })

end Sys2Proof.Machine
end

