-- ==== Sys2Proof/Machine/DecBlock.lean ====
section
/-! DEFINITION. The meanings of DEC.DECODE and DEC.HOLD (spec/41_input_decoder.md R156 to R158). -/

namespace Sys2Proof.Machine

open Sys2Proof

/-- DEC.DECODE (R156, R157), of DBF's `merged` at the time of the operation (R118, entry 18). A step of REP is due after it
(R270, entry 27). -/
def execDecDecode (s : State) : Host.Outcome State Fault Refusal :=
  .next ((s.withDec (decodeInput s.cfg (mergedOf s.dbf) s.dec)).withRepDue RepDue.all)

/-- DEC.HOLD (R158): no state changes. -/
def execDecHold (s : State) : Host.Outcome State Fault Refusal := .next s

end Sys2Proof.Machine
end

