-- ==== Sys2Proof/Machine/LfsBlock.lean ====
section
/-! DEFINITION. The meanings of the LFS requests and of LFS.SCAN (spec/42_led_framing_streamer.md R181 to R191). -/

namespace Sys2Proof.Machine

open Sys2Proof

/-- LFS.NOP (R186). -/
def execLfsNop (s : State) : Host.Outcome State Fault Refusal := .next s

/-- LFS.SET_ALL (R181). -/
def execLfsSetAll (r g b br : Byte) (s : State) : Host.Outcome State Fault Refusal :=
  .next (s.withLfs (setAll s.cfg.fbLen r g b br s.lfs))

/-- LFS.WRITE_FRONT (R182, R75). -/
def execLfsWriteFront (off : BitVec Config.offw) (v : Byte) (s : State) : Host.Outcome State Fault Refusal :=
  .next (s.withLfs (writeFront s.cfg.fbLen off.toNat v s.lfs))

/-- LFS.FLIP (R183). -/
def execLfsFlip (s : State) : Host.Outcome State Fault Refusal := .next (s.withLfs (flip s.cfg.fbLen s.lfs))

/-- LFS.ARM (R185). -/
def execLfsArm (s : State) : Host.Outcome State Fault Refusal := .next (s.withLfs (arm s.lfs))

/-- LFS.RSVD5, executed as NOP (R186). -/
def execLfsRsvd5 (s : State) : Host.Outcome State Fault Refusal := .next s

/-- LFS.RSVD6, executed as NOP (R186). -/
def execLfsRsvd6 (s : State) : Host.Outcome State Fault Refusal := .next s

/-- LFS.RSVD7, executed as NOP (R186). -/
def execLfsRsvd7 (s : State) : Host.Outcome State Fault Refusal := .next s

/-- LFS.SCAN (R187 to R191): one byte on TX when armed; not enabled and without effect otherwise (R199, entry 7). -/
def execLfsScan (s : State) : Host.Outcome State Fault Refusal := .next (scanStep s)

end Sys2Proof.Machine
end

