-- ==== Sys2Proof/Machine/RepBlock.lean ====
section
/-! DEFINITION. The meanings of the two report formats (spec/44_report_emitter_interface.md R272 to R276): the sending of
that report, by the rule that sends it. Where REP would not send those bytes now, the report does not go out and nothing
changes (entry 10). -/

namespace Sys2Proof.Machine

open Sys2Proof

/-- REP.GPAD: the report goes out on each gamepad channel that is ready, whose player's report it is, and on which none went
out in this poll (R270, R272 to R274). -/
def execRepGpad (x y : Byte) (buttons : BitVec Config.btnBits) (hotkey : Bool) (s : State) : Host.Outcome State Fault Refusal :=
  let report := gpadBytes x y buttons hotkey
  let t := if gpad1Report s == report then sendGpad1 s else s
  .next (if gpad2Report s == report then sendGpad2 t else t)

/-- REP.KBD: the report goes out when it is the present one, R276 sends it, and none went out in this poll (R270). -/
def execRepKbd (k0 k1 k2 k3 k4 k5 : Byte) (s : State) : Host.Outcome State Fault Refusal :=
  .next (if kbdReport s == kbdBytes k0 k1 k2 k3 k4 k5 then sendKbd s else s)

end Sys2Proof.Machine
end

