-- ==== Sys2Proof/Machine/WireFormats.lean ====
section
/-! DEFINITION. The meanings of the three units of the strand stream (spec/30_encoding.md R99 to R101), each the run of
SCAN steps that puts it on TX (R188 to R190). The scanner offers such a unit exactly when it stands at the unit's first
byte and, for a pixel, when SCAN holds that pixel; where it does not, the unit is not on the strand and nothing changes
(entry 9). -/

namespace Sys2Proof.Machine

open Sys2Proof

/-- WIRE.START: the start frame of a pass, with its pass latch (R99, R188). -/
def execWireStart (s : State) : Host.Outcome State Fault Refusal :=
  .next (if s.lfs.armed && s.lfs.phase == .start && s.lfs.idx == 0 then scanSteps Config.startLen s else s)

/-- WIRE.PIXEL: the pixel that stands at the scanner's place in SCAN (R100, R189). -/
def execWirePixel (brightness : BitVec Config.brightBits) (b g r : Byte) (s : State) : Host.Outcome State Fault Refusal :=
  let i := s.lfs.idx
  let here := [readScan s.lfs i, readScan s.lfs (i + 1), readScan s.lfs (i + 2), readScan s.lfs (i + 3)]
  .next (if s.lfs.armed && s.lfs.phase == .pixels && i % 4 == 0 && decide (i < s.cfg.fbLen) &&
      here == wirePixelBytes brightness b g r then scanSteps 4 s else s)

/-- WIRE.END: the end frame of a pass (R101, R190). -/
def execWireEnd (s : State) : Host.Outcome State Fault Refusal :=
  .next (if s.lfs.armed && s.lfs.phase == .ending && s.lfs.idx == 0 then scanSteps Config.endLen s else s)

end Sys2Proof.Machine
end

