-- ==== Sys2Proof/Machine/Dispatch.lean ====
section
/-! DEFINITION. One arm per row of the operation table. -/

namespace Sys2Proof.Machine

open Sys2Proof

def exec (i : Instr) (s : State) : Host.Outcome State Fault Refusal :=
  match i with
  | .dbfPush snap => Sys2Proof.Machine.execDbfPush snap s
  | .dbfIdle => Sys2Proof.Machine.execDbfIdle s
  | .dbfMerge => Sys2Proof.Machine.execDbfMerge s
  | .decDecode => Sys2Proof.Machine.execDecDecode s
  | .decHold => Sys2Proof.Machine.execDecHold s
  | .lfsNop => Sys2Proof.Machine.execLfsNop s
  | .lfsSetAll r g b br => Sys2Proof.Machine.execLfsSetAll r g b br s
  | .lfsWriteFront off v => Sys2Proof.Machine.execLfsWriteFront off v s
  | .lfsFlip => Sys2Proof.Machine.execLfsFlip s
  | .lfsArm => Sys2Proof.Machine.execLfsArm s
  | .lfsRsvd5 => Sys2Proof.Machine.execLfsRsvd5 s
  | .lfsRsvd6 => Sys2Proof.Machine.execLfsRsvd6 s
  | .lfsRsvd7 => Sys2Proof.Machine.execLfsRsvd7 s
  | .lfsScan => Sys2Proof.Machine.execLfsScan s
  | .cmdRx b => Sys2Proof.Machine.execCmdRx b s
  | .cmdTick => Sys2Proof.Machine.execCmdTick s
  | .cmdData => Sys2Proof.Machine.execCmdData s
  | .cmdRst => Sys2Proof.Machine.execCmdRst s
  | .cmdUsb => Sys2Proof.Machine.execCmdUsb s
  | .cmdUnknown code => Sys2Proof.Machine.execCmdUnknown code s
  | .wireStart => Sys2Proof.Machine.execWireStart s
  | .wirePixel brightness b g r => Sys2Proof.Machine.execWirePixel brightness b g r s
  | .wireEnd => Sys2Proof.Machine.execWireEnd s
  | .repGpad x y buttons hotkey => Sys2Proof.Machine.execRepGpad x y buttons hotkey s
  | .repKbd k0 k1 k2 k3 k4 k5 => Sys2Proof.Machine.execRepKbd k0 k1 k2 k3 k4 k5 s

end Sys2Proof.Machine
end

