-- ==== Sys2Proof/Machine/Ports.lean ====
section
/-! DEFINITION. From the inputs to the operations: one clock cycle as the operations it holds, in the order of
spec/60_exceptions.md R306, and the taking of the next input. -/

namespace Sys2Proof.Machine

open Sys2Proof

/-- REP runs once per poll, after DECODE (R270): a DECODE begins the next poll, so what is still due of REP's step runs before
it, on DEC's output of the poll that ends (entry 27). Before any other operation nothing is made up for. -/
def closePoll (i : Instr) (s : State) : State := if i = .decDecode then repStep s else s

/-! ### One clock cycle (R112 to R118, R306; entry 13) -/

/-- CMD takes the byte offered in this cycle (R117). -/
def rxTaken (c : CycleIn) (s : State) : Bool := c.rxValid && rxReady c.rst s

/-- CMD uses the LFS request port in this cycle: a payload byte's WRITE_FRONT, or the FLIP of the extra cycle (R115, R117). -/
def cmdRequests (c : CycleIn) (s : State) : Bool := s.cmdExtra || (rxTaken c s && s.cmd.st == .readData)

/-- INIT's requests that wait in this cycle, oldest first (R115). -/
def initWaiting (c : CycleIn) (s : State) : List (BitVec 51) := s.initQ ++ c.initReq.toList

/-- The output `init_ready` in a cycle without `rst` (R115). While `rst` is 1 every request is ignored (R330), and no rule
gives `init_ready`: nothing reads it then. -/
def initReady (c : CycleIn) (s : State) : Bool := !cmdRequests c s

/-- One operation of a clock cycle. -/
inductive CycleOp where
  /-- An operation of the table. -/
  | op (i : Instr)
  /-- CMD's RX step, which leaves the FLIP of a last payload byte to the extra cycle (R117). -/
  | rx (b : Byte)
  deriving DecidableEq, Repr

/-- The request on the LFS port beside a payload byte's WRITE_FRONT, which belongs to the RX step: CMD's FLIP in the extra cycle,
else the oldest of INIT's in a cycle in which CMD does not use the port (R115, R117). -/
def lfsRequests (c : CycleIn) (s : State) : List Instr :=
  if s.cmdExtra then [.lfsFlip] else if initReady c s then ((initWaiting c s).take 1).map decodeLfsWord else []

/-- The operations of one cycle without `rst`, in the order of R306: DECODE before PUSH, SCAN with its pass latch before the LFS
request, CMD's request before INIT's, RX before TICK. -/
def cycleOps (c : CycleIn) (s : State) : List CycleOp :=
  [.op (if c.decode then .decDecode else .decHold), .op (if c.push then .dbfPush c.snapIn else .dbfIdle)] ++
  (if c.txReady then [.op .lfsScan] else []) ++
  (if rxTaken c s then [.rx c.rxData] else []) ++
  (lfsRequests c s).map CycleOp.op ++
  (if c.tick then [.op .cmdTick] else [])

/-- Operations one after another with nothing between them. -/
def runCycleOps : List CycleOp → State → Host.Outcome State Fault Refusal
  | [], s => .next s
  | .op i :: ops, s =>
    match exec i (closePoll i s) with
    | .next t => runCycleOps ops t
    | .fault r => .fault r
    | .refused r => .refused r
  | .rx b :: ops, s => runCycleOps ops (receiveInCycle b s)

/-- One clock cycle. `rst` wins and the cycle's other requests are ignored (R306, R330). -/
def runCycle (c : CycleIn) (s : State) : Host.Outcome State Fault Refusal :=
  if c.rst then .next (applyRst s)
  else
    runCycleOps (cycleOps c s)
      ((s.withInitQ (if initReady c s then (initWaiting c s).drop 1 else initWaiting c s)).withCmdExtra
        (rxTaken c s && lastPayloadByte s.cfg s.cmd))

/-! ### The next input -/

/-- Takes one input in a state from whose list it has been removed. A word is an operation by itself, and so finds what CMD
still has to do of its last byte done (R14; entry 13). A word whose strobe is 0 requests nothing and changes nothing
(R116, R117; entry 3). -/
def takeInput (x : Input) (s : State) : Host.Outcome State Fault Refusal :=
  match x with
  | .word w =>
    match decode w with
    | .ok i => exec i (closePoll i (completeFlip s))
    | .error .notRequested => .next s
    | .error e => .refused (.noSuchWord e)
  | .rst => .next (applyRst s)
  | .transport t => .next { s with transport := t }
  | .repStep => .next (repStep s)
  | .cycle c => runCycle c s

/-- Takes the next input from the list. With none offered REP's step runs, if it is due, and a cycle passes in which nothing is
requested (entries 2, 27). -/
def takeNext (s : State) : Host.Outcome State Fault Refusal :=
  match s.inbox with
  | [] => runCycle CycleIn.idle (repStep s)
  | x :: rest => takeInput x (s.withInbox rest)

end Sys2Proof.Machine
end

