-- ==== Sys2Proof/Machine/Step.lean ====
section
/-! DEFINITION. One step: the next input is taken from the list and run. -/

namespace Sys2Proof.Machine

open Sys2Proof

/-- One step of the machine. -/
def step (s : State) : Host.Outcome State Fault Refusal := takeNext s

/-- The word of a table row, offered as the very next input (entries 2, 4). -/
def State.withFetchWord (s : State) (nbits w : Nat) : State := s.withInbox (.word (tablePort nbits w) :: s.inbox)

end Sys2Proof.Machine
end

