-- ==== Sys2Proof/Safety.lean ====
section
/-! DEFINITION. What holds of the machine at all times: the invariants of spec/10_state.md R45, with the canonical form of the
buffers and the bounds of the timer (R36). -/

namespace Sys2Proof.Safety

open Sys2Proof Sys2Proof.Machine

/-- A legal axis byte (R96). -/
abbrev AxisOk (x : Byte) : Prop := x = Config.axisNeg ∨ x = Config.axisZero ∨ x = Config.axisPos

/-- R45 (2): the four axis fields. -/
structure DecInv (d : Dec) : Prop where
  p1x : AxisOk d.prev.p1x
  p1y : AxisOk d.prev.p1y
  p2x : AxisOk d.prev.p2x
  p2y : AxisOk d.prev.p2y

/-- How many bytes a phase has (R31). -/
def phaseLen (len : Nat) : Phase → Nat
  | .start => Config.startLen
  | .pixels => len
  | .ending => Config.endLen

/-- R45 (3), (4) and the canonical form of the three buffers of `len` bytes. -/
structure LfsInv (len : Nat) (x : Lfs) : Prop where
  frontWf : Memory.wf frontDefault len x.front
  backWf : Memory.wf backDefault len x.back
  scanWf : Memory.wf backDefault len x.scan
  backHeader : ∀ i, 4 * i < len → (readBack x (4 * i)).extractLsb' 5 3 = 0b111#3
  scanHeader : ∀ i, 4 * i < len → (readScan x (4 * i)).extractLsb' 5 3 = 0b111#3
  idxInPhase : x.idx < phaseLen len x.phase

/-- The least value that `timer` never reaches in a state of CMD (R36, R232). -/
def timerBound (p : Config.Params) : CmdState → Nat
  | .seekMagic => Config.tMagic
  | .readCode => p.tCode
  | .readData => Config.tData
  | .resetWait => p.tRstDelay
  | .halted => 1

/-- The range of `cnt` in a state of CMD (R35): the least value it never reaches. -/
def cntBound (p : Config.Params) : CmdState → Nat
  | .readCode => Config.codeLen
  | .readData => p.fbLen
  | _ => 1

/-- R45 (5), (6), (7) and R36. -/
structure CmdInv (p : Config.Params) (c : Cmd) : Prop where
  midxOnlyInSeek : c.st ≠ .seekMagic → c.midx = 0
  cntInRange : c.cnt < cntBound p c.st
  timerInRange : c.timer < timerBound p c.st
  requestsExclusive : ¬ (c.resetReq = true ∧ c.bootReq = true)
  requestsOnlyHalted : c.resetReq = true ∨ c.bootReq = true → c.st = .halted

/-- The invariant of every reachable state. -/
structure Inv (s : State) : Prop where
  dec : DecInv s.dec
  lfs : LfsInv s.cfg.fbLen s.lfs
  cmd : CmdInv s.cfg s.cmd

/-- CMD is on its way to HALTED or there (R45 (8)). -/
abbrev ResetPending (c : Cmd) : Prop := c.st = .resetWait ∨ c.st = .halted

/-- The next input asserts `rst`, alone or in a clock cycle with other requests (R306 (1), R330). -/
def rstNext (s : State) : Bool :=
  match s.inbox with
  | .rst :: _ => true
  | .cycle c :: _ => c.rst
  | _ => false

/-- The operations of the input pipeline, SRC → DBF → DEC → REP (R17); the others are the LED pipeline's. -/
def inputPipeline : Instr → Bool
  | .dbfPush _ => true
  | .dbfIdle => true
  | .dbfMerge => true
  | .decDecode => true
  | .decHold => true
  | .lfsNop => false
  | .lfsSetAll _ _ _ _ => false
  | .lfsWriteFront _ _ => false
  | .lfsFlip => false
  | .lfsArm => false
  | .lfsRsvd5 => false
  | .lfsRsvd6 => false
  | .lfsRsvd7 => false
  | .lfsScan => false
  | .cmdRx _ => false
  | .cmdTick => false
  | .cmdData => false
  | .cmdRst => false
  | .cmdUsb => false
  | .cmdUnknown _ => false
  | .wireStart => false
  | .wirePixel _ _ _ _ => false
  | .wireEnd => false
  | .repGpad _ _ _ _ => true
  | .repKbd _ _ _ _ _ _ => true

end Sys2Proof.Safety
end

