-- ==== Sys2Proof/Certificates/Slice0/Obligations.lean ====
section
/-! DEFINITION. What the model claims, one statement each, for the provers. `t = s.withX t.x` reads: every field of the state
but `x` is as before. -/

open Sys2Proof Sys2Proof.Machine Sys2Proof.Safety

/-! ### Decoding and the step -/

/-- A word at the head of the inputs that names an instruction is taken from the list and run as that instruction. Around it the
step adds two things: before a DECODE, which begins the next poll, it runs what is still due of REP's step, entry 27; and after a
clock cycle with the last byte of a payload it first does the FLIP that belongs to that byte, entry 13. -/
def Obligations.StepRunsDecodedInstruction : Prop :=
  ∀ (s : State) (w : PortWord) (rest : List Input) (i : Instr),
    s.inbox = .word w :: rest → decode w = .ok i →
    (s.repDue = ⟨false, false, false, false⟩ ∨ i ≠ .decDecode → s.cmdExtra = false → step s = exec i (s.withInbox rest)) ∧
    ∀ u, (s.cmdExtra = false → u = s.withInbox rest) →
      (s.cmdExtra = true → ∃ v, exec .lfsFlip (s.withInbox rest) = .next v ∧ u = v.withCmdExtra false) →
      (i ≠ .decDecode → step s = exec i u) ∧ (i = .decDecode → step s = exec i (repStep u))

/-- Words written out from R98, R99, R101, R105, R106, R109, R110 and R113 to R117, at least one for each port and format,
decode to the instructions they stand for. -/
def Obligations.WrittenWordsDecode : Prop :=
  decode (.dbfReq 0x10000000000000010#65) = .ok (.dbfPush 0x10#64) ∧
  decode (.dbfReq 0x0FFFFFFFFFFFFFFFF#65) = .ok .dbfIdle ∧
  decode .mergeRead = .ok .dbfMerge ∧
  decode (.decReq 0b1#1) = .ok .decDecode ∧
  decode (.lfsReq 0x1000004030201#51) = .ok (.lfsSetAll 1 2 3 4) ∧
  decode (.lfsReq 0x200070000001F#51) = .ok (.lfsWriteFront 7 0x1F) ∧
  decode (.txStep 0b1#1) = .ok .lfsScan ∧
  decode (.rxByte 0x16D#9) = .ok (.cmdRx 0x6D) ∧
  decode (.tick 0b1#1) = .ok .cmdTick ∧
  decode (.cmdFrame 0x6D756C746976657273653A5F757362#120) = .ok .cmdUsb ∧
  decode (.cmdFrame 0x6D756C746976657273653A78646174#120) = .ok (.cmdUnknown 0x78646174) ∧
  decode (.wireFrame 0x0000000000000000#64) = .ok .wireStart ∧
  decode (.wireFrame 0xFFFFFFFFFFFFFFFF#64) = .ok .wireEnd ∧
  decode (.wirePix 0xE50180FF#32) = .ok (.wirePixel 5 0x01 0x80 0xFF) ∧
  decode (.gpad 0x7F7FFF1F#32) = .ok (.repGpad 0x7F 0x7F 0xFFF true) ∧
  decode (.kbd 0x0000040006000000#64) = .ok (.repKbd 4 0 6 0 0 0)

/-- Decoding the encoding of a well-formed instruction gives it back, with every operand (R113 to R119). -/
def Obligations.DecodeOfEncode : Prop := ∀ i : Instr, i.wf = true → decode (encode i) = .ok i

/-- What the decoder answers is well formed, and encodes to a word that selects the same row with the same operands. -/
def Obligations.DecodedIsWellFormed : Prop :=
  ∀ (w : PortWord) (i : Instr), decode w = .ok i → i.wf = true ∧ decode (encode i) = .ok i

/-- A word whose strobe is 0 changes nothing but the list; nor does an empty list of inputs when no step of REP is due, no FLIP of
CMD outstanding and no request of INIT held: the model's choices, entries 2, 3, 13, 14 and 27. -/
def Obligations.NothingRequestedChangesNothing : Prop :=
  ∀ (s : State) (rest : List Input),
    (s.inbox = [] → s.repDue = ⟨false, false, false, false⟩ → s.cmdExtra = false → s.initQ = [] → step s = .next s) ∧
    (∀ w : BitVec 9, w.getLsbD 8 = false → s.inbox = .word (.rxByte w) :: rest → step s = .next (s.withInbox rest)) ∧
    (s.inbox = .word (.tick 0) :: rest → step s = .next (s.withInbox rest)) ∧
    (s.inbox = .word (.txStep 0) :: rest → step s = .next (s.withInbox rest))

/-! ### DBF -/

/-- R130: PUSH writes the slot of the cursor, advances the cursor modulo DEPTH, touches nothing else. -/
def Obligations.PushWritesCursorSlot : Prop :=
  ∀ (v : Snapshot) (s : State),
    decode (.dbfReq (1#1 ++ v)) = .ok (.dbfPush v) ∧
    ∃ t, exec (.dbfPush v) s = .next t ∧ t = s.withDbf t.dbf ∧
      (∀ j : Fin 3, t.dbf.ring[j] = if j = s.dbf.cursor then v else s.dbf.ring[j]) ∧
      t.dbf.cursor.val = (s.dbf.cursor.val + 1) % 3

/-- R131, R138: MERGE reads the OR of the three slots, bit by bit, and changes no block. That the value read is kept in the
outputs is the model's choice, entry 5. -/
def Obligations.MergeReadsOrOfSlots : Prop :=
  ∀ s : State, ∃ m : Snapshot,
    exec .dbfMerge s = .next (s.withOut { s.out with merged := s.out.merged ++ [m] }) ∧
    ∀ j, m.getLsbD j = (s.dbf.ring[0].getLsbD j || s.dbf.ring[1].getLsbD j || s.dbf.ring[2].getLsbD j)

/-- R132, R158, R186: the requests that change no state, with every word that selects them. -/
def Obligations.IdleRequestsChangeNothing : Prop :=
  ∀ s : State,
    (∀ w : BitVec 65, w.getLsbD 64 = false → decode (.dbfReq w) = .ok .dbfIdle) ∧ exec .dbfIdle s = .next s ∧
    decode (.decReq 0) = .ok .decHold ∧ exec .decHold s = .next s ∧
    (∀ x : BitVec 48, decode (.lfsReq (0b000#3 ++ x)) = .ok .lfsNop) ∧ exec .lfsNop s = .next s ∧
    (∀ x : BitVec 48, decode (.lfsReq (0b101#3 ++ x)) = .ok .lfsRsvd5) ∧ exec .lfsRsvd5 s = .next s ∧
    (∀ x : BitVec 48, decode (.lfsReq (0b110#3 ++ x)) = .ok .lfsRsvd6) ∧ exec .lfsRsvd6 s = .next s ∧
    (∀ x : BitVec 48, decode (.lfsReq (0b111#3 ++ x)) = .ok .lfsRsvd7) ∧ exec .lfsRsvd7 s = .next s

/-- R134: a bit set in a pushed sample is set in `merged` from that PUSH on and through the next two, whatever they carry. -/
def Obligations.PressIsSeenAtOnceAndHeld : Prop :=
  ∀ (v a b : Snapshot) (s : State), ∃ s1 s2 s3,
    exec (.dbfPush v) s = .next s1 ∧ exec (.dbfPush a) s1 = .next s2 ∧ exec (.dbfPush b) s2 = .next s3 ∧
    ∀ j, v.getLsbD j = true →
      (mergedOf s1.dbf).getLsbD j = true ∧ (mergedOf s2.dbf).getLsbD j = true ∧ (mergedOf s3.dbf).getLsbD j = true

/-- R135: after three PUSHes, from any state, a bit of `merged` is 0 exactly when all three samples have it 0. -/
def Obligations.ReleaseNeedsThreeClearSamples : Prop :=
  ∀ (a b c : Snapshot) (s : State), ∃ s1 s2 s3,
    exec (.dbfPush a) s = .next s1 ∧ exec (.dbfPush b) s1 = .next s2 ∧ exec (.dbfPush c) s2 = .next s3 ∧
    ∀ j, (mergedOf s3.dbf).getLsbD j = false ↔
      a.getLsbD j = false ∧ b.getLsbD j = false ∧ c.getLsbD j = false

/-- R136: from reset, MERGE before any PUSH gives 0, and after one or two the OR of what was pushed. -/
def Obligations.WarmUpReadsIdle : Prop :=
  ∀ (a b : Snapshot) (p : Config.Params), ∃ s1 s2,
    mergedOf (State.resetWith p).dbf = 0 ∧
    exec (.dbfPush a) (State.resetWith p) = .next s1 ∧ mergedOf s1.dbf = a ∧
    exec (.dbfPush b) s1 = .next s2 ∧ mergedOf s2.dbf = a ||| b

/-- R138: bit j of `merged` after a PUSH depends on bit j of the old slots and of the sample alone. -/
def Obligations.LanesAreIndependent : Prop :=
  ∀ (v v' : Snapshot) (s s' : State) (j : Nat),
    s.dbf.cursor = s'.dbf.cursor → (∀ k : Fin 3, s.dbf.ring[k].getLsbD j = s'.dbf.ring[k].getLsbD j) →
    v.getLsbD j = v'.getLsbD j →
    ∃ t t', exec (.dbfPush v) s = .next t ∧ exec (.dbfPush v') s' = .next t' ∧
      (mergedOf t.dbf).getLsbD j = (mergedOf t'.dbf).getLsbD j

/-! ### DEC -/

/-- R94, R151: `bit(m, c)` is the bit at the position of the row of `c`, and 0 when no row names `c`. -/
def Obligations.ControlBitReadsItsRow : Prop :=
  ∀ (p : Config.Params) (m : Snapshot) (c : Control),
    (∀ r ∈ p.layout, (r.extractLsb' 0 6).toNat = controlId c →
      controlBit p.layout m c = m.getLsbD (8 * (r.extractLsb' 9 3).toNat + (r.extractLsb' 6 3).toNat)) ∧
    ((∀ r ∈ p.layout, (r.extractLsb' 0 6).toNat ≠ controlId c) → controlBit p.layout m c = false)

/-- R152, R153: DECODE sets each mask and utility bit to the bit of its control, and touches nothing but DEC and the model's own
field `repDue` (entry 27). -/
def Obligations.DecodeSetsMasks : Prop :=
  ∀ s : State, ∃ t, exec .decDecode s = .next t ∧ t = (s.withDec t.dec).withRepDue t.repDue ∧
    (∀ n < 12, t.dec.prev.p1.getLsbD n = controlBit s.cfg.layout (mergedOf s.dbf) (.p1Btn n)) ∧
    (∀ n < 12, t.dec.prev.p2.getLsbD n = controlBit s.cfg.layout (mergedOf s.dbf) (.p2Btn n)) ∧
    (∀ n < 6, t.dec.prev.util.getLsbD n = controlBit s.cfg.layout (mergedOf s.dbf) (.util n)) ∧
    (∀ p : Config.Params, layoutSrc p.layout (.p1Btn 0) = some (0, 4) → (decodeState p.layout 0x10).p1.getLsbD 0 = true)

/-- R154, R155, R162: the four axes; of two opposite direction bits the one tested last, right and down, wins. -/
def Obligations.DecodeSetsAxes : Prop :=
  ∀ s : State, ∃ t, exec .decDecode s = .next t ∧
    (∀ on : Control → Bool, on = controlBit s.cfg.layout (mergedOf s.dbf) →
      t.dec.prev.p1x = (if on .p1Right then 0x7F else if on .p1Left then 0x81 else 0x00) ∧
      t.dec.prev.p1y = (if on .p1Down then 0x7F else if on .p1Up then 0x81 else 0x00) ∧
      t.dec.prev.p2x = (if on .p2Right then 0x7F else if on .p2Left then 0x81 else 0x00) ∧
      t.dec.prev.p2y = (if on .p2Down then 0x7F else if on .p2Up then 0x81 else 0x00))

/-- R156, R157: `changed` says whether the new state differs from the one kept before, and the new one is kept; the model's own
field `repDue` (entry 27) aside, nothing else changes. -/
def Obligations.DecodeComparesWithPrevious : Prop :=
  ∀ s : State, ∃ t, exec .decDecode s = .next t ∧ t = (s.withDec t.dec).withRepDue t.repDue ∧
    t.dec.prev = decodeState s.cfg.layout (mergedOf s.dbf) ∧
    (t.dec.changed = true ↔ t.dec.prev ≠ s.dec.prev)

/-- R161: decoding the same raw input twice in a row yields `changed` = 0 on the second call; with other samples pushed in
between it is 1 exactly when the two decoded states differ. -/
def Obligations.SecondDecodeReportsNoChange : Prop :=
  ∀ s : State, ∃ t u, exec .decDecode s = .next t ∧ exec .decDecode t = .next u ∧
    u.dec.changed = false ∧ u.dec.prev = t.dec.prev ∧
    ∀ d : Dbf, ∃ v, exec .decDecode (t.withDbf d) = .next v ∧
      (v.dec.changed = true ↔ decodeState s.cfg.layout (mergedOf d) ≠ decodeState s.cfg.layout (mergedOf s.dbf))

/-- R159: merged vectors that agree on every position named by a row of LAYOUT decode alike. -/
def Obligations.UnmappedBitsAreIgnored : Prop :=
  ∀ s s' : State, s.cfg = s'.cfg → s.dec = s'.dec →
    (∀ r ∈ s.cfg.layout, ∀ j, j = 8 * (r.extractLsb' 9 3).toNat + (r.extractLsb' 6 3).toNat →
      (mergedOf s.dbf).getLsbD j = (mergedOf s'.dbf).getLsbD j) →
    ∃ t t', exec .decDecode s = .next t ∧ exec .decDecode s' = .next t' ∧ t.dec = t'.dec

/-- R96: the fields of the port word `cs`. -/
def Obligations.PortWordPacksState : Prop :=
  ∀ d : Dec,
    (csWord d).extractLsb' 0 12 = d.prev.p1 ∧ (csWord d).extractLsb' 12 12 = d.prev.p2 ∧
    (csWord d).extractLsb' 24 6 = d.prev.util ∧ (csWord d).extractLsb' 30 8 = d.prev.p1x ∧
    (csWord d).extractLsb' 38 8 = d.prev.p1y ∧ (csWord d).extractLsb' 46 8 = d.prev.p2x ∧
    (csWord d).extractLsb' 54 8 = d.prev.p2y ∧ (csWord d).getLsbD 62 = d.changed

/-! ### LFS: requests -/

/-- R181: SET_ALL, whatever `off` carries, fills every pixel of FRONT with the four bytes given and changes nothing else. -/
def Obligations.SetAllFillsFront : Prop :=
  ∀ (r g b br : Byte) (s : State),
    (∀ off : BitVec 16, decode (.lfsReq (0b001#3 ++ (off ++ (br ++ b ++ g ++ r)))) = .ok (.lfsSetAll r g b br)) ∧
    ∃ t, exec (.lfsSetAll r g b br) s = .next t ∧ t = s.withLfs { s.lfs with front := t.lfs.front } ∧
      ∀ i < s.cfg.pixelCount,
        readFront t.lfs (4 * i) = r ∧ readFront t.lfs (4 * i + 1) = g ∧
        readFront t.lfs (4 * i + 2) = b ∧ readFront t.lfs (4 * i + 3) = br

/-- R75, R182: WRITE_FRONT, whatever `data[31:8]` carries, stores its byte at an offset inside FRONT; at one outside nothing
happens. -/
def Obligations.WriteFrontStoresOrDiscards : Prop :=
  ∀ (off : BitVec 16) (v : Byte) (s : State),
    (∀ x : BitVec 24, decode (.lfsReq (0b010#3 ++ (off ++ (x ++ v)))) = .ok (.lfsWriteFront off v)) ∧
    ∃ t, exec (.lfsWriteFront off v) s = .next t ∧ t = s.withLfs { s.lfs with front := t.lfs.front } ∧
      (off.toNat < 4 * s.cfg.pixelCount →
        ∀ a, readFront t.lfs a = if a = off.toNat then v else readFront s.lfs a) ∧
      (4 * s.cfg.pixelCount ≤ off.toNat → t = s)

/-- R183, R184, R195: FLIP writes each pixel of BACK from the same pixel of FRONT and changes nothing else; the brightness
modulo 32 can be read back. -/
def Obligations.FlipReformatsEveryPixel : Prop :=
  (∀ x : BitVec 48, decode (.lfsReq (0b011#3 ++ x)) = .ok .lfsFlip) ∧
  ∀ s : State, ∃ t, exec .lfsFlip s = .next t ∧ t = s.withLfs { s.lfs with back := t.lfs.back } ∧
    ∀ i < s.cfg.pixelCount,
      readBack t.lfs (4 * i) = 0xE0 ||| readFront s.lfs (4 * i + 3) ∧
      readBack t.lfs (4 * i + 1) = readFront s.lfs (4 * i + 2) ∧
      readBack t.lfs (4 * i + 2) = readFront s.lfs (4 * i + 1) ∧
      readBack t.lfs (4 * i + 3) = readFront s.lfs (4 * i) ∧
      (readBack t.lfs (4 * i)).toNat % 32 = (readFront s.lfs (4 * i + 3)).toNat % 32

/-- R194: FLIPs from equal contents of FRONT, whatever happened in between, leave the same BACK, down to the data; a second
FLIP straight after the first changes nothing at all. -/
def Obligations.FlipIsIdempotent : Prop :=
  ∀ s s' : State, s.cfg = s'.cfg → (∀ a < 4 * s.cfg.pixelCount, readFront s.lfs a = readFront s'.lfs a) →
    ∃ t t', exec .lfsFlip s = .next t ∧ exec .lfsFlip s' = .next t' ∧ t.lfs.back = t'.lfs.back ∧
      exec .lfsFlip t = .next t

/-- R196: the header of a flipped pixel is 0b111 and the low five brightness bits; the high three are lost. -/
def Obligations.BrightnessKeepsLowFiveBits : Prop :=
  ∀ s : State, ∃ t, exec .lfsFlip s = .next t ∧
    ∀ i < s.cfg.pixelCount,
      readBack t.lfs (4 * i) = 0b111#3 ++ (readFront s.lfs (4 * i + 3)).extractLsb' 0 5

/-- R185: ARM starts an unarmed scanner at the first start byte and leaves an armed one as it is. -/
def Obligations.ArmStartsTheScanner : Prop :=
  (∀ x : BitVec 48, decode (.lfsReq (0b100#3 ++ x)) = .ok .lfsArm) ∧
  ∀ s : State, ∃ t, exec .lfsArm s = .next t ∧
    (s.lfs.armed = false → t = s.withLfs { s.lfs with armed := true, phase := .start, idx := 0 }) ∧
    (s.lfs.armed = true → t = s)

/-! ### LFS: the scanner -/

/-- R187, R199: with `armed` = 0 no byte is emitted and nothing changes; that SCAN then still answers a next state is entry 7. -/
def Obligations.UnarmedScannerIsSilent : Prop :=
  ∀ s : State, s.lfs.armed = false → exec .lfsScan s = .next s

/-- R188, R191: SCAN in phase START emits 0x00; with idx = 0 it latches BACK into SCAN; the eighth step ends the phase. -/
def Obligations.ScanEmitsStartFrame : Prop :=
  ∀ s : State, s.lfs.armed = true → s.lfs.phase = .start → ∃ t, exec .lfsScan s = .next t ∧
    t = (s.withLfs { s.lfs with scan := t.lfs.scan, phase := t.lfs.phase, idx := t.lfs.idx }).withOut
      { s.out with tx := s.out.tx ++ [0x00] } ∧
    t.lfs.scan = (if s.lfs.idx = 0 then s.lfs.back else s.lfs.scan) ∧
    t.lfs.phase = (if s.lfs.idx = 7 then .pixels else .start) ∧
    t.lfs.idx = (if s.lfs.idx = 7 then 0 else s.lfs.idx + 1)

/-- R189: SCAN in phase PIXELS emits the byte of SCAN at idx; the L-th step ends the phase. -/
def Obligations.ScanEmitsPixelBytes : Prop :=
  ∀ s : State, s.lfs.armed = true → s.lfs.phase = .pixels → ∃ t, exec .lfsScan s = .next t ∧
    t = (s.withLfs { s.lfs with phase := t.lfs.phase, idx := t.lfs.idx }).withOut
      { s.out with tx := s.out.tx ++ [readScan s.lfs s.lfs.idx] } ∧
    t.lfs.phase = (if s.lfs.idx = 4 * s.cfg.pixelCount - 1 then .ending else .pixels) ∧
    t.lfs.idx = (if s.lfs.idx = 4 * s.cfg.pixelCount - 1 then 0 else s.lfs.idx + 1)

/-- R190: SCAN in phase END emits 0xFF; the eighth step goes back to the start of a pass. -/
def Obligations.ScanEmitsEndFrame : Prop :=
  ∀ s : State, s.lfs.armed = true → s.lfs.phase = .ending → ∃ t, exec .lfsScan s = .next t ∧
    t = (s.withLfs { s.lfs with phase := t.lfs.phase, idx := t.lfs.idx }).withOut
      { s.out with tx := s.out.tx ++ [0xFF] } ∧
    t.lfs.phase = (if s.lfs.idx = 7 then .start else .ending) ∧
    t.lfs.idx = (if s.lfs.idx = 7 then 0 else s.lfs.idx + 1)

/-- R99, R188: the start frame is eight bytes 0x00, sent from the start of a pass; it latches BACK. That WIRE.START is the run
of these SCAN steps is the model's choice, entry 9. -/
def Obligations.StartFrameIsEightZeroBytes : Prop :=
  ∀ s : State, s.lfs.armed = true → s.lfs.phase = .start → s.lfs.idx = 0 →
    exec .wireStart s = .next ((s.withLfs { s.lfs with scan := s.lfs.back, phase := .pixels, idx := 0 }).withOut
      { s.out with tx := s.out.tx ++ [0x00, 0x00, 0x00, 0x00, 0x00, 0x00, 0x00, 0x00] })

/-- R98, R100, R189: at a pixel of SCAN that holds these bytes, the pixel's four bytes are sent in wire order. That WIRE.PIXEL is
the run of these SCAN steps is the model's choice, entry 9. -/
def Obligations.PixelIsHeaderBlueGreenRed : Prop :=
  ∀ (i : Nat) (w : BitVec 5) (b g r : Byte) (s : State), s.lfs.armed = true → s.lfs.phase = .pixels →
    i < s.cfg.pixelCount → s.lfs.idx = 4 * i →
    readScan s.lfs (4 * i) = 0b111#3 ++ w → readScan s.lfs (4 * i + 1) = b →
    readScan s.lfs (4 * i + 2) = g → readScan s.lfs (4 * i + 3) = r →
    exec (.wirePixel w b g r) s = .next ((s.withLfs
      { s.lfs with
        phase := if i + 1 = s.cfg.pixelCount then .ending else .pixels
        idx := if i + 1 = s.cfg.pixelCount then 0 else 4 * i + 4 }).withOut
      { s.out with tx := s.out.tx ++ [0b111#3 ++ w, b, g, r] })

/-- R101, R190: the end frame is eight bytes 0xFF, after which the scanner stands at the start of a pass. That WIRE.END is the
run of these SCAN steps is the model's choice, entry 9. -/
def Obligations.EndFrameIsEightOnesBytes : Prop :=
  ∀ s : State, s.lfs.armed = true → s.lfs.phase = .ending → s.lfs.idx = 0 →
    exec .wireEnd s = .next ((s.withLfs { s.lfs with phase := .start, idx := 0 }).withOut
      { s.out with tx := s.out.tx ++ [0xFF, 0xFF, 0xFF, 0xFF, 0xFF, 0xFF, 0xFF, 0xFF] })

/-- A strand unit that the scanner does not offer changes nothing: the model's choice, entry 9. -/
def Obligations.UnofferedUnitsChangeNothing : Prop :=
  ∀ (w : BitVec 5) (b g r : Byte) (s : State),
    (¬ (s.lfs.armed = true ∧ s.lfs.phase = .start ∧ s.lfs.idx = 0) → exec .wireStart s = .next s) ∧
    (¬ (s.lfs.armed = true ∧ s.lfs.phase = .pixels ∧
        (∃ i < s.cfg.pixelCount, s.lfs.idx = 4 * i) ∧ readScan s.lfs s.lfs.idx = 0b111#3 ++ w ∧
        readScan s.lfs (s.lfs.idx + 1) = b ∧ readScan s.lfs (s.lfs.idx + 2) = g ∧ readScan s.lfs (s.lfs.idx + 3) = r) →
      exec (.wirePixel w b g r) s = .next s) ∧
    (¬ (s.lfs.armed = true ∧ s.lfs.phase = .ending ∧ s.lfs.idx = 0) → exec .wireEnd s = .next s)

/-- R102, R192: 16 + L SCAN steps from a pass boundary send eight 0x00, the L bytes BACK held at the first step, eight 0xFF,
and end at the next boundary. (No FLIP of CMD is outstanding at the first step: one is done before it, O1 and entry 13.) -/
def Obligations.PassTransmitsLatchedBack : Prop :=
  ∀ (s : State) (rest : List Input), s.lfs.armed = true → s.lfs.phase = .start → s.lfs.idx = 0 →
    s.cmdExtra = false → s.inbox = List.replicate (16 + 4 * s.cfg.pixelCount) (.word (.txStep 1)) ++ rest →
    ∃ t, Host.Core.run core (16 + 4 * s.cfg.pixelCount) s = .next t ∧
      t = ((s.withLfs { s.lfs with scan := s.lfs.back }).withOut { s.out with tx := t.out.tx }).withInbox rest ∧
      t.out.tx = s.out.tx ++ (List.replicate 8 0x00 ++
        ((List.range (4 * s.cfg.pixelCount)).map (fun a => readBack s.lfs a) ++ List.replicate 8 0xFF))

/-- R189, R193: except at the pass boundary, what SCAN emits and does is the same whatever FRONT and BACK hold. -/
def Obligations.FrameIsNotMixedMidPass : Prop :=
  ∀ (s : State) (f b : List Host.Cell), s.lfs.phase ≠ .start ∨ s.lfs.idx ≠ 0 →
    ∃ t, exec .lfsScan s = .next t ∧
      exec .lfsScan (s.withLfs { s.lfs with front := f, back := b }) =
        .next (t.withLfs { t.lfs with front := f, back := b })

/-! ### CMD: bytes -/

/-- R105, R222: a byte in SEEK_MAGIC, compared with the next of the eleven bytes of MAGIC. -/
def Obligations.SeekComparesWithMagic : Prop :=
  magic = #v[0x6D, 0x75, 0x6C, 0x74, 0x69, 0x76, 0x65, 0x72, 0x73, 0x65, 0x3A] ∧
  ∀ (b : Byte) (s : State), s.cmd.st = .seekMagic →
    ∃ t, exec (.cmdRx b) s = .next t ∧ t = s.withCmd t.cmd ∧
      t.cmd = { s.cmd with st := t.cmd.st, midx := t.cmd.midx, cnt := t.cmd.cnt, timer := 0 } ∧
      (b = magic.get s.cmd.midx → s.cmd.midx.val = 10 → t.cmd.st = .readCode ∧ t.cmd.midx = 0 ∧ t.cmd.cnt = 0) ∧
      (b = magic.get s.cmd.midx → s.cmd.midx.val ≠ 10 →
        t.cmd.st = .seekMagic ∧ t.cmd.midx.val = s.cmd.midx.val + 1 ∧ t.cmd.cnt = s.cmd.cnt) ∧
      (b ≠ magic.get s.cmd.midx →
        t.cmd.st = .seekMagic ∧ t.cmd.midx.val = (if b = 0x6D then 1 else 0) ∧ t.cmd.cnt = s.cmd.cnt)

/-- R223: one of the first three code bytes is kept at its place; the timer runs on. -/
def Obligations.CodeByteIsAccumulated : Prop :=
  ∀ (b : Byte) (s : State), s.cmd.st = .readCode → s.cmd.cnt < 3 →
    ∃ t, exec (.cmdRx b) s = .next t ∧
      t = s.withCmd { s.cmd with code := t.cmd.code, cnt := s.cmd.cnt + 1 } ∧
      ∀ j : Fin 4, t.cmd.code[j] = if j.val = s.cmd.cnt then b else s.cmd.code[j]

/-- R224, R225, R227 to R229: the fourth code byte dispatches. -/
def Obligations.FourthCodeByteDispatches : Prop :=
  ∀ (b : Byte) (s : State), s.cmd.st = .readCode → s.cmd.cnt = 3 →
    ∃ t, exec (.cmdRx b) s = .next t ∧ t = s.withCmd t.cmd ∧
      t.cmd.code = #v[s.cmd.code[0], s.cmd.code[1], s.cmd.code[2], b] ∧
      t.cmd = { s.cmd with
        st := t.cmd.st, midx := t.cmd.midx, code := t.cmd.code, cnt := 0, timer := 0, kind := t.cmd.kind } ∧
      (t.cmd.code = #v[0x64, 0x61, 0x74, 0x61] →
        t.cmd.st = .readData ∧ t.cmd.midx = s.cmd.midx ∧ t.cmd.kind = s.cmd.kind) ∧
      (t.cmd.code = #v[0x5F, 0x72, 0x73, 0x74] →
        t.cmd.st = .resetWait ∧ t.cmd.midx = s.cmd.midx ∧ t.cmd.kind = .rst) ∧
      (t.cmd.code = #v[0x5F, 0x75, 0x73, 0x62] →
        t.cmd.st = .resetWait ∧ t.cmd.midx = s.cmd.midx ∧ t.cmd.kind = .usb) ∧
      (t.cmd.code ≠ #v[0x64, 0x61, 0x74, 0x61] → t.cmd.code ≠ #v[0x5F, 0x72, 0x73, 0x74] →
        t.cmd.code ≠ #v[0x5F, 0x75, 0x73, 0x62] →
        t.cmd.st = .seekMagic ∧ t.cmd.midx = 0 ∧ t.cmd.kind = s.cmd.kind)

/-- R226: a payload byte goes to FRONT at offset `cnt`; the last one also flips, with that byte already in FRONT. -/
def Obligations.PayloadByteGoesToFront : Prop :=
  ∀ (b : Byte) (s : State), s.cmd.st = .readData → s.cmd.cnt < 4 * s.cfg.pixelCount →
    ∃ t, exec (.cmdRx b) s = .next t ∧
      t = (s.withLfs { s.lfs with front := t.lfs.front, back := t.lfs.back }).withCmd t.cmd ∧
      (∀ a, readFront t.lfs a = if a = s.cmd.cnt then b else readFront s.lfs a) ∧
      (s.cmd.cnt ≠ 4 * s.cfg.pixelCount - 1 →
        t.lfs.back = s.lfs.back ∧ t.cmd = { s.cmd with cnt := s.cmd.cnt + 1 }) ∧
      (s.cmd.cnt = 4 * s.cfg.pixelCount - 1 →
        t.cmd = { s.cmd with st := .seekMagic, midx := 0, cnt := 0, timer := 0 } ∧
        ∀ i < s.cfg.pixelCount,
          readBack t.lfs (4 * i) = 0xE0 ||| readFront t.lfs (4 * i + 3) ∧
          readBack t.lfs (4 * i + 1) = readFront t.lfs (4 * i + 2) ∧
          readBack t.lfs (4 * i + 2) = readFront t.lfs (4 * i + 1) ∧
          readBack t.lfs (4 * i + 3) = readFront t.lfs (4 * i))

/-- R238: in RESET_WAIT and HALTED no byte is taken, and in HALTED no TICK changes anything. That a byte offered is then gone is
the model's choice, entry 7. -/
def Obligations.NoByteTakenAfterResetCommand : Prop :=
  ∀ (b : Byte) (s : State),
    (s.cmd.st = .resetWait ∨ s.cmd.st = .halted → exec (.cmdRx b) s = .next s) ∧
    (s.cmd.st = .halted → exec .cmdTick s = .next s)

/-- R225, R227 to R229: a whole frame received in SEEK_MAGIC, whatever part of MAGIC was matched before, is dispatched. That a
frame row is the run of its 15 RX steps is the model's choice, entry 8. -/
def Obligations.FramesAreDispatched : Prop :=
  ∀ (code : BitVec 32) (s : State), s.cmd.st = .seekMagic →
    exec .cmdData s = .next (s.withCmd { s.cmd with
      st := .readData, midx := 0, code := #v[0x64, 0x61, 0x74, 0x61], cnt := 0, timer := 0 }) ∧
    exec .cmdRst s = .next (s.withCmd { s.cmd with
      st := .resetWait, midx := 0, code := #v[0x5F, 0x72, 0x73, 0x74], cnt := 0, timer := 0, kind := .rst }) ∧
    exec .cmdUsb s = .next (s.withCmd { s.cmd with
      st := .resetWait, midx := 0, code := #v[0x5F, 0x75, 0x73, 0x62], cnt := 0, timer := 0, kind := .usb }) ∧
    ((Instr.cmdUnknown code).wf = true → exec (.cmdUnknown code) s = .next (s.withCmd { s.cmd with
      st := .seekMagic, midx := 0, code := codeBytes code, cnt := 0, timer := 0 }))

/-- R226, R242: L payload bytes taken from the start of READ_DATA stand in FRONT, are flipped once into BACK, and CMD is back
in SEEK_MAGIC; SCAN and the scanner are untouched. (No FLIP of an earlier payload is outstanding at the first step: one is done
before it, O1 and entry 13.) -/
def Obligations.PayloadLoadsFrontAndFlips : Prop :=
  ∀ (s : State) (payload : List Byte) (rest : List Input),
    s.cmd.st = .readData → s.cmd.cnt = 0 → s.cmdExtra = false → payload.length = 4 * s.cfg.pixelCount →
    s.inbox = payload.map (fun b => Input.word (.rxByte (1#1 ++ b))) ++ rest →
    ∃ t, Host.Core.run core (4 * s.cfg.pixelCount) s = .next t ∧
      t = ((s.withLfs { s.lfs with front := t.lfs.front, back := t.lfs.back }).withCmd
        { s.cmd with st := .seekMagic, midx := 0, cnt := 0, timer := 0 }).withInbox rest ∧
      (∀ a (h : a < payload.length), readFront t.lfs a = payload[a]) ∧
      ∀ i < s.cfg.pixelCount,
        readBack t.lfs (4 * i) = 0xE0 ||| payload.getD (4 * i + 3) 0 ∧
        readBack t.lfs (4 * i + 1) = payload.getD (4 * i + 2) 0 ∧
        readBack t.lfs (4 * i + 2) = payload.getD (4 * i + 1) 0 ∧
        readBack t.lfs (4 * i + 3) = payload.getD (4 * i) 0

/-! ### CMD: time -/

/-- R232, R233: TICK in SEEK_MAGIC; the partial match is forgotten at the 50th TICK after a byte. -/
def Obligations.TickInSeekMagic : Prop :=
  ∀ s : State, s.cmd.st = .seekMagic →
    (s.cmd.midx = 0 → exec .cmdTick s = .next (s.withCmd { s.cmd with timer := 0 })) ∧
    (s.cmd.midx ≠ 0 → s.cmd.timer + 1 < 50 →
      exec .cmdTick s = .next (s.withCmd { s.cmd with timer := s.cmd.timer + 1 })) ∧
    (s.cmd.midx ≠ 0 → 50 ≤ s.cmd.timer + 1 →
      exec .cmdTick s = .next (s.withCmd { s.cmd with midx := 0, timer := 0 }))

/-- R232, R234, R235: TICK in READ_CODE and READ_DATA; at the limit CMD is back in SEEK_MAGIC, FRONT and BACK as they are. That
T_DATA is 1000 is entry 21. -/
def Obligations.TickInReadingStates : Prop :=
  ∀ s : State, ∀ limit : Nat,
    (s.cmd.st = .readCode ∧ limit = s.cfg.tCode) ∨ (s.cmd.st = .readData ∧ limit = 1000) →
    (s.cmd.timer + 1 < limit → exec .cmdTick s = .next (s.withCmd { s.cmd with timer := s.cmd.timer + 1 })) ∧
    (limit ≤ s.cmd.timer + 1 →
      exec .cmdTick s = .next (s.withCmd { s.cmd with st := .seekMagic, midx := 0, cnt := 0, timer := 0 }))

/-- R232, R236: TICK in RESET_WAIT; at the end of the delay CMD is HALTED and the request that was commanded is raised. -/
def Obligations.TickInResetWait : Prop :=
  ∀ s : State, s.cmd.st = .resetWait →
    (s.cmd.timer + 1 < s.cfg.tRstDelay →
      exec .cmdTick s = .next (s.withCmd { s.cmd with timer := s.cmd.timer + 1 })) ∧
    (s.cfg.tRstDelay ≤ s.cmd.timer + 1 →
      exec .cmdTick s = .next (s.withCmd { s.cmd with
        st := .halted, timer := 0
        resetReq := s.cmd.resetReq || s.cmd.kind == .rst
        bootReq := s.cmd.bootReq || s.cmd.kind == .usb }))

/-- R45 (8), R228, R309: from RESET_WAIT or HALTED only `rst` leads elsewhere, and from HALTED not even back to RESET_WAIT. -/
def Obligations.ResetCommandIsFinal : Prop :=
  ∀ s t : State, rstNext s = false → step s = .next t → ResetPending s.cmd →
    ResetPending t.cmd ∧ (s.cmd.st = .halted → t.cmd = s.cmd)

/-! ### The machine as a whole -/

/-- Reset leaves a state of the invariant. -/
def Obligations.ResetMeetsInvariant : Prop := Inv State.reset

/-- R45: every step keeps the invariant, from every state that has it. -/
def Obligations.StepKeepsInvariant : Prop := ∀ s t : State, Inv s → step s = .next t → Inv t

/-- R44: the reset values, the buffers read byte by byte for offsets 0 to L - 1. -/
def Obligations.ResetValues : Prop :=
  State.reset.dbf.ring = #v[0, 0, 0] ∧ State.reset.dbf.cursor.val = 0 ∧
  State.reset.dec.prev = ⟨0, 0, 0, 0x00, 0x00, 0x00, 0x00⟩ ∧ State.reset.dec.changed = false ∧
  (∀ a < 4 * State.reset.cfg.pixelCount, readFront State.reset.lfs a = 0x00) ∧
  (∀ i < State.reset.cfg.pixelCount,
    readBack State.reset.lfs (4 * i) = 0xE0 ∧ readBack State.reset.lfs (4 * i + 1) = 0x00 ∧
    readBack State.reset.lfs (4 * i + 2) = 0x00 ∧ readBack State.reset.lfs (4 * i + 3) = 0x00) ∧
  (∀ a < 4 * State.reset.cfg.pixelCount, readScan State.reset.lfs a = readBack State.reset.lfs a) ∧
  State.reset.lfs.armed = false ∧ State.reset.lfs.phase = .start ∧ State.reset.lfs.idx = 0 ∧
  State.reset.cmd = ⟨.seekMagic, 0, #v[0, 0, 0, 0], 0, 0, .rst, false, false⟩

/-- R306 (1), R330, R332: `rst`, alone or in a cycle with any other requests, gives every block its reset value whatever it was
doing; what was emitted stays emitted; `rx_ready` and `tx_valid` are 0 in that cycle. That REP is reset too is the model's
choice, entry 11; what `rst` leaves alone is entry 12. -/
def Obligations.RstRestoresResetState : Prop :=
  ∀ (s : State) (rest : List Input),
    (s.inbox = .rst :: rest → ∃ t, step s = .next t ∧
      t.cfg = s.cfg ∧ t.dbf = State.reset.dbf ∧ t.dec = State.reset.dec ∧ t.lfs = State.reset.lfs ∧
      t.cmd = State.reset.cmd ∧ t.rep = State.reset.rep ∧ t.inbox = rest ∧ t.out = s.out) ∧
    (∀ c : CycleIn, c.rst = true → s.inbox = .cycle c :: rest →
      rxReady c.rst s = false ∧ txValid c.rst s = false ∧
      ∃ t, step s = .next t ∧
        t.cfg = s.cfg ∧ t.dbf = State.reset.dbf ∧ t.dec = State.reset.dec ∧ t.lfs = State.reset.lfs ∧
        t.cmd = State.reset.cmd ∧ t.rep = State.reset.rep ∧ t.inbox = rest ∧ t.out = s.out)

/-- R42, R163, R348: no step writes a parameter. -/
def Obligations.StepKeepsParameters : Prop := ∀ s t : State, step s = .next t → t.cfg = s.cfg

/-- R45 (9), R29: an armed scanner stays armed until `rst`. -/
def Obligations.ArmedUntilReset : Prop :=
  ∀ s t : State, rstNext s = false → step s = .next t → s.lfs.armed = true → t.lfs.armed = true

/-- R17: an operation of one pipeline neither reads nor writes the blocks of the other. -/
def Obligations.PipelinesShareNoState : Prop :=
  ∀ (i : Instr) (s : State), ∃ t, exec i s = .next t ∧
    (inputPipeline i = true → t.lfs = s.lfs ∧ t.cmd = s.cmd ∧
      ∀ x y, exec i ((s.withLfs x).withCmd y) = .next ((t.withLfs x).withCmd y)) ∧
    (inputPipeline i = false → t.dbf = s.dbf ∧ t.dec = s.dec ∧ t.rep = s.rep ∧ t.repDue = s.repDue ∧
      ∀ x y z d, exec i ((((s.withDbf x).withDec y).withRep z).withRepDue d) =
        .next ((((t.withDbf x).withDec y).withRep z).withRepDue d))

/-! ### Clock cycles -/

/-- R306 (2), (6), R339: a DECODE in the cycle of a PUSH sees `merged` without the new sample, whatever else the cycle holds; and
LFS, CMD and TX do what they do in the same cycle without the two. That a cycle is one step that takes its operations one after
the other is the model's choice, entry 13; what is still due of REP's step runs before the DECODE, entry 27. -/
def Obligations.DecodeBeforePushInOneCycle : Prop :=
  ∀ (s : State) (c : CycleIn) (rest : List Input), c.rst = false → c.decode = true → c.push = true →
    s.inbox = .cycle c :: rest →
    ∃ t u, step s = .next t ∧ t.inbox = rest ∧
      t.dbf = pushSnapshot c.snapIn s.dbf ∧ t.dec = decodeInput s.cfg (mergedOf s.dbf) s.dec ∧
      t.rep = (repStep s).rep ∧ t.out = { (repStep s).out with tx := t.out.tx } ∧
      t.repDue = ⟨true, true, true, true⟩ ∧
      step (s.withInbox (.cycle { c with decode := false, push := false } :: rest)) = .next u ∧
      t.lfs = u.lfs ∧ t.cmd = u.cmd ∧ t.out.tx = u.out.tx ∧ t.initQ = u.initQ ∧ t.cmdExtra = u.cmdExtra

/-- R306 (5): in one cycle the byte is taken before the TICK, which is then counted in the resulting state: whatever the byte, the
state and the cycle's other requests. So a fourth code byte is dispatched even on the TICK that would time READ_CODE out. That
a cycle is one step that takes its operations one after the other is the model's choice, entry 13. -/
def Obligations.ByteBeforeTickInOneCycle : Prop :=
  ∀ (s : State) (c : CycleIn) (rest : List Input), c.rst = false → c.rxValid = true → c.tick = true →
    rxReady c.rst s = true → s.inbox = .cycle c :: rest →
    ∃ t, step s = .next t ∧ t.inbox = rest ∧ t.cmd = tickCmd s.cfg (receiveByte c.rxData s).cmd

/-- R115, R117, R306 (3), (4): what one cycle without `rst` does to LFS and to the requests of INIT. The SCAN step of the cycle, with
its pass latch, comes before the request. A payload byte goes to FRONT in its cycle; the FLIP of the last one comes in the extra
cycle after it, in which no byte is taken, and a pass latch of that cycle still takes the old BACK. In both cycles INIT's
requests are held off, oldest first, and not lost; in a free cycle the oldest one is taken. With no SCAN step in between the
two cycles leave of LFS and CMD what the one transition CMD.RX leaves (R14). The list of held requests is the model's choice,
entry 14; that a cycle is one step is entry 13. -/
def Obligations.InitWaitsBehindCmd : Prop :=
  ∀ (s : State) (c : CycleIn) (rest : List Input) (scanned : State), c.rst = false → s.inbox = .cycle c :: rest →
    scanned = (if c.txReady then scanStep s else s) →
    (s.cmdExtra = false → s.cmd.st = .readData → c.rxValid = true →
      ∃ t u, step s = .next t ∧ t.inbox = rest ∧ t.initQ = s.initQ ++ c.initReq.toList ∧
        exec (.cmdRx c.rxData) scanned = .next u ∧ t.lfs = { u.lfs with back := s.lfs.back } ∧
        t.cmd = (if c.tick then tickCmd s.cfg u.cmd else u.cmd) ∧
        t.cmdExtra = (s.cmd.cnt == 4 * s.cfg.pixelCount - 1)) ∧
    (s.cmdExtra = true →
      rxReady c.rst s = false ∧
      ∃ t u, step s = .next t ∧ t.inbox = rest ∧ t.initQ = s.initQ ++ c.initReq.toList ∧
        exec .lfsFlip scanned = .next u ∧ t.lfs = u.lfs ∧
        (c.txReady = true → s.lfs.armed = true → s.lfs.phase = .start → s.lfs.idx = 0 → t.lfs.scan = s.lfs.back) ∧
        t.cmd = (if c.tick then tickCmd s.cfg s.cmd else s.cmd) ∧ t.cmdExtra = false) ∧
    (∀ w q, s.cmdExtra = false → s.cmd.st ≠ .readData ∨ c.rxValid = false → s.initQ ++ c.initReq.toList = w :: q →
      ∃ i t u, decode (.lfsReq w) = .ok i ∧ exec i scanned = .next u ∧
        step s = .next t ∧ t.inbox = rest ∧ t.initQ = q ∧ t.lfs = u.lfs ∧ t.cmdExtra = false) ∧
    (∀ (d : CycleIn) (after : List Input), s.cmdExtra = false → s.cmd.st = .readData →
      s.cmd.cnt = 4 * s.cfg.pixelCount - 1 → c.rxValid = true → c.txReady = false → c.tick = false →
      d.rst = false → d.txReady = false → d.tick = false → rest = .cycle d :: after →
      ∃ t u v, step s = .next t ∧ step t = .next u ∧ exec (.cmdRx c.rxData) s = .next v ∧
        u.lfs = v.lfs ∧ u.cmd = v.cmd)

/-! ### REP -/

/-- R109, R270, R272 to R274: a gamepad report goes out on the channel of each player when that channel is ready, `changed` or not,
once in a poll. First REP.GPAD: a report with these fields goes out where they are the player's, and on no other channel, and
nothing else changes; that this row is such a sending is the model's choice, entry 10. Then a whole step of REP. What is due in
a poll is held in the model's own field `repDue`, entry 27. -/
def Obligations.GamepadReportsGoOut : Prop :=
  (∀ (x y : Byte) (buttons : BitVec 12) (hot : Bool) (s : State) (report : List Byte) (one two : Bool),
    report = [x, y, buttons.extractLsb' 0 8, 0b000#3 ++ BitVec.ofBool hot ++ buttons.extractLsb' 8 4] →
    (one = true ↔ s.repDue.gp1 = true ∧ s.transport.gp1Ready = true ∧
      x = s.dec.prev.p1x ∧ y = s.dec.prev.p1y ∧ buttons = s.dec.prev.p1 ∧
      hot = ((s.dec.prev.util &&& s.cfg.hotkeyMask) != 0)) →
    (two = true ↔ s.repDue.gp2 = true ∧ s.transport.gp2Ready = true ∧
      x = s.dec.prev.p2x ∧ y = s.dec.prev.p2y ∧ buttons = s.dec.prev.p2 ∧
      hot = ((s.dec.prev.util &&& s.cfg.hotkeyMask) != 0)) →
    exec (.repGpad x y buttons hot) s = .next ((s.withOut
      { s.out with
        gpad1 := if one then s.out.gpad1 ++ [report] else s.out.gpad1
        gpad2 := if two then s.out.gpad2 ++ [report] else s.out.gpad2 }).withRepDue
      { s.repDue with gp1 := s.repDue.gp1 && !one, gp2 := s.repDue.gp2 && !two })) ∧
  ∀ (s : State) (rest : List Input) (hot : Bool), s.inbox = .repStep :: rest →
    hot = ((s.dec.prev.util &&& s.cfg.hotkeyMask) != 0) →
    ∃ t, step s = .next t ∧
      t.out.gpad1 = s.out.gpad1 ++ (if s.repDue.gp1 && s.transport.gp1Ready then
        [[s.dec.prev.p1x, s.dec.prev.p1y, s.dec.prev.p1.extractLsb' 0 8,
          0b000#3 ++ BitVec.ofBool hot ++ s.dec.prev.p1.extractLsb' 8 4]] else []) ∧
      t.out.gpad2 = s.out.gpad2 ++ (if s.repDue.gp2 && s.transport.gp2Ready then
        [[s.dec.prev.p2x, s.dec.prev.p2y, s.dec.prev.p2.extractLsb' 0 8,
          0b000#3 ++ BitVec.ofBool hot ++ s.dec.prev.p2.extractLsb' 8 4]] else [])

/-- R110, R270, R275, R276: the keyboard report goes out when `changed` and a new utility field meet a ready channel, once in a poll,
and `last_util` changes only then. First REP.KBD: the report with these slots, when they are the present ones, and nothing else
ever changes; that this row is such a sending is the model's choice, entry 10. Then a whole step of REP. What is due in a poll
is held in the model's own field `repDue`, entry 27. -/
def Obligations.KeyboardReportOnUtilityChange : Prop :=
  ∀ (k0 k1 k2 k3 k4 k5 : Byte) (s : State) (present sent : Bool),
    (present = true ↔
      k0 = (if s.dec.prev.util.getLsbD 0 then s.cfg.keymap[0] else 0) ∧
      k1 = (if s.dec.prev.util.getLsbD 1 then s.cfg.keymap[1] else 0) ∧
      k2 = (if s.dec.prev.util.getLsbD 2 then s.cfg.keymap[2] else 0) ∧
      k3 = (if s.dec.prev.util.getLsbD 3 then s.cfg.keymap[3] else 0) ∧
      k4 = (if s.dec.prev.util.getLsbD 4 then s.cfg.keymap[4] else 0) ∧
      k5 = (if s.dec.prev.util.getLsbD 5 then s.cfg.keymap[5] else 0)) →
    (sent = true ↔ s.repDue.kbd = true ∧ s.transport.kbdReady = true ∧ s.dec.changed = true ∧
      s.dec.prev.util ≠ s.rep.lastUtil) →
    exec (.repKbd k0 k1 k2 k3 k4 k5) s = .next (if sent && present then
      ((s.withOut { s.out with kbd := s.out.kbd ++ [[0, 0, k0, k1, k2, k3, k4, k5]] }).withRep
        { s.rep with lastUtil := s.dec.prev.util }).withRepDue { s.repDue with kbd := false }
      else s) ∧
    ∀ rest : List Input, s.inbox = .repStep :: rest → present = true →
      ∃ t, step s = .next t ∧
        t.out.kbd = s.out.kbd ++ (if sent then [[0, 0, k0, k1, k2, k3, k4, k5]] else []) ∧
        t.rep.lastUtil = (if sent then s.dec.prev.util else s.rep.lastUtil)

/-- R270, R278: REP runs once per poll, after DECODE, and its step pulses the wake request once when the condition becomes true.
Each DECODE makes a step of REP due. What is due runs on the input `repStep`, by itself with no input offered, and at the latest
before the next DECODE is taken, so that between two DECODEs it runs exactly once. Until one of these, `rst` or a REP row, it
stays due and REP sends nothing. With nothing due a step of REP does nothing. It writes its own state and outputs alone. A wake
request is ready for a new pulse only after the condition was false. How a poll is held, in the model's own field `repDue`, and
that `rst` abandons it, is entry 27. -/
def Obligations.WakeIsOneShot : Prop :=
  (∀ u v : State, exec .decDecode u = .next v → v.repDue = ⟨true, true, true, true⟩) ∧
  (∀ s : State, s.inbox = [] → ∃ t, step s = .next t ∧ t.out = (repStep s).out ∧ t.rep = (repStep s).rep ∧
    t.repDue = ⟨false, false, false, false⟩) ∧
  (∀ (s : State) (rest : List Input) (w : PortWord), s.inbox = .word w :: rest → decode w = .ok .decDecode →
    ∃ t, step s = .next t ∧ t.out = (repStep s).out ∧ t.rep = (repStep s).rep ∧ t.repDue = ⟨true, true, true, true⟩) ∧
  (∀ (s t : State) (x : Input) (rest : List Input), s.inbox = x :: rest → step s = .next t → x ≠ .repStep → rstNext s = false →
    (∀ c, x = .cycle c → c.decode = false) →
    (∀ w, x = .word w → decode w ≠ .ok .decDecode ∧ (∀ a b m h, decode w ≠ .ok (.repGpad a b m h)) ∧
      ∀ a b c d e f, decode w ≠ .ok (.repKbd a b c d e f)) →
    t.repDue = s.repDue ∧ t.rep = s.rep ∧ t.out.gpad1 = s.out.gpad1 ∧ t.out.gpad2 = s.out.gpad2 ∧
      t.out.kbd = s.out.kbd ∧ t.out.wakes = s.out.wakes) ∧
  ∀ (s : State) (rest : List Input) (cond : Bool), s.inbox = .repStep :: rest →
    (cond = true ↔ s.transport.suspended = true ∧ s.dec.prev ≠ ⟨0, 0, 0, 0, 0, 0, 0⟩) →
    ∃ t, step s = .next t ∧ t = (repStep s).withInbox rest ∧
      t = (((s.withInbox rest).withOut t.out).withRep t.rep).withRepDue ⟨false, false, false, false⟩ ∧
      t.out.tx = s.out.tx ∧ t.out.merged = s.out.merged ∧
      (s.repDue.wake = true →
        t.out.wakes = s.out.wakes + (if cond && s.rep.wakeArmed then 1 else 0) ∧ t.rep.wakeArmed = !cond) ∧
      (s.repDue = ⟨false, false, false, false⟩ → t = s.withInbox rest)

/-! ### Configuration -/

/-- R8, R9, R94, R300: a configuration is admitted exactly when every parameter is inside its bound; the place of the check,
`Config.configure`, is entry 23. -/
def Obligations.ConfigurationRefusesIllFormed : Prop :=
  ∀ (layout : List (BitVec 12)) (n tCode tRst : Nat) (keys : Vector Byte 6) (mask : BitVec 6),
    (∃ p, Config.configure layout n tCode tRst keys mask = .ok p ∧ p.layout = layout ∧ p.pixelCount = n ∧
      p.tCode = tCode ∧ p.tRstDelay = tRst ∧ p.keymap = keys ∧ p.hotkeyMask = mask) ↔
    ((∀ r ∈ layout, (r.extractLsb' 0 6).toNat ≤ 37) ∧
      layout.Pairwise (fun r q => r.extractLsb' 0 6 ≠ q.extractLsb' 0 6) ∧
      layout.Pairwise (fun r q => r.extractLsb' 6 6 ≠ q.extractLsb' 6 6) ∧
      1 ≤ n ∧ n ≤ 16384 ∧ 1 ≤ tCode ∧ tCode < 1000 ∧ 1 ≤ tRst)
end

