-- ==== Sys2Proof/Laws/Memory.lean ====
section
/-! SUPPORT. The laws of the byte buffers: what is read after a write or a fill, and that every operation keeps the canonical
form. -/

namespace Sys2Proof.Machine

open Sys2Proof

@[simp] theorem Memory.read_nil (dflt : Nat → Byte) (a : Nat) : Memory.read dflt [] a = dflt a := rfl

theorem Memory.read_cons (dflt : Nat → Byte) (c : Host.Cell) (m : List Host.Cell) (a : Nat) :
    Memory.read dflt (c :: m) a = if a = c.1 then c.2 else Memory.read dflt m a := rfl

theorem Memory.read_erase (dflt : Nat → Byte) (m : List Host.Cell) (a b : Nat) :
    Memory.read dflt (Memory.erase m a) b = if b = a then dflt a else Memory.read dflt m b := by
  induction m with
  | nil => by_cases h : b = a <;> simp [Memory.erase, h]
  | cons c m ih =>
    simp only [Memory.erase] at ih ⊢
    by_cases hc : c.1 = a
    · rw [List.filter_cons_of_neg (by simp [hc]), ih, Memory.read_cons]
      by_cases hb : b = a
      · simp [hb]
      · rw [if_neg hb, if_neg hb, if_neg (by omega)]
    · rw [List.filter_cons_of_pos (by simpa using hc), Memory.read_cons, Memory.read_cons, ih]
      by_cases hb : b = a
      · have hbc : b ≠ c.1 := by omega
        simp [hb, show a ≠ c.1 by omega]
      · simp only [hb, if_false]

theorem Memory.read_insert (dflt : Nat → Byte) (m : List Host.Cell) (a b : Nat) (v : Byte)
    (h : ∀ c ∈ m, c.1 ≠ a) :
    Memory.read dflt (Memory.insert m a v) b = if b = a then v else Memory.read dflt m b := by
  induction m with
  | nil => rfl
  | cons c m ih =>
    obtain ⟨k, x⟩ := c
    simp only [Memory.insert]
    split
    · rfl
    · have hk : k ≠ a := h (k, x) (List.mem_cons_self ..)
      rw [Memory.read_cons, Memory.read_cons, ih (fun c hc => h c (List.mem_cons_of_mem _ hc))]
      by_cases hb : b = a
      · rw [if_neg (by simp; omega), if_pos hb, if_pos hb]
      · rw [if_neg hb, if_neg hb]

theorem Memory.mem_erase {m : List Host.Cell} {a : Nat} {c : Host.Cell} :
    c ∈ Memory.erase m a ↔ c ∈ m ∧ c.1 ≠ a := by
  simp [Memory.erase]

/-- A read after a write: the byte written, every other byte as before. -/
theorem Memory.read_write (dflt : Nat → Byte) (m : List Host.Cell) (a b : Nat) (v : Byte) :
    Memory.read dflt (Memory.write dflt m a v) b = if b = a then v else Memory.read dflt m b := by
  unfold Memory.write
  split
  · rename_i h; rw [Memory.read_erase, h]
  · rw [Memory.read_insert _ _ _ _ _ (fun c hc => (Memory.mem_erase.1 hc).2), Memory.read_erase]
    by_cases hb : b = a <;> simp [hb]

theorem Memory.mem_insert {m : List Host.Cell} {a : Nat} {v : Byte} {c : Host.Cell} :
    c ∈ Memory.insert m a v ↔ c = (a, v) ∨ c ∈ m := by
  induction m with
  | nil => simp [Memory.insert]
  | cons d m ih =>
    simp only [Memory.insert]
    split
    · simp
    · rw [List.mem_cons, ih, List.mem_cons]; tauto

theorem Memory.pairwise_insert {m : List Host.Cell} {a : Nat} {v : Byte}
    (h : m.Pairwise (fun x y => x.1 < y.1)) (hne : ∀ c ∈ m, c.1 ≠ a) :
    (Memory.insert m a v).Pairwise (fun x y => x.1 < y.1) := by
  induction m with
  | nil => simp [Memory.insert]
  | cons d m ih =>
    obtain ⟨k, x⟩ := d
    obtain ⟨hk, hm⟩ := List.pairwise_cons.1 h
    have hka : k ≠ a := hne (k, x) (List.mem_cons_self ..)
    simp only [Memory.insert]
    split
    · rename_i hlt
      refine List.pairwise_cons.2 ⟨fun c hc => ?_, h⟩
      rcases List.mem_cons.1 hc with rfl | hc
      · exact hlt
      · exact Nat.lt_trans hlt (hk c hc)
    · refine List.pairwise_cons.2 ⟨fun c hc => ?_, ih hm (fun c hc => hne c (List.mem_cons_of_mem _ hc))⟩
      rcases Memory.mem_insert.1 hc with rfl | hc
      · show k < a; omega
      · exact hk c hc

/-- A write inside the buffer keeps the canonical form. -/
theorem Memory.wf_write {dflt : Nat → Byte} {size : Nat} {m : List Host.Cell} {a : Nat} {v : Byte}
    (h : Memory.wf dflt size m) (ha : a < size) : Memory.wf dflt size (Memory.write dflt m a v) := by
  have he : Memory.wf dflt size (Memory.erase m a) :=
    ⟨h.1.sublist List.filter_sublist, fun c hc => h.2 c (Memory.mem_erase.1 hc).1⟩
  unfold Memory.write
  split
  · exact he
  · rename_i hv
    refine ⟨Memory.pairwise_insert he.1 (fun c hc => (Memory.mem_erase.1 hc).2), fun c hc => ?_⟩
    rcases Memory.mem_insert.1 hc with rfl | hc
    · exact ⟨ha, hv⟩
    · exact he.2 c hc

theorem Memory.read_fillFrom (dflt f : Nat → Byte) (a n b : Nat) :
    Memory.read dflt (Memory.fillFrom dflt f a n) b = if a ≤ b ∧ b < a + n then f b else dflt b := by
  induction n generalizing a with
  | zero =>
    have h : ¬ (a ≤ b ∧ b < a + 0) := by omega
    simp only [Memory.fillFrom, Memory.read_nil, if_neg h]
  | succ n ih =>
    simp only [Memory.fillFrom]
    by_cases hb : b = a
    · subst hb
      have h1 : b ≤ b ∧ b < b + (n + 1) := by omega
      have h2 : ¬ (b + 1 ≤ b ∧ b < b + 1 + n) := by omega
      simp only [h1, and_self, if_true]
      split
      · rename_i hf; rw [ih, if_neg h2, hf]
      · simp [Memory.read_cons]
    · have hc : (a ≤ b ∧ b < a + (n + 1)) ↔ (a + 1 ≤ b ∧ b < a + 1 + n) := by omega
      simp only [hc]
      split
      · exact ih _
      · rw [Memory.read_cons, if_neg hb]; exact ih _

/-- What a whole-buffer write leaves: its bytes inside the buffer, nothing listed outside it. -/
theorem Memory.read_fill (dflt f : Nat → Byte) (size a : Nat) :
    Memory.read dflt (Memory.fill dflt f size) a = if a < size then f a else dflt a := by
  rw [Memory.fill, Memory.read_fillFrom]; simp

theorem Memory.mem_fillFrom {dflt f : Nat → Byte} {a n : Nat} {c : Host.Cell}
    (h : c ∈ Memory.fillFrom dflt f a n) : a ≤ c.1 ∧ c.1 < a + n ∧ c.2 ≠ dflt c.1 := by
  induction n generalizing a with
  | zero => simp [Memory.fillFrom] at h
  | succ n ih =>
    simp only [Memory.fillFrom] at h
    split at h
    · have := ih h; exact ⟨by omega, by omega, this.2.2⟩
    · rename_i hf
      rcases List.mem_cons.1 h with rfl | h
      · exact ⟨Nat.le_refl _, by simp, hf⟩
      · have := ih h; exact ⟨by omega, by omega, this.2.2⟩

theorem Memory.pairwise_fillFrom (dflt f : Nat → Byte) (a n : Nat) :
    (Memory.fillFrom dflt f a n).Pairwise (fun x y => x.1 < y.1) := by
  induction n generalizing a with
  | zero => simp [Memory.fillFrom]
  | succ n ih =>
    simp only [Memory.fillFrom]
    split
    · exact ih _
    · exact List.pairwise_cons.2 ⟨fun c hc => (Memory.mem_fillFrom hc).1, ih _⟩

/-- A whole-buffer write leaves the canonical form. -/
theorem Memory.wf_fill (dflt f : Nat → Byte) (size : Nat) : Memory.wf dflt size (Memory.fill dflt f size) :=
  ⟨Memory.pairwise_fillFrom .., fun c hc => by
    have := Memory.mem_fillFrom hc; exact ⟨by omega, this.2.2⟩⟩

theorem Memory.wf_nil (dflt : Nat → Byte) (size : Nat) : Memory.wf dflt size [] := by simp [Memory.wf]

/-- The buffers of the reset state have the canonical form. -/
theorem reset_buffers_wf (size : Nat) :
    Memory.wf frontDefault size State.reset.lfs.front ∧ Memory.wf backDefault size State.reset.lfs.back ∧
      Memory.wf backDefault size State.reset.lfs.scan :=
  ⟨Memory.wf_nil .., Memory.wf_nil .., Memory.wf_nil ..⟩

theorem Memory.wf_lt {dflt : Nat → Byte} {size : Nat} {c : Host.Cell} {m : List Host.Cell}
    (h : Memory.wf dflt size (c :: m)) {d : Host.Cell} (hd : d ∈ m) : c.1 < d.1 :=
  (List.pairwise_cons.1 h.1).1 d hd

theorem Memory.wf_tail {dflt : Nat → Byte} {size : Nat} {c : Host.Cell} {m : List Host.Cell}
    (h : Memory.wf dflt size (c :: m)) : Memory.wf dflt size m :=
  ⟨(List.pairwise_cons.1 h.1).2, fun d hd => h.2 d (List.mem_cons_of_mem _ hd)⟩

theorem Memory.read_of_mem {dflt : Nat → Byte} {size : Nat} {m : List Host.Cell} (h : Memory.wf dflt size m)
    {c : Host.Cell} (hc : c ∈ m) : Memory.read dflt m c.1 = c.2 := by
  induction m with
  | nil => simp at hc
  | cons d m ih =>
    rw [Memory.read_cons]
    rcases List.mem_cons.1 hc with rfl | hc
    · simp
    · have := Memory.wf_lt h hc
      rw [if_neg (by omega)]; exact ih (Memory.wf_tail h) hc

theorem Memory.read_default {dflt : Nat → Byte} {m : List Host.Cell} {a : Nat} (h : ∀ c ∈ m, c.1 ≠ a) :
    Memory.read dflt m a = dflt a := by
  induction m with
  | nil => rfl
  | cons d m ih =>
    rw [Memory.read_cons, if_neg (fun e => h d (List.mem_cons_self ..) e.symm)]
    exact ih (fun c hc => h c (List.mem_cons_of_mem _ hc))

/-- Equal buffers are equal data: two canonical lists that read alike are the same list. -/
theorem Memory.eq_of_read {dflt : Nat → Byte} {size : Nat} {m n : List Host.Cell} (hm : Memory.wf dflt size m)
    (hn : Memory.wf dflt size n) (h : ∀ a, Memory.read dflt m a = Memory.read dflt n a) : m = n := by
  have sub : ∀ {m n : List Host.Cell}, Memory.wf dflt size m → Memory.wf dflt size n →
      (∀ a, Memory.read dflt m a = Memory.read dflt n a) → ∀ c ∈ m, c ∈ n := by
    intro m n hm hn h c hc
    have hr := Memory.read_of_mem hm hc
    by_contra hcn
    by_cases hk : ∃ d ∈ n, d.1 = c.1
    · obtain ⟨d, hd, hdc⟩ := hk
      have := Memory.read_of_mem hn hd
      rw [hdc, ← h, hr] at this
      exact hcn (by rw [show c = d from Prod.ext hdc.symm this]; exact hd)
    · have := Memory.read_default (dflt := dflt) (fun d hd e => hk ⟨d, hd, e⟩)
      rw [← h, hr] at this
      exact (hm.2 c hc).2 this
  have nodup : ∀ {m : List Host.Cell}, Memory.wf dflt size m → m.Nodup := fun hm =>
    hm.1.imp (fun {a b} (hab : a.1 < b.1) e => by rw [e] at hab; exact Nat.lt_irrefl _ hab)
  refine List.Perm.eq_of_pairwise (le := fun x y => x.1 < y.1) (fun a b _ _ hab hba => ?_) hm.1 hn.1
    ((List.perm_ext_iff_of_nodup (nodup hm) (nodup hn)).2 fun c => ⟨sub hm hn h c, sub hn hm (fun a => (h a).symm) c⟩)
  omega

end Sys2Proof.Machine
end

