-- ==== Sys2Proof/Laws/Operands.lean ====
section
/-! SUPPORT. What the fields, formats and flags of `Operands.lean` and `Flags.lean` are, bit by bit and byte by byte. -/

namespace Sys2Proof.Machine

open Sys2Proof

/-- Bit i of a field is what the field was built from, and 0 past its width. -/
theorem getLsbD_bitField (n : Nat) (f : Nat → Bool) (i : Nat) :
    (bitField n f).getLsbD i = (decide (i < n) && f i) := by
  induction n with
  | zero => simp [bitField]
  | succ n ih =>
    rw [bitField, BitVec.getLsbD_cons, ih]
    by_cases h : i = n
    · simp [h]
    · rw [if_neg h]
      congr 1
      simp; omega

theorem bitField_congr {n : Nat} {f g : Nat → Bool} (h : ∀ i < n, f i = g i) : bitField n f = bitField n g := by
  apply BitVec.eq_of_getLsbD_eq
  intro i hi
  rw [getLsbD_bitField, getLsbD_bitField, h i hi]

/-- The sequential tests of R154 and R155 as one case distinction. -/
theorem axisValue_eq (neg pos : Bool) :
    axisValue neg pos = if pos then Config.axisPos else if neg then Config.axisNeg else Config.axisZero := by
  cases neg <;> cases pos <;> rfl

/-- An axis is one of the three legal bytes (R96). -/
theorem axisValue_legal (neg pos : Bool) :
    axisValue neg pos = Config.axisNeg ∨ axisValue neg pos = Config.axisZero ∨ axisValue neg pos = Config.axisPos := by
  cases neg <;> cases pos <;> simp [axisValue]

theorem mergedOf_eq (d : Dbf) : mergedOf d = d.ring[0] ||| d.ring[1] ||| d.ring[2] := by
  obtain ⟨⟨⟨l⟩, hl⟩, c⟩ := d
  obtain ⟨a, b, c, rfl⟩ := List.length_eq_three.1 (show l.length = 3 from hl)
  simp [mergedOf]

theorem getLsbD_mergedOf (d : Dbf) (j : Nat) :
    (mergedOf d).getLsbD j = (d.ring[0].getLsbD j || d.ring[1].getLsbD j || d.ring[2].getLsbD j) := by
  simp [mergedOf_eq]

theorem layoutOk_iff (rows : List (BitVec 12)) : Config.layoutOk rows = true ↔
    (∀ r ∈ rows, (r.extractLsb' 0 6).toNat < Config.controls) ∧
    (rows.map (fun r => r.extractLsb' 0 6)).Nodup ∧ (rows.map (fun r => r.extractLsb' 6 6)).Nodup := by
  simp [Config.layoutOk, and_assoc]

@[simp] theorem frontPixel_0 (r g b br : Byte) (i : Nat) : frontPixel r g b br (4 * i) = r := by
  simp [frontPixel]
@[simp] theorem frontPixel_1 (r g b br : Byte) (i : Nat) : frontPixel r g b br (4 * i + 1) = g := by
  simp [frontPixel]
@[simp] theorem frontPixel_2 (r g b br : Byte) (i : Nat) : frontPixel r g b br (4 * i + 2) = b := by
  simp [frontPixel]
@[simp] theorem frontPixel_3 (r g b br : Byte) (i : Nat) : frontPixel r g b br (4 * i + 3) = br := by
  simp [frontPixel]

@[simp] theorem reformat_0 (f : Nat → Byte) (i : Nat) : reformat f (4 * i) = Config.pixMarker ||| f (4 * i + 3) := by
  simp [reformat]
@[simp] theorem reformat_1 (f : Nat → Byte) (i : Nat) : reformat f (4 * i + 1) = f (4 * i + 2) := by
  simp [reformat]
@[simp] theorem reformat_2 (f : Nat → Byte) (i : Nat) : reformat f (4 * i + 2) = f (4 * i + 1) := by
  simp [reformat]
@[simp] theorem reformat_3 (f : Nat → Byte) (i : Nat) : reformat f (4 * i + 3) = f (4 * i) := by
  simp [reformat]

/-- Offsets of one pixel, each as its pixel and its place in it. -/
theorem pixel_offset (a : Nat) : ∃ i, a = 4 * i ∨ a = 4 * i + 1 ∨ a = 4 * i + 2 ∨ a = 4 * i + 3 :=
  ⟨a / 4, by omega⟩

/-- Output pixel bytes depend on the bytes of the same pixel alone (R184). -/
theorem reformat_congr {n : Nat} {f g : Nat → Byte} (h : ∀ a < 4 * n, f a = g a) {a : Nat} (ha : a < 4 * n) :
    reformat f a = reformat g a := by
  obtain ⟨i, rfl | rfl | rfl | rfl⟩ := pixel_offset a
  · rw [reformat_0, reformat_0, h _ (by omega)]
  · rw [reformat_1, reformat_1, h _ (by omega)]
  · rw [reformat_2, reformat_2, h _ (by omega)]
  · rw [reformat_3, reformat_3, h _ (by omega)]

/-- R196: OR with the marker forces the high three bits and keeps the low five. -/
theorem pixMarker_or (b : Byte) : Config.pixMarker ||| b = 0b111#3 ++ b.extractLsb' 0 5 := by
  revert b; decide

theorem changedFlag_iff (new prev : CState) : changedFlag new prev = true ↔ new ≠ prev := by
  cases new; cases prev
  simp only [changedFlag, CState.mk.injEq, ne_eq, Bool.or_eq_true, bne_iff_ne]
  tauto

theorem activeFlag_iff (c : CState) : activeFlag c = true ↔ c ≠ CState.reset := by
  cases c
  simp only [activeFlag, CState.reset, CState.mk.injEq, ne_eq, Bool.or_eq_true, bne_iff_ne]
  tauto

/-- The four bytes of a gamepad report (R109). -/
theorem gpadBytes_eq (x y : Byte) (mask : BitVec Config.btnBits) (hot : Bool) :
    gpadBytes x y mask hot =
      [x, y, mask.extractLsb' 0 8, 0b000#3 ++ BitVec.ofBool hot ++ mask.extractLsb' 8 4] := by
  simp only [gpadBytes, List.cons.injEq, and_true, true_and]
  refine ⟨?_, ?_⟩
  · apply BitVec.eq_of_getLsbD_eq
    intro i hi
    simp [hi, show i < 12 by omega, show i < 16 by omega]
  · apply BitVec.eq_of_getLsbD_eq
    intro i hi
    have : i = 0 ∨ i = 1 ∨ i = 2 ∨ i = 3 ∨ i = 4 ∨ i = 5 ∨ i = 6 ∨ i = 7 := by omega
    show _ = ((0b000#3 ++ BitVec.ofBool hot ++ mask.extractLsb' 8 4 : BitVec (3 + 1 + 4))).getLsbD i
    simp only [BitVec.getLsbD_append]
    have hm : ∀ k, 12 ≤ k → mask.getLsbD k = false := fun k hk => BitVec.getLsbD_of_ge mask k hk
    rcases this with rfl | rfl | rfl | rfl | rfl | rfl | rfl | rfl <;> simp [hm]

end Sys2Proof.Machine
end

