-- ==== Sys2Proof/Laws/State.lean ====
section
/-! SUPPORT. One lemma per field of State per update (GOOD_PV_LEAN: later proofs unfold no record update). -/

namespace Sys2Proof.Machine

open Sys2Proof

section
variable (s : State) (x : Dbf)
@[simp] theorem State.withDbf_cfg : (s.withDbf x).cfg = s.cfg := rfl
@[simp] theorem State.withDbf_dbf : (s.withDbf x).dbf = x := rfl
@[simp] theorem State.withDbf_dec : (s.withDbf x).dec = s.dec := rfl
@[simp] theorem State.withDbf_lfs : (s.withDbf x).lfs = s.lfs := rfl
@[simp] theorem State.withDbf_cmd : (s.withDbf x).cmd = s.cmd := rfl
@[simp] theorem State.withDbf_rep : (s.withDbf x).rep = s.rep := rfl
@[simp] theorem State.withDbf_repDue : (s.withDbf x).repDue = s.repDue := rfl
@[simp] theorem State.withDbf_transport : (s.withDbf x).transport = s.transport := rfl
@[simp] theorem State.withDbf_inbox : (s.withDbf x).inbox = s.inbox := rfl
@[simp] theorem State.withDbf_initQ : (s.withDbf x).initQ = s.initQ := rfl
@[simp] theorem State.withDbf_cmdExtra : (s.withDbf x).cmdExtra = s.cmdExtra := rfl
@[simp] theorem State.withDbf_out : (s.withDbf x).out = s.out := rfl
@[simp] theorem State.withDbf_twice (y : Dbf) : (s.withDbf x).withDbf y = s.withDbf y := rfl
@[simp] theorem State.withDbf_self : s.withDbf s.dbf = s := rfl
end

section
variable (s : State) (x : Dec)
@[simp] theorem State.withDec_cfg : (s.withDec x).cfg = s.cfg := rfl
@[simp] theorem State.withDec_dbf : (s.withDec x).dbf = s.dbf := rfl
@[simp] theorem State.withDec_dec : (s.withDec x).dec = x := rfl
@[simp] theorem State.withDec_lfs : (s.withDec x).lfs = s.lfs := rfl
@[simp] theorem State.withDec_cmd : (s.withDec x).cmd = s.cmd := rfl
@[simp] theorem State.withDec_rep : (s.withDec x).rep = s.rep := rfl
@[simp] theorem State.withDec_repDue : (s.withDec x).repDue = s.repDue := rfl
@[simp] theorem State.withDec_transport : (s.withDec x).transport = s.transport := rfl
@[simp] theorem State.withDec_inbox : (s.withDec x).inbox = s.inbox := rfl
@[simp] theorem State.withDec_initQ : (s.withDec x).initQ = s.initQ := rfl
@[simp] theorem State.withDec_cmdExtra : (s.withDec x).cmdExtra = s.cmdExtra := rfl
@[simp] theorem State.withDec_out : (s.withDec x).out = s.out := rfl
@[simp] theorem State.withDec_twice (y : Dec) : (s.withDec x).withDec y = s.withDec y := rfl
@[simp] theorem State.withDec_self : s.withDec s.dec = s := rfl
end

section
variable (s : State) (x : Lfs)
@[simp] theorem State.withLfs_cfg : (s.withLfs x).cfg = s.cfg := rfl
@[simp] theorem State.withLfs_dbf : (s.withLfs x).dbf = s.dbf := rfl
@[simp] theorem State.withLfs_dec : (s.withLfs x).dec = s.dec := rfl
@[simp] theorem State.withLfs_lfs : (s.withLfs x).lfs = x := rfl
@[simp] theorem State.withLfs_cmd : (s.withLfs x).cmd = s.cmd := rfl
@[simp] theorem State.withLfs_rep : (s.withLfs x).rep = s.rep := rfl
@[simp] theorem State.withLfs_repDue : (s.withLfs x).repDue = s.repDue := rfl
@[simp] theorem State.withLfs_transport : (s.withLfs x).transport = s.transport := rfl
@[simp] theorem State.withLfs_inbox : (s.withLfs x).inbox = s.inbox := rfl
@[simp] theorem State.withLfs_initQ : (s.withLfs x).initQ = s.initQ := rfl
@[simp] theorem State.withLfs_cmdExtra : (s.withLfs x).cmdExtra = s.cmdExtra := rfl
@[simp] theorem State.withLfs_out : (s.withLfs x).out = s.out := rfl
@[simp] theorem State.withLfs_twice (y : Lfs) : (s.withLfs x).withLfs y = s.withLfs y := rfl
@[simp] theorem State.withLfs_self : s.withLfs s.lfs = s := rfl
end

section
variable (s : State) (x : Cmd)
@[simp] theorem State.withCmd_cfg : (s.withCmd x).cfg = s.cfg := rfl
@[simp] theorem State.withCmd_dbf : (s.withCmd x).dbf = s.dbf := rfl
@[simp] theorem State.withCmd_dec : (s.withCmd x).dec = s.dec := rfl
@[simp] theorem State.withCmd_lfs : (s.withCmd x).lfs = s.lfs := rfl
@[simp] theorem State.withCmd_cmd : (s.withCmd x).cmd = x := rfl
@[simp] theorem State.withCmd_rep : (s.withCmd x).rep = s.rep := rfl
@[simp] theorem State.withCmd_repDue : (s.withCmd x).repDue = s.repDue := rfl
@[simp] theorem State.withCmd_transport : (s.withCmd x).transport = s.transport := rfl
@[simp] theorem State.withCmd_inbox : (s.withCmd x).inbox = s.inbox := rfl
@[simp] theorem State.withCmd_initQ : (s.withCmd x).initQ = s.initQ := rfl
@[simp] theorem State.withCmd_cmdExtra : (s.withCmd x).cmdExtra = s.cmdExtra := rfl
@[simp] theorem State.withCmd_out : (s.withCmd x).out = s.out := rfl
@[simp] theorem State.withCmd_twice (y : Cmd) : (s.withCmd x).withCmd y = s.withCmd y := rfl
@[simp] theorem State.withCmd_self : s.withCmd s.cmd = s := rfl
end

section
variable (s : State) (x : Rep)
@[simp] theorem State.withRep_cfg : (s.withRep x).cfg = s.cfg := rfl
@[simp] theorem State.withRep_dbf : (s.withRep x).dbf = s.dbf := rfl
@[simp] theorem State.withRep_dec : (s.withRep x).dec = s.dec := rfl
@[simp] theorem State.withRep_lfs : (s.withRep x).lfs = s.lfs := rfl
@[simp] theorem State.withRep_cmd : (s.withRep x).cmd = s.cmd := rfl
@[simp] theorem State.withRep_rep : (s.withRep x).rep = x := rfl
@[simp] theorem State.withRep_repDue : (s.withRep x).repDue = s.repDue := rfl
@[simp] theorem State.withRep_transport : (s.withRep x).transport = s.transport := rfl
@[simp] theorem State.withRep_inbox : (s.withRep x).inbox = s.inbox := rfl
@[simp] theorem State.withRep_initQ : (s.withRep x).initQ = s.initQ := rfl
@[simp] theorem State.withRep_cmdExtra : (s.withRep x).cmdExtra = s.cmdExtra := rfl
@[simp] theorem State.withRep_out : (s.withRep x).out = s.out := rfl
@[simp] theorem State.withRep_twice (y : Rep) : (s.withRep x).withRep y = s.withRep y := rfl
@[simp] theorem State.withRep_self : s.withRep s.rep = s := rfl
end

section
variable (s : State) (x : RepDue)
@[simp] theorem State.withRepDue_cfg : (s.withRepDue x).cfg = s.cfg := rfl
@[simp] theorem State.withRepDue_dbf : (s.withRepDue x).dbf = s.dbf := rfl
@[simp] theorem State.withRepDue_dec : (s.withRepDue x).dec = s.dec := rfl
@[simp] theorem State.withRepDue_lfs : (s.withRepDue x).lfs = s.lfs := rfl
@[simp] theorem State.withRepDue_cmd : (s.withRepDue x).cmd = s.cmd := rfl
@[simp] theorem State.withRepDue_rep : (s.withRepDue x).rep = s.rep := rfl
@[simp] theorem State.withRepDue_repDue : (s.withRepDue x).repDue = x := rfl
@[simp] theorem State.withRepDue_transport : (s.withRepDue x).transport = s.transport := rfl
@[simp] theorem State.withRepDue_inbox : (s.withRepDue x).inbox = s.inbox := rfl
@[simp] theorem State.withRepDue_initQ : (s.withRepDue x).initQ = s.initQ := rfl
@[simp] theorem State.withRepDue_cmdExtra : (s.withRepDue x).cmdExtra = s.cmdExtra := rfl
@[simp] theorem State.withRepDue_out : (s.withRepDue x).out = s.out := rfl
@[simp] theorem State.withRepDue_twice (y : RepDue) : (s.withRepDue x).withRepDue y = s.withRepDue y := rfl
@[simp] theorem State.withRepDue_self : s.withRepDue s.repDue = s := rfl
end

section
variable (s : State) (x : Outputs)
@[simp] theorem State.withOut_cfg : (s.withOut x).cfg = s.cfg := rfl
@[simp] theorem State.withOut_dbf : (s.withOut x).dbf = s.dbf := rfl
@[simp] theorem State.withOut_dec : (s.withOut x).dec = s.dec := rfl
@[simp] theorem State.withOut_lfs : (s.withOut x).lfs = s.lfs := rfl
@[simp] theorem State.withOut_cmd : (s.withOut x).cmd = s.cmd := rfl
@[simp] theorem State.withOut_rep : (s.withOut x).rep = s.rep := rfl
@[simp] theorem State.withOut_repDue : (s.withOut x).repDue = s.repDue := rfl
@[simp] theorem State.withOut_transport : (s.withOut x).transport = s.transport := rfl
@[simp] theorem State.withOut_inbox : (s.withOut x).inbox = s.inbox := rfl
@[simp] theorem State.withOut_initQ : (s.withOut x).initQ = s.initQ := rfl
@[simp] theorem State.withOut_cmdExtra : (s.withOut x).cmdExtra = s.cmdExtra := rfl
@[simp] theorem State.withOut_out : (s.withOut x).out = x := rfl
@[simp] theorem State.withOut_twice (y : Outputs) : (s.withOut x).withOut y = s.withOut y := rfl
@[simp] theorem State.withOut_self : s.withOut s.out = s := rfl
end

section
variable (s : State) (x : List Input)
@[simp] theorem State.withInbox_cfg : (s.withInbox x).cfg = s.cfg := rfl
@[simp] theorem State.withInbox_dbf : (s.withInbox x).dbf = s.dbf := rfl
@[simp] theorem State.withInbox_dec : (s.withInbox x).dec = s.dec := rfl
@[simp] theorem State.withInbox_lfs : (s.withInbox x).lfs = s.lfs := rfl
@[simp] theorem State.withInbox_cmd : (s.withInbox x).cmd = s.cmd := rfl
@[simp] theorem State.withInbox_rep : (s.withInbox x).rep = s.rep := rfl
@[simp] theorem State.withInbox_repDue : (s.withInbox x).repDue = s.repDue := rfl
@[simp] theorem State.withInbox_transport : (s.withInbox x).transport = s.transport := rfl
@[simp] theorem State.withInbox_inbox : (s.withInbox x).inbox = x := rfl
@[simp] theorem State.withInbox_initQ : (s.withInbox x).initQ = s.initQ := rfl
@[simp] theorem State.withInbox_cmdExtra : (s.withInbox x).cmdExtra = s.cmdExtra := rfl
@[simp] theorem State.withInbox_out : (s.withInbox x).out = s.out := rfl
@[simp] theorem State.withInbox_twice (y : List Input) : (s.withInbox x).withInbox y = s.withInbox y := rfl
@[simp] theorem State.withInbox_self : s.withInbox s.inbox = s := rfl
end

section
variable (s : State) (x : List (BitVec 51))
@[simp] theorem State.withInitQ_cfg : (s.withInitQ x).cfg = s.cfg := rfl
@[simp] theorem State.withInitQ_dbf : (s.withInitQ x).dbf = s.dbf := rfl
@[simp] theorem State.withInitQ_dec : (s.withInitQ x).dec = s.dec := rfl
@[simp] theorem State.withInitQ_lfs : (s.withInitQ x).lfs = s.lfs := rfl
@[simp] theorem State.withInitQ_cmd : (s.withInitQ x).cmd = s.cmd := rfl
@[simp] theorem State.withInitQ_rep : (s.withInitQ x).rep = s.rep := rfl
@[simp] theorem State.withInitQ_repDue : (s.withInitQ x).repDue = s.repDue := rfl
@[simp] theorem State.withInitQ_transport : (s.withInitQ x).transport = s.transport := rfl
@[simp] theorem State.withInitQ_inbox : (s.withInitQ x).inbox = s.inbox := rfl
@[simp] theorem State.withInitQ_initQ : (s.withInitQ x).initQ = x := rfl
@[simp] theorem State.withInitQ_cmdExtra : (s.withInitQ x).cmdExtra = s.cmdExtra := rfl
@[simp] theorem State.withInitQ_out : (s.withInitQ x).out = s.out := rfl
@[simp] theorem State.withInitQ_twice (y : List (BitVec 51)) : (s.withInitQ x).withInitQ y = s.withInitQ y := rfl
@[simp] theorem State.withInitQ_self : s.withInitQ s.initQ = s := rfl
end

section
variable (s : State) (x : Bool)
@[simp] theorem State.withCmdExtra_cfg : (s.withCmdExtra x).cfg = s.cfg := rfl
@[simp] theorem State.withCmdExtra_dbf : (s.withCmdExtra x).dbf = s.dbf := rfl
@[simp] theorem State.withCmdExtra_dec : (s.withCmdExtra x).dec = s.dec := rfl
@[simp] theorem State.withCmdExtra_lfs : (s.withCmdExtra x).lfs = s.lfs := rfl
@[simp] theorem State.withCmdExtra_cmd : (s.withCmdExtra x).cmd = s.cmd := rfl
@[simp] theorem State.withCmdExtra_rep : (s.withCmdExtra x).rep = s.rep := rfl
@[simp] theorem State.withCmdExtra_repDue : (s.withCmdExtra x).repDue = s.repDue := rfl
@[simp] theorem State.withCmdExtra_transport : (s.withCmdExtra x).transport = s.transport := rfl
@[simp] theorem State.withCmdExtra_inbox : (s.withCmdExtra x).inbox = s.inbox := rfl
@[simp] theorem State.withCmdExtra_initQ : (s.withCmdExtra x).initQ = s.initQ := rfl
@[simp] theorem State.withCmdExtra_cmdExtra : (s.withCmdExtra x).cmdExtra = x := rfl
@[simp] theorem State.withCmdExtra_out : (s.withCmdExtra x).out = s.out := rfl
@[simp] theorem State.withCmdExtra_twice (y : Bool) : (s.withCmdExtra x).withCmdExtra y = s.withCmdExtra y := rfl
@[simp] theorem State.withCmdExtra_self : s.withCmdExtra s.cmdExtra = s := rfl
end

/-- Two states with equal fields are equal. -/
theorem State.eq_of_fields {s t : State} (h1 : s.cfg = t.cfg) (h2 : s.dbf = t.dbf) (h3 : s.dec = t.dec)
    (h4 : s.lfs = t.lfs) (h5 : s.cmd = t.cmd) (h6 : s.rep = t.rep) (h7 : s.transport = t.transport)
    (h8 : s.inbox = t.inbox) (h9 : s.initQ = t.initQ) (h10 : s.cmdExtra = t.cmdExtra) (h11 : s.out = t.out)
    (h12 : s.repDue = t.repDue) :
    s = t := by
  cases s; cases t; simp_all

end Sys2Proof.Machine
end

