-- ==== Sys2Proof/Laws/Ops.lean ====
section
/-! SUPPORT. One lemma per shared operation that says once what it can do, and the inversion of a step. -/

namespace Sys2Proof.Machine

open Sys2Proof

/-! ### DBF -/

theorem pushSnapshot_slot (v : Snapshot) (d : Dbf) (j : Fin 3) :
    (pushSnapshot v d).ring[j] = if j = d.cursor then v else d.ring[j] := by
  simp only [pushSnapshot, Fin.getElem_fin, Vector.getElem_set]
  by_cases h : d.cursor = j
  · simp [h]
  · rw [if_neg (fun e => h (Fin.ext e)), if_neg (fun e => h e.symm)]

@[simp] theorem pushSnapshot_cursor (v : Snapshot) (d : Dbf) :
    (pushSnapshot v d).cursor.val = (d.cursor.val + 1) % 3 := rfl

/-! ### LFS requests -/

theorem readFront_setAll (len : Nat) (r g b br : Byte) (x : Lfs) (a : Nat) :
    readFront (setAll len r g b br x) a = if a < len then frontPixel r g b br a else 0x00 :=
  Memory.read_fill ..

theorem readFront_writeFront (len off : Nat) (v : Byte) (x : Lfs) (a : Nat) (h : off < len) :
    readFront (writeFront len off v x) a = if a = off then v else readFront x a := by
  simp only [writeFront, if_pos h, readFront, Memory.read_write]

theorem writeFront_discards {len off : Nat} (v : Byte) (x : Lfs) (h : len ≤ off) : writeFront len off v x = x := by
  rw [writeFront, if_neg (by omega)]

/-- WRITE_FRONT writes FRONT alone. -/
theorem writeFront_frame (len off : Nat) (v : Byte) (x : Lfs) :
    writeFront len off v x = { x with front := (writeFront len off v x).front } := by
  unfold writeFront; split <;> rfl

theorem readBack_flip (len : Nat) (x : Lfs) (a : Nat) :
    readBack (flip len x) a = if a < len then reformat (readFront x) a else backDefault a :=
  Memory.read_fill ..

@[simp] theorem readFront_flip (len : Nat) (x : Lfs) (a : Nat) : readFront (flip len x) a = readFront x a := rfl

/-- FLIP writes BACK alone. -/
theorem flip_frame (len : Nat) (x : Lfs) : flip len x = { x with back := (flip len x).back } := rfl

/-! ### The scanner -/

theorem scanStep_unarmed {s : State} (h : s.lfs.armed = false) : scanStep s = s := by
  simp [scanStep, h]

theorem scanStep_armed {s : State} (h : s.lfs.armed = true) :
    scanStep s = (s.withLfs (scanAdvance s.cfg.fbLen s.lfs)).withOut (emit (txData s.lfs) s.out) := by
  simp [scanStep, h]

/-- SCAN writes SCAN, `phase` and `idx` alone, and SCAN only at the pass boundary (R188 to R191). -/
theorem scanAdvance_frame (len : Nat) (x : Lfs) : ∃ m p i, scanAdvance len x = { x with scan := m, phase := p, idx := i } ∧
    (m = x.scan ∨ (x.phase = .start ∧ x.idx = 0 ∧ m = x.back)) := by
  unfold scanAdvance
  split
  · rename_i hp
    by_cases h0 : x.idx = 0
    · simp only [h0, if_true]
      split
      · exact ⟨x.back, .pixels, 0, rfl, .inr ⟨hp, trivial, rfl⟩⟩
      · exact ⟨x.back, x.phase, 1, rfl, .inr ⟨hp, trivial, rfl⟩⟩
    · simp only [h0, if_false]
      split
      · exact ⟨x.scan, .pixels, 0, rfl, .inl rfl⟩
      · exact ⟨x.scan, x.phase, x.idx + 1, rfl, .inl rfl⟩
  · split
    · exact ⟨x.scan, .ending, 0, rfl, .inl rfl⟩
    · exact ⟨x.scan, x.phase, x.idx + 1, rfl, .inl rfl⟩
  · split
    · exact ⟨x.scan, .start, 0, rfl, .inl rfl⟩
    · exact ⟨x.scan, x.phase, x.idx + 1, rfl, .inl rfl⟩

theorem scanSteps_add (m n : Nat) (s : State) : scanSteps (m + n) s = scanSteps n (scanSteps m s) := by
  induction m generalizing s with
  | zero => simp [scanSteps]
  | succ m ih => rw [Nat.succ_add]; exact ih _

/-- SCAN steps touch LFS and TX alone. -/
theorem scanStep_frame (s : State) :
    scanStep s = (s.withLfs (scanStep s).lfs).withOut { s.out with tx := (scanStep s).out.tx } := by
  unfold scanStep; split <;> rfl

/-! ### CMD -/

/-- A byte in SEEK_MAGIC that completes MAGIC (R222). -/
theorem seekByte_last {b : Byte} {c : Cmd} (hb : b = magic.get c.midx) (hm : c.midx.val = 10) :
    seekByte b c = { c with st := .readCode, midx := 0, cnt := 0, timer := 0 } := by
  have hm' : c.midx.val = Config.magicLen - 1 := hm
  rw [seekByte, if_pos hb, dif_pos hm']

/-- A byte in SEEK_MAGIC that continues MAGIC (R222). -/
theorem seekByte_next {b : Byte} {c : Cmd} (hb : b = magic.get c.midx) (hm : c.midx.val < 10) :
    seekByte b c = { c with midx := ⟨c.midx.val + 1, Nat.succ_lt_succ hm⟩, timer := 0 } := by
  have hm' : ¬ c.midx.val = Config.magicLen - 1 := by show ¬ c.midx.val = 10; omega
  rw [seekByte, if_pos hb, dif_neg hm']

/-- A mismatching byte in SEEK_MAGIC starts a new attempt (R222). -/
theorem seekByte_mismatch {b : Byte} {c : Cmd} (hb : b ≠ magic.get c.midx) :
    seekByte b c = { c with midx := if b = 0x6D then 1 else 0, timer := 0 } := by
  rw [seekByte, if_neg hb]; rfl

/-- `0x6D` occurs in MAGIC at index 0 alone (R105). -/
theorem magic_first_only : ∀ k : Fin 11, magic.get k = 0x6D → k = 0 := by decide

/-- Whatever was matched before, "m" leaves one byte matched (R222). -/
theorem seekByte_m (c : Cmd) : seekByte 0x6D c = { c with midx := 1, timer := 0 } := by
  by_cases hb : (0x6D : Byte) = magic.get c.midx
  · have h0 := magic_first_only _ hb.symm
    have hv : c.midx.val = 0 := by rw [h0]; rfl
    rw [seekByte_next hb (by omega)]
    congr 1
    exact Fin.ext (by simp [hv])
  · rw [seekByte_mismatch hb]; rfl

/-- DISPATCH (R224) leaves one of four states. -/
theorem dispatch_cases (c : Cmd) :
    (c.code = codeBytes codeData ∧ dispatch c = dispatchData c) ∨
    (c.code = codeBytes codeRst ∧ dispatch c = enterResetWait .rst c) ∨
    (c.code = codeBytes codeUsb ∧ dispatch c = enterResetWait .usb c) ∨
    (c.code ≠ codeBytes codeData ∧ c.code ≠ codeBytes codeRst ∧ c.code ≠ codeBytes codeUsb ∧ dispatch c = resync c) := by
  unfold dispatch
  split
  · exact .inl ⟨‹_›, rfl⟩
  · split
    · exact .inr (.inl ⟨‹_›, rfl⟩)
    · split
      · exact .inr (.inr (.inl ⟨‹_›, rfl⟩))
      · exact .inr (.inr (.inr ⟨‹_›, ‹_›, ‹_›, rfl⟩))

/-- The four bytes of a code determine it. -/
theorem codeBytes_inj {c d : BitVec 32} (h : codeBytes c = codeBytes d) : c = d := by
  have hl := congrArg Vector.toList h
  simp only [codeBytes, Vector.toList_mk, List.cons.injEq, and_true] at hl
  obtain ⟨h3, h2, h1, h0⟩ := hl
  apply BitVec.eq_of_getLsbD_eq
  intro i hi
  have e3 := congrArg (fun x : BitVec 8 => x.getLsbD (i - 24)) h3
  have e2 := congrArg (fun x : BitVec 8 => x.getLsbD (i - 16)) h2
  have e1 := congrArg (fun x : BitVec 8 => x.getLsbD (i - 8)) h1
  have e0 := congrArg (fun x : BitVec 8 => x.getLsbD i) h0
  simp only [BitVec.getLsbD_extractLsb'] at e3 e2 e1 e0
  by_cases h24 : 24 ≤ i
  · simpa [show i - 24 < 8 by omega, show 24 + (i - 24) = i by omega] using e3
  · by_cases h16 : 16 ≤ i
    · simpa [show i - 16 < 8 by omega, show 16 + (i - 16) = i by omega] using e2
    · by_cases h8 : 8 ≤ i
      · simpa [show i - 8 < 8 by omega, show 8 + (i - 8) = i by omega] using e1
      · simpa [show i < 8 by omega] using e0

/-- RX in each state of CMD (R221). -/
theorem receiveByte_seekMagic {b : Byte} {s : State} (h : s.cmd.st = .seekMagic) :
    receiveByte b s = s.withCmd (seekByte b s.cmd) := by rw [receiveByte, h]
theorem receiveByte_readCode {b : Byte} {s : State} (h : s.cmd.st = .readCode) :
    receiveByte b s = s.withCmd (codeByte b s.cmd) := by rw [receiveByte, h]
theorem receiveByte_readData {b : Byte} {s : State} (h : s.cmd.st = .readData) :
    receiveByte b s = payloadByte b s := by rw [receiveByte, h]
theorem receiveByte_notReading {b : Byte} {s : State} (h : s.cmd.st = .resetWait ∨ s.cmd.st = .halted) :
    receiveByte b s = s := by rcases h with h | h <;> rw [receiveByte, h]

/-- What RX in READ_DATA does but for its FLIP writes CMD and FRONT alone. -/
theorem payloadWrite_frame (b : Byte) (s : State) : ∃ f c,
    payloadWrite b s = (s.withLfs { s.lfs with front := f }).withCmd c :=
  ⟨(writeFront s.cfg.fbLen s.cmd.cnt b s.lfs).front, _, by rw [payloadWrite, writeFront_frame]⟩

/-- RX writes CMD, FRONT and BACK alone. -/
theorem receiveByte_frame (b : Byte) (s : State) : ∃ f k c,
    receiveByte b s = (s.withLfs { s.lfs with front := f, back := k }).withCmd c := by
  unfold receiveByte
  split
  · exact ⟨s.lfs.front, s.lfs.back, _, rfl⟩
  · exact ⟨s.lfs.front, s.lfs.back, _, rfl⟩
  · obtain ⟨f, c, h⟩ := payloadWrite_frame b s
    simp only [payloadByte, h]
    split
    · exact ⟨f, _, c, by rw [flip_frame]; rfl⟩
    · exact ⟨f, s.lfs.back, c, rfl⟩
  · exact ⟨s.lfs.front, s.lfs.back, s.cmd, rfl⟩
  · exact ⟨s.lfs.front, s.lfs.back, s.cmd, rfl⟩

/-- RX in a clock cycle is RX, but that BACK is left as it is when the byte is the last of a payload (R117). -/
theorem receiveInCycle_eq (b : Byte) (s : State) : receiveInCycle b s =
    (receiveByte b s).withLfs { (receiveByte b s).lfs with back := s.lfs.back } := by
  obtain ⟨f, c, h⟩ := payloadWrite_frame b s
  unfold receiveInCycle receiveByte
  cases s.cmd.st
  · rfl
  · rfl
  · simp only [payloadByte, h]
    split
    · rfl
    · rfl
  · rfl
  · rfl

/-- The last payload byte in a clock cycle and the FLIP of the extra cycle make up RX (R117, R226). -/
theorem completeFlip_receiveInCycle (b : Byte) (s : State) (h : lastPayloadByte s.cfg s.cmd = true) :
    completeFlip ((receiveInCycle b s).withCmdExtra true) = (receiveByte b s).withCmdExtra false := by
  simp only [lastPayloadByte, Bool.and_eq_true, beq_iff_eq] at h
  obtain ⟨f, c, e⟩ := payloadWrite_frame b s
  rw [receiveByte_readData h.1, payloadByte]
  simp only [receiveInCycle, h.1, h.2, if_pos, completeFlip, State.withCmdExtra_cmdExtra, e]
  rfl

theorem completeFlip_of_false {s : State} (h : s.cmdExtra = false) : completeFlip s = s := by
  simp [completeFlip, h]

/-- The outstanding FLIP writes BACK alone, and is outstanding no longer. -/
theorem completeFlip_frame (s : State) : ∃ k,
    completeFlip s = (s.withLfs { s.lfs with back := k }).withCmdExtra false := by
  unfold completeFlip
  split
  · exact ⟨_, by rw [flip_frame]⟩
  · rename_i h
    exact ⟨s.lfs.back, by rw [show s.withLfs { s.lfs with back := s.lfs.back } = s from rfl, ← Bool.eq_false_iff.2 h]; rfl⟩

theorem receiveBytes_frame (bs : List Byte) (s : State) : ∃ f k c,
    receiveBytes bs s = (s.withLfs { s.lfs with front := f, back := k }).withCmd c := by
  induction bs generalizing s with
  | nil => exact ⟨s.lfs.front, s.lfs.back, s.cmd, rfl⟩
  | cons b bs ih =>
    obtain ⟨f, k, c, h⟩ := receiveByte_frame b s
    obtain ⟨f', k', c', h'⟩ := ih (receiveByte b s)
    exact ⟨f', k', c', by rw [receiveBytes, h', h]; rfl⟩

theorem receiveBytes_append (as bs : List Byte) (s : State) :
    receiveBytes (as ++ bs) s = receiveBytes bs (receiveBytes as s) := by
  induction as generalizing s with
  | nil => rfl
  | cons a as ih => exact ih _

/-- TICK never touches `code`, and raises a request only by EXPIRE (R232 to R236). -/
theorem tickCmd_cases (p : Config.Params) (c : Cmd) :
    (∃ n, tickCmd p c = { c with timer := n }) ∨
    (c.st = .seekMagic ∧ tickCmd p c = { c with midx := 0, timer := 0 }) ∨
    ((c.st = .readCode ∨ c.st = .readData) ∧ tickCmd p c = resync c) ∨
    (c.st = .resetWait ∧ tickCmd p c = expire c) := by
  unfold tickCmd
  split
  · rename_i h
    split
    · exact .inl ⟨_, rfl⟩
    · split
      · exact .inr (.inl ⟨h, rfl⟩)
      · exact .inl ⟨_, rfl⟩
  · rename_i h
    split
    · exact .inr (.inr (.inl ⟨.inl h, rfl⟩))
    · exact .inl ⟨_, rfl⟩
  · rename_i h
    split
    · exact .inr (.inr (.inl ⟨.inr h, rfl⟩))
    · exact .inl ⟨_, rfl⟩
  · rename_i h
    split
    · exact .inr (.inr (.inr ⟨h, rfl⟩))
    · exact .inl ⟨_, rfl⟩
  · exact .inl ⟨c.timer, rfl⟩

/-! ### REP -/

/-- REP.GPAD1 in one equation (R270, R272). -/
theorem sendGpad1_eq (s : State) : sendGpad1 s =
    (s.withOut { s.out with
      gpad1 := if s.repDue.gp1 && s.transport.gp1Ready then s.out.gpad1 ++ [gpad1Report s] else s.out.gpad1 }).withRepDue
      { s.repDue with gp1 := s.repDue.gp1 && !s.transport.gp1Ready } := by
  obtain ⟨cfg, dbf, dec, lfs, cmd, rep, ⟨g1, g2, k, w⟩, ⟨r1, r2, rk, su⟩, inbox, initQ, extra, out⟩ := s
  cases g1 <;> cases r1 <;> rfl

/-- REP.GPAD2 in one equation (R270, R273). -/
theorem sendGpad2_eq (s : State) : sendGpad2 s =
    (s.withOut { s.out with
      gpad2 := if s.repDue.gp2 && s.transport.gp2Ready then s.out.gpad2 ++ [gpad2Report s] else s.out.gpad2 }).withRepDue
      { s.repDue with gp2 := s.repDue.gp2 && !s.transport.gp2Ready } := by
  obtain ⟨cfg, dbf, dec, lfs, cmd, rep, ⟨g1, g2, k, w⟩, ⟨r1, r2, rk, su⟩, inbox, initQ, extra, out⟩ := s
  cases g2 <;> cases r2 <;> rfl

/-- REP.KBD in one equation (R270, R276). -/
theorem sendKbd_eq (s : State) : sendKbd s =
    ((s.withOut { s.out with
      kbd := if s.repDue.kbd && kbdSendFlag s.transport s.dec s.rep then s.out.kbd ++ [kbdReport s] else s.out.kbd }).withRep
      { s.rep with
        lastUtil := if s.repDue.kbd && kbdSendFlag s.transport s.dec s.rep then s.dec.prev.util else s.rep.lastUtil }).withRepDue
      { s.repDue with kbd := s.repDue.kbd && !kbdSendFlag s.transport s.dec s.rep } := by
  obtain ⟨cfg, dbf, dec, lfs, cmd, rep, ⟨g1, g2, k, w⟩, ⟨r1, r2, rk, su⟩, inbox, initQ, extra, out⟩ := s
  simp only [sendKbd]
  cases k <;> cases kbdSendFlag ⟨r1, r2, rk, su⟩ dec rep <;> rfl

/-- A step of REP says once what it sends and leaves (R270 to R278): every part that is due, by its own condition, and nothing
else of the state. -/
theorem repStep_eq (s : State) : repStep s =
    ((s.withOut { s.out with
      gpad1 := if s.repDue.gp1 && s.transport.gp1Ready then s.out.gpad1 ++ [gpad1Report s] else s.out.gpad1
      gpad2 := if s.repDue.gp2 && s.transport.gp2Ready then s.out.gpad2 ++ [gpad2Report s] else s.out.gpad2
      kbd := if s.repDue.kbd && kbdSendFlag s.transport s.dec s.rep then s.out.kbd ++ [kbdReport s] else s.out.kbd
      wakes := s.out.wakes +
        if s.repDue.wake && wakeFlag s.transport s.dec.prev && s.rep.wakeArmed then 1 else 0 }).withRep
      { lastUtil := if s.repDue.kbd && kbdSendFlag s.transport s.dec s.rep then s.dec.prev.util else s.rep.lastUtil
        wakeArmed := if s.repDue.wake then !wakeFlag s.transport s.dec.prev else s.rep.wakeArmed }).withRepDue
      RepDue.none := by
  unfold repStep
  rw [sendGpad1_eq, sendGpad2_eq, sendKbd_eq]
  unfold wakeStep
  cases h : s.repDue.wake
  · simp [State.withOut, State.withRep, State.withRepDue, h, gpad1Report, gpad2Report, kbdReport]
  · simp [State.withOut, State.withRep, State.withRepDue, h, gpad1Report, gpad2Report, kbdReport]

/-- With nothing due, REP does nothing. -/
theorem repStep_of_none {s : State} (h : s.repDue = RepDue.none) : repStep s = s := by
  rw [repStep_eq]
  cases s
  subst h
  rfl

/-- A step of REP writes its own fields and outputs alone. -/
theorem repStep_frame (s : State) : ∃ r o, repStep s = ((s.withOut o).withRep r).withRepDue RepDue.none ∧
    o.tx = s.out.tx ∧ o.merged = s.out.merged := ⟨_, _, repStep_eq s, rfl, rfl⟩

/-! ### The step -/

@[simp] theorem closePoll_decDecode (s : State) : closePoll .decDecode s = repStep s := rfl

/-- Only a DECODE closes a poll. -/
theorem closePoll_of_ne {i : Instr} (h : i ≠ .decDecode) (s : State) : closePoll i s = s := if_neg h

/-- What a step that answers a next state did: nothing was offered, or the head of the list was an operation of the table,
a word whose strobe is 0, or one of the inputs that are no word. -/
theorem step_cases {s t : State} (h : step s = .next t) :
    (s.inbox = [] ∧ runCycle CycleIn.idle (repStep s) = .next t) ∨
    ∃ x rest, s.inbox = x :: rest ∧
      ((∃ w i, x = .word w ∧ decode w = .ok i ∧ exec i (closePoll i (completeFlip (s.withInbox rest))) = .next t) ∨
       (∃ w, x = .word w ∧ decode w = .error .notRequested ∧ t = s.withInbox rest) ∨
       (x = .rst ∧ t = applyRst (s.withInbox rest)) ∨
       (∃ u, x = .transport u ∧ t = { s.withInbox rest with transport := u }) ∨
       (x = .repStep ∧ t = repStep (s.withInbox rest)) ∨
       (∃ c, x = .cycle c ∧ runCycle c (s.withInbox rest) = .next t)) := by
  unfold step takeNext at h
  cases hs : s.inbox with
  | nil => rw [hs] at h; exact .inl ⟨rfl, h⟩
  | cons x rest =>
    rw [hs] at h
    refine .inr ⟨x, rest, rfl, ?_⟩
    cases x with
    | word w =>
      simp only [takeInput] at h
      cases hw : decode w with
      | ok i => rw [hw] at h; exact .inl ⟨w, i, rfl, hw, h⟩
      | error e =>
        rw [hw] at h
        cases e with
        | notRequested => exact .inr (.inl ⟨w, rfl, hw, (Host.Outcome.next.inj h).symm⟩)
        | noMagic => cases h
        | noWireUnit => cases h
        | reservedReportBits => cases h
        | noPort => cases h
    | rst => exact .inr (.inr (.inl ⟨rfl, (Host.Outcome.next.inj h).symm⟩))
    | transport u => exact .inr (.inr (.inr (.inl ⟨u, rfl, (Host.Outcome.next.inj h).symm⟩)))
    | repStep => exact .inr (.inr (.inr (.inr (.inl ⟨rfl, (Host.Outcome.next.inj h).symm⟩))))
    | cycle c => exact .inr (.inr (.inr (.inr (.inr ⟨c, rfl, h⟩))))

/-- The operations of a cycle that is taken, one after the other. -/
theorem runCycleOps_append (xs ys : List CycleOp) {s t : State} (h : runCycleOps xs s = .next t) :
    runCycleOps (xs ++ ys) s = runCycleOps ys t := by
  induction xs generalizing s with
  | nil => cases h; rfl
  | cons x xs ih =>
    cases x with
    | op i =>
      simp only [runCycleOps, List.cons_append] at h ⊢
      cases he : exec i (closePoll i s) with
      | next u => rw [he] at h; exact ih h
      | fault r => cases r
      | refused r => rw [he] at h; cases h
    | rx b => exact ih h

/-- A property that every operation of a cycle keeps holds after the cycle. -/
theorem runCycleOps_keeps {P : State → Prop} (xs : List CycleOp)
    (hop : ∀ i s t, CycleOp.op i ∈ xs → P s → exec i (closePoll i s) = .next t → P t)
    (hrx : ∀ b s, CycleOp.rx b ∈ xs → P s → P (receiveInCycle b s)) {s t : State} (hs : P s)
    (h : runCycleOps xs s = .next t) : P t := by
  induction xs generalizing s with
  | nil => cases h; exact hs
  | cons x xs ih =>
    have ih' := fun {u : State} => ih (s := u) (fun i s t hi => hop i s t (List.mem_cons_of_mem _ hi))
      (fun b s hb => hrx b s (List.mem_cons_of_mem _ hb))
    cases x with
    | op i =>
      simp only [runCycleOps] at h
      cases he : exec i (closePoll i s) with
      | next u => rw [he] at h; exact ih' (hop i s u (List.mem_cons_self ..) hs he) h
      | fault r => cases r
      | refused r => rw [he] at h; cases h
    | rx b => exact ih' (hrx b s (List.mem_cons_self ..) hs) h

/-- A run of one step more goes on from what its first step leaves. -/
theorem run_succ {k : Nat} {s t : State} (h : step s = .next t) :
    Host.Core.run core (k + 1) s = Host.Core.run core k t := by
  have e := Host.Core.run.eq_2 core s k
  rw [show core.step s = .next t from h] at e
  exact e

/-- A run goes on from what its first part leaves. -/
theorem run_add {m k : Nat} {s t : State} (h : Host.Core.run core m s = .next t) :
    Host.Core.run core (m + k) s = Host.Core.run core k t := by
  induction m generalizing s with
  | zero => cases h; rw [Nat.zero_add]
  | succ m ih =>
    have e := Host.Core.run.eq_2 core s m
    cases hs : step s with
    | next u =>
      rw [run_succ hs] at h
      rw [Nat.succ_add, run_succ hs]
      exact ih h
    | fault r => cases r
    | refused r => rw [e, show core.step s = .refused r from hs] at h; cases h

end Sys2Proof.Machine
end

