-- ==== Sys2Proof/Laws/Cycle.lean ====
section
/-! SUPPORT. What one clock cycle does, said once: its parts in the order of R306, what each of them writes, and one equation for
the whole. -/

namespace Sys2Proof.Machine

open Sys2Proof

/-! ### The parts of a cycle -/

/-- The DECODE of a cycle, after what is still due of REP's step. -/
def cycleDecode (c : CycleIn) (s : State) : State :=
  if c.decode then ((repStep s).withDec (decodeInput s.cfg (mergedOf s.dbf) s.dec)).withRepDue RepDue.all else s

/-- The PUSH of a cycle. -/
def cyclePush (c : CycleIn) (s : State) : State := if c.push then s.withDbf (pushSnapshot c.snapIn s.dbf) else s

/-- The SCAN step of a cycle. -/
def cycleScan (c : CycleIn) (s : State) : State := if c.txReady then scanStep s else s

/-- CMD's RX step of a cycle. -/
def cycleRx (taken : Bool) (c : CycleIn) (s : State) : State := if taken then receiveInCycle c.rxData s else s

/-- What stands before the LFS request: DECODE, PUSH, SCAN, RX. -/
def cycleFront (taken : Bool) (c : CycleIn) (s : State) : State :=
  cycleRx taken c (cycleScan c (cyclePush c (cycleDecode c s)))

/-- A step of REP writes neither the blocks nor the fields of the cycle level, nor TX. -/
theorem repStep_keeps (s : State) : (repStep s).cfg = s.cfg ∧ (repStep s).dbf = s.dbf ∧ (repStep s).dec = s.dec ∧
    (repStep s).lfs = s.lfs ∧ (repStep s).cmd = s.cmd ∧ (repStep s).initQ = s.initQ ∧ (repStep s).cmdExtra = s.cmdExtra ∧
    (repStep s).inbox = s.inbox ∧ (repStep s).out.tx = s.out.tx ∧ (repStep s).repDue = RepDue.none := by
  rw [repStep_eq]; simp

theorem cycleDecode_frame (c : CycleIn) (s : State) : ∃ (d : Dec) (r : Rep) (o : Outputs) (e : RepDue),
    cycleDecode c s = (((s.withDec d).withOut { o with tx := s.out.tx }).withRep r).withRepDue e := by
  unfold cycleDecode
  split
  · exact ⟨decodeInput s.cfg (mergedOf s.dbf) s.dec, (repStep s).rep, (repStep s).out, RepDue.all, by rw [repStep_eq]; rfl⟩
  · exact ⟨s.dec, s.rep, s.out, s.repDue, rfl⟩

theorem cyclePush_frame (c : CycleIn) (s : State) : ∃ d, cyclePush c s = s.withDbf d := by
  unfold cyclePush
  split
  · exact ⟨_, rfl⟩
  · exact ⟨s.dbf, rfl⟩

theorem cycleScan_frame (c : CycleIn) (s : State) : ∃ l b, cycleScan c s = (s.withLfs l).withOut { s.out with tx := b } := by
  unfold cycleScan
  split
  · exact ⟨_, _, scanStep_frame s⟩
  · exact ⟨s.lfs, s.out.tx, rfl⟩

theorem receiveInCycle_frame (b : Byte) (s : State) : ∃ f c,
    receiveInCycle b s = (s.withLfs { s.lfs with front := f }).withCmd c := by
  rw [receiveInCycle_eq]
  obtain ⟨f, k, c, e⟩ := receiveByte_frame b s
  exact ⟨f, c, by rw [e]; rfl⟩

theorem cycleRx_frame (taken : Bool) (c : CycleIn) (s : State) : ∃ f k,
    cycleRx taken c s = (s.withLfs { s.lfs with front := f }).withCmd k := by
  unfold cycleRx
  split
  · exact receiveInCycle_frame ..
  · exact ⟨s.lfs.front, s.cmd, rfl⟩

/-! ### The LFS request -/

/-- A request on the LFS port writes LFS alone, and reads LFS and the parameters alone. -/
theorem exec_decodeLfsWord (w : BitVec 51) (u : State) : ∃ x,
    exec (decodeLfsWord w) u = .next (u.withLfs x) ∧
    (∀ v : State, v.lfs = u.lfs → v.cfg = u.cfg → exec (decodeLfsWord w) v = .next (v.withLfs x)) ∧
    decodeLfsWord w ≠ .decDecode := by
  have cases : ∀ i : Instr, decodeLfsWord w = i → i = .lfsNop ∨ (∃ r g b br, i = .lfsSetAll r g b br) ∨
      (∃ o v, i = .lfsWriteFront o v) ∨ i = .lfsFlip ∨ i = .lfsArm ∨ i = .lfsRsvd5 ∨ i = .lfsRsvd6 ∨ i = .lfsRsvd7 := by
    rintro i rfl
    unfold decodeLfsWord decodeLfs
    repeat' split
    all_goals simp
  have nop : ∀ i, (∀ v, exec i v = .next v) → i ≠ .decDecode → ∃ x, exec i u = .next (u.withLfs x) ∧
      (∀ v : State, v.lfs = u.lfs → v.cfg = u.cfg → exec i v = .next (v.withLfs x)) ∧ i ≠ .decDecode :=
    fun i h hne => ⟨u.lfs, h u, fun v e _ => by rw [h v, ← e]; rfl, hne⟩
  rcases cases _ rfl with h | ⟨r, g, b, br, h⟩ | ⟨o, v, h⟩ | h | h | h | h | h <;> rw [h]
  · exact nop _ (fun _ => rfl) (by simp)
  · exact ⟨_, rfl, fun v e e' => by show Host.Outcome.next (v.withLfs (setAll v.cfg.fbLen _ _ _ _ v.lfs)) = _; rw [e, e'], by simp⟩
  · exact ⟨_, rfl, fun v e e' => by show Host.Outcome.next (v.withLfs (writeFront v.cfg.fbLen _ _ v.lfs)) = _; rw [e, e'], by simp⟩
  · exact ⟨_, rfl, fun v e e' => by show Host.Outcome.next (v.withLfs (flip v.cfg.fbLen v.lfs)) = _; rw [e, e'], by simp⟩
  · exact ⟨_, rfl, fun v e e' => by show Host.Outcome.next (v.withLfs (arm v.lfs)) = _; rw [e], by simp⟩
  · exact nop _ (fun _ => rfl) (by simp)
  · exact nop _ (fun _ => rfl) (by simp)
  · exact nop _ (fun _ => rfl) (by simp)

/-! ### The whole cycle -/

/-- What stands before the LFS request runs as `cycleFront`. -/
theorem runCycleOps_front (c : CycleIn) (taken : Bool) (s : State) :
    runCycleOps ([.op (if c.decode then .decDecode else .decHold), .op (if c.push then .dbfPush c.snapIn else .dbfIdle)] ++
      (if c.txReady then [.op .lfsScan] else []) ++ (if taken then [.rx c.rxData] else [])) s =
    .next (cycleFront taken c s) := by
  have dec : ∀ u : State, exec .decDecode (repStep u) =
      .next (((repStep u).withDec (decodeInput u.cfg (mergedOf u.dbf) u.dec)).withRepDue RepDue.all) := by
    intro u
    obtain ⟨a, b, d, _⟩ := repStep_keeps u
    show Host.Outcome.next (((repStep u).withDec
      (decodeInput (repStep u).cfg (mergedOf (repStep u).dbf) (repStep u).dec)).withRepDue RepDue.all) = _
    rw [a, b, d]
  have first : ∀ u : State, runCycleOps [.op (if c.decode then .decDecode else .decHold),
      .op (if c.push then .dbfPush c.snapIn else .dbfIdle)] u = .next (cyclePush c (cycleDecode c u)) := by
    intro u
    cases hd : c.decode <;> cases hp : c.push <;>
      simp only [cycleDecode, cyclePush, hd, hp, runCycleOps, closePoll, if_true, dec] <;> rfl
  rw [List.append_assoc, runCycleOps_append _ _ (first s), cycleFront]
  cases ht : c.txReady <;> cases taken <;> simp [cycleScan, cycleRx, ht, runCycleOps, closePoll, exec, execLfsScan]

/-- One clock cycle without `rst` in one equation: what stands before the LFS request, then the request, which leaves `x` in LFS,
then the TICK. The request is INIT's oldest, CMD's FLIP, or none beside a payload byte's own. -/
theorem runCycle_eq {c : CycleIn} (s : State) (hc : c.rst = false) : ∃ x u,
    u = cycleFront (rxTaken c s) c ((s.withInitQ (if initReady c s then (initWaiting c s).drop 1 else initWaiting c s)).withCmdExtra
      (rxTaken c s && lastPayloadByte s.cfg s.cmd)) ∧
    runCycle c s = .next (if c.tick then (u.withLfs x).withCmd (tickCmd u.cfg u.cmd) else u.withLfs x) ∧
    ((∃ w ws, s.cmdExtra = false ∧ initReady c s = true ∧ initWaiting c s = w :: ws ∧
        exec (decodeLfsWord w) u = .next (u.withLfs x)) ∨
      (s.cmdExtra = true ∧ x = flip u.cfg.fbLen u.lfs) ∨
      (s.cmdExtra = false ∧ (initReady c s = false ∨ initWaiting c s = []) ∧ x = u.lfs)) := by
  obtain ⟨u, hu⟩ : ∃ u, u = cycleFront (rxTaken c s) c
      ((s.withInitQ (if initReady c s then (initWaiting c s).drop 1 else initWaiting c s)).withCmdExtra
        (rxTaken c s && lastPayloadByte s.cfg s.cmd)) := ⟨_, rfl⟩
  have run : runCycle c s = runCycleOps ((lfsRequests c s).map CycleOp.op ++ if c.tick then [.op .cmdTick] else []) u := by
    rw [runCycle, if_neg (by simp [hc]), cycleOps, List.append_assoc, runCycleOps_append _ _ (runCycleOps_front c _ _), hu]
  have tick : ∀ v : State, runCycleOps (if c.tick then [.op .cmdTick] else []) v =
      .next (if c.tick then v.withCmd (tickCmd v.cfg v.cmd) else v) := by
    intro v
    cases c.tick <;> simp [runCycleOps, closePoll, exec, execCmdTick]
  cases hx : s.cmdExtra
  · cases hi : initReady c s
    · refine ⟨u.lfs, u, by rw [hi] at hu; exact hu, ?_, .inr (.inr ⟨rfl, .inl rfl, rfl⟩)⟩
      rw [run]; simp [lfsRequests, hx, hi, tick]
    · cases hw : initWaiting c s with
      | nil =>
        refine ⟨u.lfs, u, by rw [hi, hw] at hu; exact hu, ?_, .inr (.inr ⟨rfl, .inr rfl, rfl⟩)⟩
        rw [run]; simp [lfsRequests, hx, hi, hw, tick]
      | cons w ws =>
        obtain ⟨x, he, _, hne⟩ := exec_decodeLfsWord w u
        refine ⟨x, u, by rw [hi, hw] at hu; exact hu, ?_, .inl ⟨w, ws, rfl, rfl, rfl, he⟩⟩
        rw [run, show lfsRequests c s = [decodeLfsWord w] by simp [lfsRequests, hx, hi, hw]]
        simp only [List.map_cons, List.map_nil, List.cons_append, List.nil_append, runCycleOps, closePoll_of_ne hne, he, tick]
        rfl
  · refine ⟨_, u, hu, ?_, .inr (.inl ⟨rfl, rfl⟩)⟩
    rw [run]
    simp only [lfsRequests, hx, if_true, List.map_cons, List.map_nil, List.cons_append, List.nil_append, runCycleOps,
      closePoll_of_ne (show Instr.lfsFlip ≠ .decDecode by simp)]
    show runCycleOps _ (u.withLfs (flip u.cfg.fbLen u.lfs)) = _
    rw [tick]
    rfl

end Sys2Proof.Machine
end

