-- ==== Sys2Proof/Laws/PerInstr.lean ====
section
/-! SUPPORT. The family RowSelects: the word of an instruction selects its row of spec/opcode_table.json, as R119 says it
('a word w selects the row when w AND mask = match'). -/

namespace Sys2Proof.Laws

open Sys2Proof

/-- The number that a port word carries. -/
def wordValue : PortWord → Nat
  | .dbfReq w => w.toNat
  | .mergeRead => 0
  | .decReq w => w.toNat
  | .lfsReq w => w.toNat
  | .txStep w => w.toNat
  | .rxByte w => w.toNat
  | .tick w => w.toNat
  | .cmdFrame w => w.toNat
  | .wireFrame w => w.toNat
  | .wirePix w => w.toNat
  | .gpad w => w.toNat
  | .kbd w => w.toNat
  | .other _ w => w

/-- The columns `mask` and `match` of the operation table, row by row. -/
def rowMaskMatch : Instr → Nat × Nat
  | .dbfPush _ => (0x10000000000000000, 0x10000000000000000)
  | .dbfIdle => (0x10000000000000000, 0)
  | .dbfMerge => (0, 0)
  | .decDecode => (1, 1)
  | .decHold => (1, 0)
  | .lfsNop => (0x7000000000000, 0x0000000000000)
  | .lfsSetAll _ _ _ _ => (0x7000000000000, 0x1000000000000)
  | .lfsWriteFront _ _ => (0x7000000000000, 0x2000000000000)
  | .lfsFlip => (0x7000000000000, 0x3000000000000)
  | .lfsArm => (0x7000000000000, 0x4000000000000)
  | .lfsRsvd5 => (0x7000000000000, 0x5000000000000)
  | .lfsRsvd6 => (0x7000000000000, 0x6000000000000)
  | .lfsRsvd7 => (0x7000000000000, 0x7000000000000)
  | .lfsScan => (1, 1)
  | .cmdRx _ => (0x100, 0x100)
  | .cmdTick => (1, 1)
  | .cmdData => (0xFFFFFFFFFFFFFFFFFFFFFFFFFFFFFF, 0x6D756C746976657273653A64617461)
  | .cmdRst => (0xFFFFFFFFFFFFFFFFFFFFFFFFFFFFFF, 0x6D756C746976657273653A5F727374)
  | .cmdUsb => (0xFFFFFFFFFFFFFFFFFFFFFFFFFFFFFF, 0x6D756C746976657273653A5F757362)
  | .cmdUnknown _ => (0xFFFFFFFFFFFFFFFFFFFFFF00000000, 0x6D756C746976657273653A00000000)
  | .wireStart => (0xFFFFFFFFFFFFFFFF, 0)
  | .wirePixel _ _ _ _ => (0xE0000000, 0xE0000000)
  | .wireEnd => (0xFFFFFFFFFFFFFFFF, 0xFFFFFFFFFFFFFFFF)
  | .repGpad _ _ _ _ => (0xE0, 0)
  | .repKbd _ _ _ _ _ _ => (0xFFFF000000000000, 0)

/-- A word that is a constant over its low bits, masked to the constant. -/
theorem high_and {n k : Nat} (c m : BitVec n) (x : BitVec k) :
    ((c ++ x) &&& (m ++ 0#k)).toNat = ((c &&& m) ++ 0#k).toNat := by
  rw [BitVec.and_append]; simp

namespace RowSelects

/-- The word of the instruction, AND the row's mask, is the row's match. -/
def Statement (i : Instr) : Prop := wordValue (encode i) &&& (rowMaskMatch i).1 = (rowMaskMatch i).2

theorem dbfPush (snap : Snapshot) : Statement (.dbfPush snap) := high_and 1#1 1#1 snap
theorem dbfIdle : Statement .dbfIdle := rfl
theorem dbfMerge : Statement .dbfMerge := rfl
theorem decDecode : Statement .decDecode := rfl
theorem decHold : Statement .decHold := rfl
theorem lfsNop : Statement .lfsNop := rfl
theorem lfsSetAll (r g b br : Byte) : Statement (.lfsSetAll r g b br) := high_and 0b001#3 0b111#3 (0#16 ++ (br ++ b ++ g ++ r))
theorem lfsWriteFront (off : BitVec Config.offw) (v : Byte) : Statement (.lfsWriteFront off v) :=
  high_and 0b010#3 0b111#3 (off ++ (0#24 ++ v))
theorem lfsFlip : Statement .lfsFlip := rfl
theorem lfsArm : Statement .lfsArm := rfl
theorem lfsRsvd5 : Statement .lfsRsvd5 := rfl
theorem lfsRsvd6 : Statement .lfsRsvd6 := rfl
theorem lfsRsvd7 : Statement .lfsRsvd7 := rfl
theorem lfsScan : Statement .lfsScan := rfl
theorem cmdRx (b : Byte) : Statement (.cmdRx b) := high_and 1#1 1#1 b
theorem cmdTick : Statement .cmdTick := rfl
theorem cmdData : Statement .cmdData := rfl
theorem cmdRst : Statement .cmdRst := rfl
theorem cmdUsb : Statement .cmdUsb := rfl
theorem cmdUnknown (code : BitVec 32) : Statement (.cmdUnknown code) := high_and magicWord (BitVec.allOnes 88) code
theorem wireStart : Statement .wireStart := rfl
theorem wirePixel (brightness : BitVec Config.brightBits) (b g r : Byte) : Statement (.wirePixel brightness b g r) :=
  high_and 0b111#3 0b111#3 (brightness ++ (b ++ g ++ r))
theorem wireEnd : Statement .wireEnd := rfl
theorem repGpad (x y : Byte) (buttons : BitVec Config.btnBits) (hotkey : Bool) : Statement (.repGpad x y buttons hotkey) := by
  show ((x ++ (y ++ (buttons.extractLsb' 0 8 ++ (0b000#3 ++ (BitVec.ofBool hotkey ++ buttons.extractLsb' 8 4))))) &&&
    (0#8 ++ (0#8 ++ (0#8 ++ (0b111#3 ++ (0#1 ++ 0#4)))))).toNat = 0
  simp only [BitVec.and_append, BitVec.and_zero, BitVec.zero_and]
  rfl
theorem repKbd (k0 k1 k2 k3 k4 k5 : Byte) : Statement (.repKbd k0 k1 k2 k3 k4 k5) :=
  high_and 0#16 (BitVec.allOnes 16) (k0 ++ k1 ++ k2 ++ k3 ++ k4 ++ k5)

end RowSelects

end Sys2Proof.Laws
end

