-- ==== Sys2Proof/Laws/Words.lean ====
section
/-! SUPPORT. Fields of a concatenated word. Each is stated at the widths of the operands, so that a word whose width is
written as a number is reached by `exact` or by `Eq.trans`, not by rewriting. -/

namespace Sys2Proof.Laws

/-- The high part of a concatenation. -/
theorem extract_high {n m : Nat} (x : BitVec n) (y : BitVec m) : (x ++ y).extractLsb' m n = x :=
  BitVec.extractLsb'_append_eq_left

/-- The low part of a concatenation. -/
theorem extract_low {n m : Nat} (x : BitVec n) (y : BitVec m) : (x ++ y).extractLsb' 0 m = y :=
  BitVec.extractLsb'_append_eq_right

/-- A field inside the low part of a concatenation. -/
theorem extract_in_low {n m : Nat} (x : BitVec n) (y : BitVec m) {start len : Nat} (h : start + len ≤ m) :
    (x ++ y).extractLsb' start len = y.extractLsb' start len := by
  ext i hi
  have : start + i < m := by omega
  simp [BitVec.getLsbD_append, this]

/-- A field inside the high part of a concatenation. -/
theorem extract_in_high {n m : Nat} (x : BitVec n) (y : BitVec m) {start len : Nat} (h : m ≤ start) :
    (x ++ y).extractLsb' start len = x.extractLsb' (start - m) len := by
  ext i hi
  have h1 : ¬ start + i < m := by omega
  have h2 : start - m + i = start + i - m := by omega
  simp [BitVec.getLsbD_append, h1, h2]

/-- The top bit of a word that begins with 1. -/
theorem top_bit {m : Nat} (y : BitVec m) : (1#1 ++ y).getLsbD m = true := by
  simp [BitVec.getLsbD_append]

/-- The decoder on F-DBFREQ with the widths of R6 written as numbers (R113). -/
theorem decode_dbfReq (w : BitVec 65) :
    decode (.dbfReq w) = if w.getLsbD 64 then .ok (.dbfPush (w.extractLsb' 0 64)) else .ok .dbfIdle := rfl

end Sys2Proof.Laws
end

