-- ==== Sys2Proof/Machine/Trace.lean ====
section
/-! DEFINITION. The trace notation (spec/30_encoding.md R120, R121) and the INIT sequence (R336) as lists of inputs. -/

namespace Sys2Proof.Machine

open Sys2Proof

/-- One line that is one operation of the table (R120). -/
def traceLine (i : Instr) : Input := .word (encode i)

/-- `RESET`. -/
def traceReset : List Input := [.rst]
/-- `SCAN n`. -/
def traceScan (n : Nat) : List Input := List.replicate n (traceLine .lfsScan)
/-- `TICK n`. -/
def traceTick (n : Nat) : List Input := List.replicate n (traceLine .cmdTick)
/-- `RXBYTES`, and `RX "text"` of a text's bytes (R121). -/
def traceRxBytes (bs : List Byte) : List Input := bs.map (fun b => traceLine (.cmdRx b))
/-- `POLL v` (R160). -/
def tracePoll (v : Snapshot) : List Input := [traceLine (.dbfPush v), traceLine .decDecode]
/-- One poll with its emitter: POLL, then the one step of REP (R160, R270). After a bare POLL the step runs by itself, at the latest
before the next DECODE (entry 27). -/
def tracePollReport (v : Snapshot) : List Input := tracePoll v ++ [.repStep]
/-- `FRAME_DATA` (R121). -/
def traceFrameData (payload : List Byte) : List Input := traceRxBytes (frameBytes codeData ++ payload)
/-- `FRAME_RST` (R121). -/
def traceFrameRst : List Input := traceRxBytes (frameBytes codeRst)
/-- `FRAME_USB` (R121). -/
def traceFrameUsb : List Input := traceRxBytes (frameBytes codeUsb)
/-- The lines `WRFRONT off, b0`, `WRFRONT off + 1, b1`, … of a burst. DESIGN CHOICE (entry 26): for an offset past 0xFFFF there is
no request word (R115) and R121 does not say what the burst does, so such a byte makes no line and is stored nowhere, as R182
discards every byte at or past L. -/
def wrFrontLines (off : Nat) : List Byte → List Input
  | [] => []
  | b :: bs =>
    if off < 2 ^ Config.offw then traceLine (.lfsWriteFront (BitVec.ofNat Config.offw off) b) :: wrFrontLines (off + 1) bs
    else []
/-- `WRBURST off, bytes` (R121). -/
def traceWrBurst (off : BitVec Config.offw) (bs : List Byte) : List Input := wrFrontLines off.toNat bs
/-- `PASS` = `SCAN 16+L` (R121). -/
def tracePass (len : Nat) : List Input := traceScan (Config.startLen + len + Config.endLen)
/-- The INIT sequence (R336), its SETALL with free values (N6). -/
def traceInit (r g b br : Byte) : List Input :=
  [traceLine (.lfsSetAll r g b br), traceLine .lfsFlip, traceLine .lfsArm]

end Sys2Proof.Machine
end

