-- ==== Sys2Proof/Tests/Slice0.lean ====
section
/-! SUPPORT. The model's own tests. The expected values are those of spec/95_test_vectors.md (named V-… and E… as there) or
worked out by hand from the rule named; the words are written out from the formats of spec/30_encoding.md. Then, for each
obligation with hypotheses, a witness: a concrete state and operands that meet them. -/

namespace Sys2Proof.Tests

open Sys2Proof Sys2Proof.Machine Sys2Proof.Safety

/-! ### The test machine -/

/-- LAYOUT_T (R95) is well formed; of its 38 rows, the first, the document's example row, and the last, packed (R94). -/
theorem test_layoutT_ok : Config.layoutOk layoutT = true := by decide
theorem test_layoutT_rows : layoutT.length = 38 ∧ layoutT[0]? = some 0b000000011110#12 ∧
    layoutT[4]? = some 0b000100000000#12 ∧ layoutT[37]? = some 0b100101011101#12 := by decide

/-- The 38 controls of LAYOUT_T in the order of their positions, as R95 numbers them. -/
theorem test_layoutT_controls : layoutT.map (fun r => (r.extractLsb' 0 6).toNat) =
    [30, 31, 32, 33, 0, 1, 2, 3, 4, 5, 6, 7, 8, 9, 10, 11, 34, 35, 36, 37, 12, 13, 14, 15, 16, 17, 18, 19, 20, 21, 22, 23,
      24, 25, 26, 27, 28, 29] := by decide

/-- The parameters of the vectors of spec/95_test_vectors.md, with `n` pixels; KEYMAP and HOTKEY_MASK chosen here. -/
def cfg (n : Nat) (h : 1 ≤ n ∧ n ≤ Config.maxPixels) : Config.Params :=
  { layout := layoutT, layout_ok := test_layoutT_ok, pixelCount := n, pixelCount_ok := h, tCode := 100,
    tCode_ok := by decide, tRstDelay := 20, tRstDelay_ok := by decide, keymap := #v[4, 5, 6, 7, 8, 9],
    hotkeyMask := 0b100000 }

/-- Reset with one pixel. -/
def s1 : State := State.resetWith (cfg 1 (by decide))
/-- Reset with two pixels. -/
def s2 : State := State.resetWith (cfg 2 (by decide))

/-- A field of the state after an instruction, if there is a next state. -/
def after {α : Type} (i : Instr) (s : State) (f : State → α) : Option α :=
  match exec i s with
  | .next t => some (f t)
  | .fault _ => none
  | .refused _ => none

/-- A field of the state after `n` steps on these inputs, if there is one. -/
def ran {α : Type} (n : Nat) (xs : List Input) (s : State) (f : State → α) : Option α :=
  match Host.Core.run core n (s.withInbox xs) with
  | .next t => some (f t)
  | .fault _ => none
  | .refused _ => none

/-- The first `n` bytes of a buffer. -/
def bytes (read : Lfs → Nat → Byte) (n : Nat) (s : State) : List Byte := (List.range n).map (read s.lfs)

/-- The state with CMD's position set: what the tables of V-CMD write as (st, midx, cnt, timer). -/
def atCmd (st : CmdState) (midx : Fin 11) (cnt timer : Nat) (s : State) : State :=
  s.withCmd { s.cmd with st := st, midx := midx, cnt := cnt, timer := timer }

/-- The state with an armed scanner at this place. -/
def atScan (phase : Phase) (idx : Nat) (s : State) : State :=
  s.withLfs { s.lfs with armed := true, phase := phase, idx := idx }

/-- A decoder state with something in every field; P1's report of V-REP-1. -/
def someInput : Dec := ⟨⟨0x001, 0xFFF, 0b000101, 0x81, 0x00, 0x7F, 0x7F⟩, true⟩

/-- That input, all channels ready, the host suspended, a step of REP due. -/
def repState : State := { s1 with dec := someInput, transport := ⟨true, true, true, true⟩, repDue := RepDue.all }

/-! ### Well-formedness smoke -/

theorem test_wf_refuses_known_codes :
    (Instr.cmdUnknown 0x64617461).wf = false ∧ (Instr.cmdUnknown 0x5F727374).wf = false ∧
      (Instr.cmdUnknown 0x5F757362).wf = false ∧ (Instr.cmdUnknown 0x44415441).wf = true := by decide

/-- What configuration answers for these parameters, the rest as in `cfg`. -/
def configured (layout : List (BitVec 12)) (n tCode tRst : Nat) : Option Config.ConfigError :=
  match Config.configure layout n tCode tRst #v[4, 5, 6, 7, 8, 9] 0b100000 with
  | .ok _ => none
  | .error e => some e

theorem test_configure_refuses_control_38 : configured [0x026] 1 1 1 = some .illFormedLayout := by decide
theorem test_configure_refuses_control_twice : configured [0x000, 0x040] 1 1 1 = some .illFormedLayout := by decide
theorem test_configure_refuses_position_twice : configured [0x001, 0x002] 1 1 1 = some .illFormedLayout := by decide
theorem test_configure_bounds :
    configured layoutT 0 1 1 = some .pixelCountOutOfRange ∧ configured layoutT 16385 1 1 = some .pixelCountOutOfRange ∧
    configured layoutT 1 0 1 = some .codeTimeoutOutOfRange ∧ configured layoutT 1 1000 1 = some .codeTimeoutOutOfRange ∧
    configured layoutT 1 1 0 = some .resetDelayZero ∧ configured layoutT 16384 999 1 = none := by decide

/-! ### Words, written out from the formats -/

theorem test_decode_dbfPush : decode (.dbfReq 0x10000000000000010#65) = .ok (.dbfPush 0x10) := by decide
theorem test_decode_dbfIdle : decode (.dbfReq 0x0FFFFFFFFFFFFFFFF#65) = .ok .dbfIdle := by decide
theorem test_decode_dbfMerge : decode .mergeRead = .ok .dbfMerge := by decide
theorem test_decode_dec : decode (.decReq 0b1#1) = .ok .decDecode ∧ decode (.decReq 0b0#1) = .ok .decHold := by decide
theorem test_decode_lfsSetAll : decode (.lfsReq 0x1000004030201#51) = .ok (.lfsSetAll 1 2 3 4) := by decide
theorem test_decode_lfsWriteFront :
    decode (.lfsReq 0x200070000001F#51) = .ok (.lfsWriteFront 7 0x1F) ∧
    decode (.lfsReq 0x2FFFF000000BB#51) = .ok (.lfsWriteFront 0xFFFF 0xBB) := by decide
theorem test_decode_lfs_plain :
    decode (.lfsReq 0x0000000000000#51) = .ok .lfsNop ∧ decode (.lfsReq 0x3000000000000#51) = .ok .lfsFlip ∧
    decode (.lfsReq 0x4000000000000#51) = .ok .lfsArm ∧ decode (.lfsReq 0x5000000000000#51) = .ok .lfsRsvd5 ∧
    decode (.lfsReq 0x6000000000000#51) = .ok .lfsRsvd6 ∧ decode (.lfsReq 0x7000000000000#51) = .ok .lfsRsvd7 := by decide
theorem test_decode_lfsScan : decode (.txStep 0b1#1) = .ok .lfsScan := by decide
theorem test_decode_cmdRx :
    decode (.rxByte 0x16D#9) = .ok (.cmdRx 0x6D) ∧ decode (.rxByte 0x100#9) = .ok (.cmdRx 0x00) := by decide
theorem test_decode_cmdTick : decode (.tick 0b1#1) = .ok .cmdTick := by decide
theorem test_decode_frames :
    decode (.cmdFrame 0x6D756C746976657273653A64617461#120) = .ok .cmdData ∧
    decode (.cmdFrame 0x6D756C746976657273653A5F727374#120) = .ok .cmdRst ∧
    decode (.cmdFrame 0x6D756C746976657273653A5F757362#120) = .ok .cmdUsb ∧
    decode (.cmdFrame 0x6D756C746976657273653A78646174#120) = .ok (.cmdUnknown 0x78646174) := by decide
theorem test_decode_wire :
    decode (.wireFrame 0x0000000000000000#64) = .ok .wireStart ∧
    decode (.wireFrame 0xFFFFFFFFFFFFFFFF#64) = .ok .wireEnd ∧
    decode (.wirePix 0xE50180FF#32) = .ok (.wirePixel 5 0x01 0x80 0xFF) := by decide
theorem test_decode_reports :
    decode (.gpad 0x7F7FFF1F#32) = .ok (.repGpad 0x7F 0x7F 0xFFF true) ∧
    decode (.kbd 0x0000040006000000#64) = .ok (.repKbd 4 0 6 0 0 0) := by decide

/-- Words that name no row are refused by name. -/
theorem test_decode_rejects :
    decode (.cmdFrame 0x6D756C746976657273653B64617461#120) = .error .noMagic ∧
    decode (.wireFrame 0x0000000000000001#64) = .error .noWireUnit ∧
    decode (.wirePix 0xC0000000#32) = .error .noWireUnit ∧
    decode (.gpad 0x7F7FFF3F#32) = .error .reservedReportBits ∧
    decode (.kbd 0x0100040006000000#64) = .error .reservedReportBits ∧
    decode (.rxByte 0x0FF#9) = .error .notRequested ∧ decode (.other 24 0) = .error .noPort := by decide

/-- The table's own numbering (R119, entry 4). -/
theorem test_decodeTableWord :
    decodeTableWord 72 0x10000000000000010 = some (.dbfPush 0x10) ∧ decodeTableWord 72 0 = some .dbfIdle ∧
    decodeTableWord 8 1 = some .decDecode ∧ decodeTableWord 56 0x1000004030201 = some (.lfsSetAll 1 2 3 4) ∧
    decodeTableWord 16 0x16D = some (.cmdRx 0x6D) ∧
    decodeTableWord 120 0x6D756C746976657273653A64617461 = some .cmdData ∧
    decodeTableWord 32 0xE0000000 = some (.wirePixel 0 0 0 0) ∧ decodeTableWord 32 0 = some (.repGpad 0 0 0 false) ∧
    decodeTableWord 64 1 = some (.repKbd 0 0 0 0 0 1) ∧ decodeTableWord 64 (2 ^ 64 - 1) = some .wireEnd := by decide

/-! ### DBF -/

/-- V-DBF-3 from the end of V-DBF-2. -/
theorem test_push_evicts_oldest :
    after (.dbfPush 0x0200) (s1.withDbf ⟨#v[0x01, 0x10, 0x8000000000000000], 0⟩) (fun t => (t.dbf, mergedOf t.dbf)) =
      some (⟨#v[0x0200, 0x10, 0x8000000000000000], 1⟩, 0x8000000000000210) := by decide
/-- V-DBF-8. -/
theorem test_push_wraps :
    after (.dbfPush 7) (s1.withDbf ⟨#v[1, 2, 3], 2⟩) (fun t => t.dbf) = some ⟨#v[1, 2, 7], 0⟩ := by decide
/-- The end of V-DBF-2, read by MERGE. -/
theorem test_merge_reads :
    after .dbfMerge (s1.withDbf ⟨#v[0x01, 0x10, 0x8000000000000000], 0⟩) (fun t => t.out.merged) =
      some [0x8000000000000011] := by decide

/-! ### DEC (LAYOUT_T) -/

/-- The port word after DECODE with `m` in slot 0. -/
def csAfter (m : Snapshot) (s : State) : Option (BitVec 63) := after .decDecode (s.withDbf ⟨#v[m, 0, 0], 1⟩) (fun t => csWord t.dec)

/-- V-DEC-1, V-DEC-5, V-DEC-8, V-DEC-9. -/
theorem test_decode_vectors_1 :
    csAfter 0x10 s1 = some 0x4000000000000001 ∧ csAfter 0x03 s1 = some 0x4000001FC0000000 ∧
    csAfter 0x0C s1 = some 0x40001FC000000000 ∧ csAfter 0xFFFFFFFFFFFFFFFF s1 = some 0x5FDFDFDFFFFFFFFF := by
  decide
/-- V-DEC-2 (the second DECODE), V-DEC-3, V-DEC-11, V-DEC-13. -/
theorem test_decode_vectors_2 :
    csAfter 0x10 (s1.withDec ⟨⟨1, 0, 0, 0, 0, 0, 0⟩, true⟩) = some 0x0000000000000001 ∧
    csAfter 0x01 s1 = some 0x4000002040000000 ∧ csAfter 0x000000C000000000 s1 = some 0 ∧
    csAfter 0x0000000080030000 s1 = some 0x401FC00000800000 := by decide

/-- V-DEC-1 as it is written, POLL 0x10 (R160). -/
theorem test_poll : ran 2 (tracePoll 0x10) s1 (fun t => csWord t.dec) = some 0x4000000000000001 := by decide

/-! ### LFS -/

/-- V-LFS-1. -/
theorem test_setAll : after (.lfsSetAll 1 2 3 4) s2 (fun t => (bytes readFront 8 t, bytes readBack 8 t)) =
    some ([1, 2, 3, 4, 1, 2, 3, 4], [0xE0, 0, 0, 0, 0xE0, 0, 0, 0]) := by decide
/-- V-LFS-5, the first write and the second. -/
theorem test_writeFront_last : after (.lfsWriteFront 7 0x1F) s2 (bytes readFront 8) = some [0, 0, 0, 0, 0, 0, 0, 0x1F] := by
  decide
theorem test_writeFront_past_end : after (.lfsWriteFront 8 0xAA) s2 (fun t => t.lfs) = some s2.lfs := by decide
/-- V-LFS-3: the high bits of the brightness are lost. -/
theorem test_flip : after .lfsFlip (s1.withLfs { s1.lfs with front := [(0, 0xFF), (1, 0x80), (2, 0x01), (3, 0x25)] })
    (fun t => (bytes readBack 4 t, bytes readScan 4 t)) = some ([0xE5, 0x01, 0x80, 0xFF], [0xE0, 0, 0, 0]) := by decide
/-- V-LFS-10: and the flipped reset frame lists nothing. -/
theorem test_flip_reset : after .lfsFlip s1 (fun t => t.lfs) = some s1.lfs := by decide
/-- V-LFS-8. -/
theorem test_arm_again : after .lfsArm (atScan .pixels 2 s1) (fun t => t.lfs) = some (atScan .pixels 2 s1).lfs := by decide
/-- V-LFS-12 and V-LFS-13. -/
theorem test_scan_ends_start :
    after .lfsScan (atScan .start 7 s1) (fun t => (t.out.tx, t.lfs.phase, t.lfs.idx)) = some ([0x00], .pixels, 0) := by decide
theorem test_scan_ends_pixels :
    after .lfsScan (atScan .pixels 3 (s1.withLfs { s1.lfs with scan := [(0, 0xFF), (1, 0x33), (2, 0x22), (3, 0x11)] }))
      (fun t => (t.out.tx, t.lfs.phase, t.lfs.idx)) = some ([0x11], .ending, 0) := by decide
/-- V-LFS-7 in units of the strand. -/
theorem test_wire_start : after .wireStart (atScan .start 0 s1) (fun t => (t.out.tx, t.lfs.phase, t.lfs.idx)) =
    some ([0, 0, 0, 0, 0, 0, 0, 0], .pixels, 0) := by decide
theorem test_wire_pixel : after (.wirePixel 0 0 0 0) (atScan .pixels 0 s1) (fun t => (t.out.tx, t.lfs.phase, t.lfs.idx)) =
    some ([0xE0, 0, 0, 0], .ending, 0) := by decide
theorem test_wire_end : after .wireEnd (atScan .ending 0 s1) (fun t => (t.out.tx.length, t.lfs.phase, t.lfs.idx)) =
    some (8, .start, 0) := by decide
/-- R103: the first bits of a pixel's header byte are ones. -/
theorem test_line_bits : lineBits 0xE1 = [true, true, true, false, false, false, false, true] := by decide

/-! ### CMD -/

/-- V-CMD-4, the byte at which the match breaks and begins again. -/
theorem test_rx_restarts : after (.cmdRx 0x6D) (atCmd .seekMagic 5 0 9 s1) (fun t => t.cmd) =
    some (atCmd .seekMagic 1 0 0 s1).cmd := by decide
/-- V-CMD-9, the last payload byte of ⟨09 08 07 06⟩. -/
theorem test_rx_last_payload :
    after (.cmdRx 0x06) ((atCmd .readData 0 3 5 s1).withLfs { s1.lfs with front := [(0, 9), (1, 8), (2, 7)] })
      (fun t => (bytes readFront 4 t, bytes readBack 4 t, t.cmd)) =
    some ([0x09, 0x08, 0x07, 0x06], [0xE6, 0x07, 0x08, 0x09], s1.cmd) := by decide
/-- V-CMD-1, the 20th TICK; V-CMD-9, the 1000th. -/
theorem test_tick_expires : after .cmdTick (atCmd .resetWait 0 0 19 s1) (fun t => (t.cmd.st, t.cmd.timer, t.cmd.resetReq)) =
    some (.halted, 0, true) := by decide
theorem test_tick_data_timeout : after .cmdTick (atCmd .readData 0 2 999 s1) (fun t => t.cmd) = some s1.cmd := by decide
/-- V-CMD-2, V-CMD-1, R225. -/
theorem test_frame_usb : after .cmdUsb s1 (fun t => (t.cmd.st, t.cmd.kind, t.cmd.code)) =
    some (.resetWait, .usb, #v[0x5F, 0x75, 0x73, 0x62]) := by decide
theorem test_frame_rst : after .cmdRst s1 (fun t => (t.cmd.st, t.cmd.kind, t.cmd.code)) =
    some (.resetWait, .rst, #v[0x5F, 0x72, 0x73, 0x74]) := by decide
theorem test_frame_data : after .cmdData s1 (fun t => (t.cmd.st, t.cmd.cnt, t.cmd.code)) =
    some (.readData, 0, #v[0x64, 0x61, 0x74, 0x61]) := by decide
/-- V-CMD-1, and V-CMD-12 (the four bytes after MAGIC are "mult", the rest matches nothing). -/
theorem test_frame_unknown : after (.cmdUnknown 0x78646174) s1 (fun t => t.cmd) =
    some { s1.cmd with code := #v[0x78, 0x64, 0x61, 0x74] } := by decide

/-! ### REP -/

/-- V-REP-1 and V-REP-2 (the hotkey is utility bit 5 here). -/
theorem test_gpad_one : after (.repGpad 0x81 0x00 0x001 false) repState (fun t => (t.out.gpad1, t.out.gpad2)) =
    some ([[0x81, 0x00, 0x01, 0x00]], []) := by decide
theorem test_gpad_two :
    after (.repGpad 0x7F 0x7F 0xFFF true) (repState.withDec { someInput with prev.util := 0b100000 })
      (fun t => (t.out.gpad1, t.out.gpad2)) = some ([], [[0x7F, 0x7F, 0xFF, 0x1F]]) := by decide
/-- V-REP-4 and V-REP-5. -/
theorem test_kbd_sent : after (.repKbd 4 0 6 0 0 0) repState (fun t => (t.out.kbd, t.rep.lastUtil)) =
    some ([[0, 0, 4, 0, 6, 0, 0, 0]], 0b000101) := by decide
theorem test_kbd_unchanged :
    after (.repKbd 4 0 6 0 0 0) (repState.withRep { repState.rep with lastUtil := 0b000101 }) (fun t => t.out.kbd) = some [] := by
  decide

/-! ### Inputs that are no word -/

/-- V-REP-7, the first poll; `rst`; the transport. -/
theorem test_wake_pulses : ran 1 [.repStep] repState (fun t => (t.out.wakes, t.rep.wakeArmed)) = some (1, false) := by
  decide
/-- R270: one poll sends one report for each ready channel, however often REP is asked to run. -/
theorem test_rep_once_per_poll :
    ran 4 (tracePollReport 0x10 ++ [.repStep]) (s1.withRepDue RepDue.none |> fun s => { s with transport := ⟨true, false, false, false⟩ })
      (fun t => (t.out.gpad1, t.repDue)) = some ([[0x00, 0x00, 0x01, 0x00]], RepDue.none) := by decide
theorem test_rst : ran 1 [.rst] (atCmd .halted 0 0 0 (atScan .pixels 2 s1)) (fun t => (t.cmd, t.lfs)) =
    some (Cmd.reset, Lfs.reset) := by decide
theorem test_transport : ran 1 [.transport ⟨true, false, true, false⟩] s1 (fun t => t.transport.kbdReady) = some true := by
  decide

/-- R270: REP's step of a poll runs by itself, before the next DECODE and with no input offered: two bare POLLs, two reports. -/
theorem test_rep_runs_by_itself :
    ran 4 (tracePoll 0x10 ++ tracePoll 0x10) { s1 with transport := ⟨true, false, false, false⟩ } (fun t => t.out.gpad1) =
      some [[0x00, 0x00, 0x01, 0x00]] ∧
    ran 5 (tracePoll 0x10 ++ tracePoll 0x10) { s1 with transport := ⟨true, false, false, false⟩ }
      (fun t => (t.out.gpad1, t.repDue)) = some ([[0x00, 0x00, 0x01, 0x00], [0x00, 0x00, 0x01, 0x00]], RepDue.none) := by decide
/-- Entry 26: a burst has a line for each offset of 16 bits and none past the last (R121, R182). -/
theorem test_wrBurst : traceWrBurst 0xFFFF [0xAA, 0xBB] = [.word (.lfsReq 0x2FFFF000000AA)] ∧
    (traceWrBurst 0x0006 [1, 2, 3]).length = 3 := by decide
/-- R330: the two handshake outputs are 0 while `rst` is 1. -/
theorem test_handshake_in_rst :
    rxReady true s1 = false ∧ rxReady false s1 = true ∧ txValid true (atScan .start 0 s1) = false ∧
    txValid false (atScan .start 0 s1) = true := by decide

/-! ### Witnesses: hypotheses that something meets -/

/-- StepRunsDecodedInstruction. -/
theorem witness_step : ∃ (s : State) (w : PortWord) (rest : List Input) (i : Instr),
    s.inbox = .word w :: rest ∧ decode w = .ok i ∧ i ≠ .decDecode ∧ s.repDue = ⟨false, false, false, false⟩ ∧
      s.cmdExtra = false :=
  ⟨s1.withInbox [.word (.tick 1)], .tick 1, [], .cmdTick, rfl, rfl, by decide, rfl, rfl⟩
/-- StepRunsDecodedInstruction, a word while a FLIP of CMD is outstanding. -/
theorem witness_step_flip : ∃ u v, (s1.withCmdExtra true).cmdExtra = true ∧
    exec .lfsFlip ((s1.withCmdExtra true).withInbox []) = .next v ∧ u = v.withCmdExtra false := ⟨_, _, rfl, rfl, rfl⟩
/-- StepRunsDecodedInstruction, its last clause: a DECODE while a step of REP is due. -/
theorem witness_step_decode : (repState.withInbox [.word (.decReq 1)]).inbox = .word (.decReq 1) :: [] ∧
    decode (.decReq 1) = .ok .decDecode ∧ repState.repDue = ⟨true, true, true, true⟩ := by decide
/-- DecodeOfEncode, DecodedIsWellFormed. -/
theorem witness_decode : (Instr.lfsWriteFront 0xFFFF 0xBB).wf = true ∧ decode (.tick 1) = .ok .cmdTick := by decide
/-- NothingRequestedChangesNothing, each clause. -/
theorem witness_nothing_requested :
    (s1.inbox = [] ∧ s1.repDue = ⟨false, false, false, false⟩ ∧ s1.cmdExtra = false ∧ s1.initQ = []) ∧
    ((0x0FF : BitVec 9).getLsbD 8 = false ∧ (s1.withInbox [.word (.rxByte 0x0FF)]).inbox = .word (.rxByte 0x0FF) :: []) ∧
    (s1.withInbox [.word (.tick 0)]).inbox = .word (.tick 0) :: [] ∧
    (s1.withInbox [.word (.txStep 0)]).inbox = .word (.txStep 0) :: [] := by decide
/-- IdleRequestsChangeNothing. -/
theorem witness_idle : (0x0FFFFFFFFFFFFFFFF : BitVec 65).getLsbD 64 = false := by decide
/-- PressIsSeenAtOnceAndHeld. -/
theorem witness_press : (0x8000000000000000 : Snapshot).getLsbD 63 = true := by decide
/-- LanesAreIndependent, with states and samples that differ elsewhere. -/
theorem witness_lanes :
    (s1.withDbf ⟨#v[1, 2, 3], 1⟩).dbf.cursor = (s1.withDbf ⟨#v[5, 2, 7], 1⟩).dbf.cursor ∧
    (∀ k : Fin 3, (s1.withDbf ⟨#v[1, 2, 3], 1⟩).dbf.ring[k].getLsbD 0 = (s1.withDbf ⟨#v[5, 2, 7], 1⟩).dbf.ring[k].getLsbD 0) ∧
    (0x10 : Snapshot).getLsbD 0 = (0x20 : Snapshot).getLsbD 0 := by decide
theorem one_row_ok : Config.layoutOk [0x01E] = true := by decide
/-- The parameters of `cfg` with one row, position 0 to P1_LEFT (R94: a control may have no row). -/
def cfgShort : Config.Params :=
  { layout := [0x01E], layout_ok := one_row_ok, pixelCount := 1, pixelCount_ok := by decide, tCode := 100,
    tCode_ok := by decide, tRstDelay := 20, tRstDelay_ok := by decide, keymap := #v[4, 5, 6, 7, 8, 9], hotkeyMask := 0 }
/-- ControlBitReadsItsRow, both clauses. -/
theorem witness_control_bit :
    (∃ r ∈ cfgShort.layout, (r.extractLsb' 0 6).toNat = controlId .p1Left) ∧
    (∀ r ∈ cfgShort.layout, (r.extractLsb' 0 6).toNat ≠ controlId .p2Down) := by
  refine ⟨⟨0x01E, List.mem_singleton.2 rfl, by decide⟩, ?_⟩
  intro r hr
  obtain rfl : r = 0x01E := List.mem_singleton.1 hr
  decide
/-- DecodeSetsMasks, its last clause. -/
theorem witness_decode_masks : layoutSrc (cfg 1 (by decide)).layout (.p1Btn 0) = some (0, 4) := by decide
/-- DecodeSetsAxes. -/
theorem witness_decode_axes : ∃ on : Control → Bool, on = controlBit s1.cfg.layout (mergedOf s1.dbf) := ⟨_, rfl⟩
/-- UnmappedBitsAreIgnored: the two states differ in every bit but the one that the row of `cfgShort` names. -/
theorem witness_unmapped :
    let s := State.resetWith cfgShort
    let s' := s.withDbf ⟨#v[0xFFFFFFFFFFFFFFFE, 0, 0], 0⟩
    s.cfg = s'.cfg ∧ s.dec = s'.dec ∧ s.dbf ≠ s'.dbf ∧
    ∀ r ∈ s.cfg.layout, ∀ j, j = 8 * (r.extractLsb' 9 3).toNat + (r.extractLsb' 6 3).toNat →
      (mergedOf s.dbf).getLsbD j = (mergedOf s'.dbf).getLsbD j := by
  refine ⟨rfl, rfl, by decide, ?_⟩
  intro r hr j hj
  obtain rfl : r = 0x01E := List.mem_singleton.1 hr
  subst hj
  decide
/-- SetAllFillsFront, FlipReformatsEveryPixel, BrightnessKeepsLowFiveBits: the last pixel; WriteFrontStoresOrDiscards: the
last offset inside and the first outside. -/
theorem witness_pixels : 1 < s2.cfg.pixelCount ∧ (7 : BitVec 16).toNat < 4 * s2.cfg.pixelCount ∧
    4 * s2.cfg.pixelCount ≤ (8 : BitVec 16).toNat := by decide
/-- ArmStartsTheScanner, UnarmedScannerIsSilent, ArmedUntilReset. -/
theorem witness_armed : s1.lfs.armed = false ∧ (atScan .pixels 2 s1).lfs.armed = true := by decide
/-- ScanEmitsStartFrame, ScanEmitsPixelBytes, ScanEmitsEndFrame at the last byte of each phase. -/
theorem witness_scan :
    ((atScan .start 7 s1).lfs.armed = true ∧ (atScan .start 7 s1).lfs.phase = .start) ∧
    ((atScan .pixels 3 s1).lfs.armed = true ∧ (atScan .pixels 3 s1).lfs.phase = .pixels ∧
      (atScan .pixels 3 s1).lfs.idx = 4 * s1.cfg.pixelCount - 1) ∧
    ((atScan .ending 7 s1).lfs.armed = true ∧ (atScan .ending 7 s1).lfs.phase = .ending) := by decide
/-- StartFrameIsEightZeroBytes, EndFrameIsEightOnesBytes. -/
theorem witness_frames :
    ((atScan .start 0 s1).lfs.armed = true ∧ (atScan .start 0 s1).lfs.phase = .start ∧ (atScan .start 0 s1).lfs.idx = 0) ∧
    ((atScan .ending 0 s1).lfs.armed = true ∧ (atScan .ending 0 s1).lfs.phase = .ending ∧ (atScan .ending 0 s1).lfs.idx = 0) := by
  decide
/-- The last pixel of two, its bytes ⟨E8 40 80 00⟩ (P2). -/
def lastPixel : State := atScan .pixels 4 (s2.withLfs { s2.lfs with scan := [(4, 0xE8), (5, 0x40), (6, 0x80)] })
/-- PixelIsHeaderBlueGreenRed. -/
theorem witness_pixel : lastPixel.lfs.armed = true ∧ lastPixel.lfs.phase = .pixels ∧ 1 < lastPixel.cfg.pixelCount ∧
    lastPixel.lfs.idx = 4 * 1 ∧ readScan lastPixel.lfs (4 * 1) = 0b111#3 ++ 0b01000#5 ∧
    readScan lastPixel.lfs (4 * 1 + 1) = 0x40 ∧ readScan lastPixel.lfs (4 * 1 + 2) = 0x80 ∧
    readScan lastPixel.lfs (4 * 1 + 3) = 0x00 := by decide
/-- UnofferedUnitsChangeNothing: an armed scanner in another phase, and at a pixel with another header. -/
theorem witness_unoffered : ¬ ((atScan .pixels 0 s1).lfs.armed = true ∧ (atScan .pixels 0 s1).lfs.phase = .start ∧
      (atScan .pixels 0 s1).lfs.idx = 0) ∧
    ¬ (readScan (atScan .pixels 0 s1).lfs (atScan .pixels 0 s1).lfs.idx = 0b111#3 ++ 1#5) ∧
    ¬ ((atScan .ending 1 s1).lfs.armed = true ∧ (atScan .ending 1 s1).lfs.phase = .ending ∧
      (atScan .ending 1 s1).lfs.idx = 0) := by decide
/-- PassTransmitsLatchedBack, with one pixel. -/
def passState : State := (atScan .start 0 s1).withInbox (List.replicate 20 (Input.word (.txStep 1#1)))
theorem witness_pass : passState.lfs.armed = true ∧ passState.lfs.phase = .start ∧ passState.lfs.idx = 0 ∧
    passState.cmdExtra = false ∧ passState.inbox = List.replicate (16 + 4 * passState.cfg.pixelCount) (Input.word (.txStep 1#1)) ++ [] :=
  ⟨rfl, rfl, rfl, rfl, rfl⟩
/-- FrameIsNotMixedMidPass. -/
theorem witness_mid_pass : (atScan .pixels 0 s1).lfs.phase ≠ .start ∧ (atScan .start 1 s1).lfs.idx ≠ 0 := by decide
/-- SeekComparesWithMagic, each clause at a boundary: ":" at index 10, "e" at 9, another byte at 10. -/
theorem witness_seek :
    ((atCmd .seekMagic 10 0 0 s1).cmd.st = .seekMagic ∧ (0x3A : Byte) = magic.get (atCmd .seekMagic 10 0 0 s1).cmd.midx ∧
      (atCmd .seekMagic 10 0 0 s1).cmd.midx.val = 10) ∧
    ((0x65 : Byte) = magic.get (atCmd .seekMagic 9 0 0 s1).cmd.midx ∧ (atCmd .seekMagic 9 0 0 s1).cmd.midx.val ≠ 10) ∧
    (0x6D : Byte) ≠ magic.get (atCmd .seekMagic 10 0 0 s1).cmd.midx := by decide
/-- CodeByteIsAccumulated, at its last place; FourthCodeByteDispatches. -/
theorem witness_code : (atCmd .readCode 0 2 0 s1).cmd.st = .readCode ∧ (atCmd .readCode 0 2 0 s1).cmd.cnt < 3 ∧
    (atCmd .readCode 0 3 0 s1).cmd.st = .readCode ∧ (atCmd .readCode 0 3 0 s1).cmd.cnt = 3 := by decide
/-- READ_CODE with three bytes of a code taken. -/
def threeBytes (a b c : Byte) : State := (atCmd .readCode 0 3 0 s1).withCmd { (atCmd .readCode 0 3 0 s1).cmd with code := #v[a, b, c, 0] }
/-- FourthCodeByteDispatches, its four clauses: "dat" "a", "_rs" "t", "_us" "b", and "_us" "c". -/
theorem witness_dispatch :
    after (.cmdRx 0x61) (threeBytes 0x64 0x61 0x74) (fun t => t.cmd.code) = some #v[0x64, 0x61, 0x74, 0x61] ∧
    after (.cmdRx 0x74) (threeBytes 0x5F 0x72 0x73) (fun t => t.cmd.code) = some #v[0x5F, 0x72, 0x73, 0x74] ∧
    after (.cmdRx 0x62) (threeBytes 0x5F 0x75 0x73) (fun t => t.cmd.code) = some #v[0x5F, 0x75, 0x73, 0x62] ∧
    after (.cmdRx 0x63) (threeBytes 0x5F 0x75 0x73) (fun t => t.cmd.code) = some #v[0x5F, 0x75, 0x73, 0x63] := by decide
/-- PayloadByteGoesToFront, at the last byte and the one before. -/
theorem witness_payload_byte :
    (atCmd .readData 0 3 0 s1).cmd.st = .readData ∧ (atCmd .readData 0 3 0 s1).cmd.cnt < 4 * s1.cfg.pixelCount ∧
    (atCmd .readData 0 3 0 s1).cmd.cnt = 4 * s1.cfg.pixelCount - 1 ∧
    (atCmd .readData 0 2 0 s1).cmd.cnt ≠ 4 * s1.cfg.pixelCount - 1 := by decide
/-- NoByteTakenAfterResetCommand; ResetCommandIsFinal. -/
theorem witness_reset_pending : (atCmd .resetWait 0 0 0 s1).cmd.st = .resetWait ∧ (atCmd .halted 0 0 0 s1).cmd.st = .halted := by
  decide
/-- FramesAreDispatched, in the middle of a match. -/
theorem witness_frame_start : (atCmd .seekMagic 5 0 3 s1).cmd.st = .seekMagic ∧ (Instr.cmdUnknown 0x44415441).wf = true := by
  decide
/-- PayloadLoadsFrontAndFlips: the payload ⟨09 08 07 06⟩ (V-CMD-9). -/
def payloadState : State := (atCmd .readData 0 0 0 s1).withInbox
  (([9, 8, 7, 6] : List Byte).map (fun b => Input.word (.rxByte (1#1 ++ b))) ++ [])
theorem witness_payload : payloadState.cmd.st = .readData ∧ payloadState.cmd.cnt = 0 ∧ payloadState.cmdExtra = false ∧
    ([9, 8, 7, 6] : List Byte).length = 4 * payloadState.cfg.pixelCount ∧
    payloadState.inbox = ([9, 8, 7, 6] : List Byte).map (fun b => Input.word (.rxByte (1#1 ++ b))) ++ [] := by decide
/-- TickInSeekMagic, each clause at its boundary. -/
theorem witness_tick_seek : (atCmd .seekMagic 0 0 0 s1).cmd.st = .seekMagic ∧ (atCmd .seekMagic 0 0 0 s1).cmd.midx = 0 ∧
    ((atCmd .seekMagic 5 0 48 s1).cmd.midx ≠ 0 ∧ (atCmd .seekMagic 5 0 48 s1).cmd.timer + 1 < 50) ∧
    ((atCmd .seekMagic 5 0 49 s1).cmd.midx ≠ 0 ∧ 50 ≤ (atCmd .seekMagic 5 0 49 s1).cmd.timer + 1) := by decide
/-- TickInReadingStates, each state on both sides of its limit. -/
theorem witness_tick_reading :
    ((atCmd .readCode 0 0 98 s1).cmd.st = .readCode ∧ 100 = s1.cfg.tCode ∧ (atCmd .readCode 0 0 98 s1).cmd.timer + 1 < 100) ∧
    100 ≤ (atCmd .readCode 0 0 99 s1).cmd.timer + 1 ∧
    ((atCmd .readData 0 0 998 s1).cmd.st = .readData ∧ (atCmd .readData 0 0 998 s1).cmd.timer + 1 < 1000) ∧
    1000 ≤ (atCmd .readData 0 0 999 s1).cmd.timer + 1 := by decide
/-- TickInResetWait, on both sides of the delay. -/
theorem witness_tick_reset : (atCmd .resetWait 0 0 18 s1).cmd.st = .resetWait ∧
    (atCmd .resetWait 0 0 18 s1).cmd.timer + 1 < s1.cfg.tRstDelay ∧
    s1.cfg.tRstDelay ≤ (atCmd .resetWait 0 0 19 s1).cmd.timer + 1 := by decide
/-- ResetCommandIsFinal, from both states, by a TICK. -/
theorem witness_reset_final :
    rstNext ((atCmd .halted 0 0 0 s1).withInbox [.word (.tick 1)]) = false ∧
    ran 1 [.word (.tick 1)] (atCmd .halted 0 0 0 s1) (fun t => t.cmd.st) = some .halted ∧
    ran 1 [.word (.tick 1)] (atCmd .resetWait 0 0 0 s1) (fun t => t.cmd.timer) = some 1 ∧
    ResetPending (atCmd .halted 0 0 0 s1).cmd ∧ ResetPending (atCmd .resetWait 0 0 0 s1).cmd :=
  ⟨rfl, by decide, by decide, by decide, by decide⟩
/-- StepKeepsInvariant: the reset state has the invariant, and steps. -/
theorem witness_inv : Inv s1 ∧ ∃ t, step s1 = .next t := by
  refine ⟨⟨⟨.inr (.inl rfl), .inr (.inl rfl), .inr (.inl rfl), .inr (.inl rfl)⟩, ⟨?_, ?_, ?_, ?_, ?_, by decide⟩,
    ⟨by decide, by decide, by decide, by decide, by decide⟩⟩, s1, rfl⟩
  · exact ⟨List.Pairwise.nil, by simp [s1, State.resetWith, Lfs.reset]⟩
  · exact ⟨List.Pairwise.nil, by simp [s1, State.resetWith, Lfs.reset]⟩
  · exact ⟨List.Pairwise.nil, by simp [s1, State.resetWith, Lfs.reset]⟩
  · intro i hi
    have h0 : i = 0 := by change 4 * i < 4 at hi; omega
    subst h0; decide
  · intro i hi
    have h0 : i = 0 := by change 4 * i < 4 at hi; omega
    subst h0; decide
/-- A cycle with `rst` and every other request. -/
def rstCycle : CycleIn := ⟨true, true, 0x10, true, some 0x3000000000000, true, true, 0x55, true⟩
/-- RstRestoresResetState, both clauses; StepKeepsParameters; ArmedUntilReset. -/
theorem witness_rst : ((atScan .pixels 2 s1).withInbox [.rst]).inbox = .rst :: [] ∧
    rstCycle.rst = true ∧ ((atScan .pixels 2 s1).withInbox [.cycle rstCycle]).inbox = .cycle rstCycle :: [] ∧
    ran 1 [.cycle rstCycle] (atScan .pixels 2 s1) (fun t => (t.lfs, t.dbf)) = some (Lfs.reset, Dbf.reset) ∧
    (∃ t, step ((atScan .pixels 2 s1).withInbox [.rst]) = .next t) ∧
    rstNext ((atScan .pixels 2 s1).withInbox [.word (.txStep 1)]) = false ∧
    ∃ t, step ((atScan .pixels 2 s1).withInbox [.word (.txStep 1)]) = .next t :=
  ⟨rfl, rfl, rfl, by decide, ⟨_, rfl⟩, rfl, ⟨_, rfl⟩⟩
/-- PipelinesShareNoState, both sides. -/
theorem witness_pipelines : inputPipeline (.dbfPush 1) = true ∧ inputPipeline .lfsArm = false := by decide
/-- A PUSH and a DECODE in one cycle, with a SCAN step. -/
def pollCycle : CycleIn := ⟨false, true, 0x10, true, none, true, false, 0, false⟩
/-- DecodeBeforePushInOneCycle, and its outcome here: DECODE of an empty ring, then the sample is in. -/
theorem witness_decode_push : pollCycle.rst = false ∧ pollCycle.decode = true ∧ pollCycle.push = true ∧
    (s1.withInbox [.cycle pollCycle]).inbox = .cycle pollCycle :: [] ∧
    ran 1 [.cycle pollCycle] s1 (fun t => (csWord t.dec, mergedOf t.dbf, t.inbox)) = some (0, 0x10, []) := by decide
/-- "_rs" taken, one TICK before T_CODE, and the cycle that brings "t" and that TICK. -/
def lastMoment : State := (atCmd .readCode 0 3 99 s1).withCmd { (atCmd .readCode 0 3 99 s1).cmd with code := #v[0x5F, 0x72, 0x73, 0x00] }
/-- The cycle that brings "t" and that TICK. -/
def lastCycle : CycleIn := ⟨false, false, 0, false, none, false, true, 0x74, true⟩
/-- ByteBeforeTickInOneCycle, and its outcome here: the byte dispatches, and the TICK counts in RESET_WAIT. -/
theorem witness_byte_tick : lastCycle.rst = false ∧ lastCycle.rxValid = true ∧ lastCycle.tick = true ∧
    rxReady lastCycle.rst lastMoment = true ∧ (lastMoment.withInbox [.cycle lastCycle]).inbox = .cycle lastCycle :: [] ∧
    ran 1 [.cycle lastCycle] lastMoment (fun t => (t.cmd.st, t.cmd.kind, t.cmd.timer)) = some (.resetWait, .rst, 1) := by
  decide
/-- A payload byte and a FLIP of INIT in one cycle. -/
def bothRequest : CycleIn := ⟨false, false, 0, false, some 0x3000000000000, false, true, 0x55, false⟩
/-- A SCAN step and a FLIP of INIT in one cycle. -/
def freeRequest : CycleIn := ⟨false, false, 0, false, some 0x3000000000000, true, false, 0, false⟩
/-- The last payload byte of ⟨09 08 07 06⟩ (V-CMD-9), and the cycle after it, at a pass boundary. -/
def lastByte : State := (atCmd .readData 0 3 5 (atScan .start 0 s1)).withLfs
  { (atScan .start 0 s1).lfs with front := [(0, 9), (1, 8), (2, 7)] }
def lastByteCycle : CycleIn := { CycleIn.idle with rxValid := true, rxData := 0x06 }
/-- R117, R306 (3), worked out by hand: after the byte's cycle BACK is as before and CMD searches again; a pass latch in the extra
cycle takes the old BACK; the FLIP follows it. -/
theorem test_flip_in_extra_cycle :
    ran 1 [.cycle lastByteCycle] lastByte (fun t => (bytes readFront 4 t, bytes readBack 4 t, t.cmd.st)) =
      some ([9, 8, 7, 6], [0xE0, 0, 0, 0], .seekMagic) ∧
    ran 2 [.cycle lastByteCycle, .cycle { CycleIn.idle with txReady := true }] lastByte
      (fun t => (bytes readScan 4 t, bytes readBack 4 t, t.cmdExtra)) =
      some ([0xE0, 0, 0, 0], [0xE6, 7, 8, 9], false) := by decide
/-- Entry 13: a word of its own, and no input at all, find the FLIP done. -/
theorem test_flip_completed :
    ran 2 [.cycle lastByteCycle, .word (.txStep 1)] lastByte (bytes readScan 4) = some [0xE6, 7, 8, 9] ∧
    ran 2 [.cycle lastByteCycle] lastByte (bytes readBack 4) = some [0xE6, 7, 8, 9] := by decide
/-- InitWaitsBehindCmd, its clauses: the last payload byte, the extra cycle, a free one, and the two cycles together. -/
theorem witness_init_waits : bothRequest.rst = false ∧ bothRequest.rxValid = true ∧ freeRequest.rst = false ∧
    (∃ scanned, scanned = (if freeRequest.txReady then scanStep (atScan .start 0 s1) else atScan .start 0 s1)) ∧
    ((atCmd .readData 0 3 0 s1).cmd.st = .readData ∧ (atCmd .readData 0 3 0 s1).cmdExtra = false ∧
      ran 1 [.cycle bothRequest] (atCmd .readData 0 3 0 s1) (fun t => (t.initQ, t.cmdExtra)) =
        some ([0x3000000000000], true)) ∧
    ((s1.withCmdExtra true).cmdExtra = true ∧
      ran 1 [.cycle bothRequest] (s1.withCmdExtra true) (fun t => (t.initQ, t.cmdExtra, t.cmd)) =
        some ([0x3000000000000], false, s1.cmd)) ∧
    ((atScan .start 0 s1).cmdExtra = false ∧ ((atScan .start 0 s1).cmd.st ≠ .readData ∨ freeRequest.rxValid = false) ∧
      (atScan .start 0 s1).initQ ++ freeRequest.initReq.toList = [0x3000000000000] ∧
      ran 1 [.cycle freeRequest] (atScan .start 0 s1) (fun t => (t.initQ, t.lfs.idx)) = some ([], 1)) ∧
    (lastByte.cmdExtra = false ∧ lastByte.cmd.st = .readData ∧ lastByte.cmd.cnt = 4 * lastByte.cfg.pixelCount - 1 ∧
      lastByteCycle.rxValid = true ∧ lastByteCycle.txReady = false ∧ lastByteCycle.tick = false ∧
      CycleIn.idle.rst = false ∧ CycleIn.idle.txReady = false ∧ CycleIn.idle.tick = false) :=
  ⟨rfl, rfl, rfl, ⟨_, rfl⟩, by decide, by decide, by decide, by decide⟩
/-- GamepadReportsGoOut, player 1 alone: the fields are those of `repState`'s player 1; and a step of REP there. -/
theorem witness_gamepad :
    ([0x81, 0x00, 0x01, 0x00] : List Byte) =
      [0x81, 0x00, (0x001 : BitVec 12).extractLsb' 0 8, 0b000#3 ++ BitVec.ofBool false ++ (0x001 : BitVec 12).extractLsb' 8 4] ∧
    (true = true ↔ repState.repDue.gp1 = true ∧ repState.transport.gp1Ready = true ∧ 0x81 = repState.dec.prev.p1x ∧
      0x00 = repState.dec.prev.p1y ∧ 0x001 = repState.dec.prev.p1 ∧
      false = ((repState.dec.prev.util &&& repState.cfg.hotkeyMask) != 0)) ∧
    (false = true ↔ repState.repDue.gp2 = true ∧ repState.transport.gp2Ready = true ∧ 0x81 = repState.dec.prev.p2x ∧
      0x00 = repState.dec.prev.p2y ∧ 0x001 = repState.dec.prev.p2 ∧
      false = ((repState.dec.prev.util &&& repState.cfg.hotkeyMask) != 0)) ∧
    ran 1 [.repStep] repState (fun t => (t.out.gpad1, t.out.gpad2)) =
      some ([[0x81, 0x00, 0x01, 0x00]], [[0x7F, 0x7F, 0xFF, 0x0F]]) := by decide
/-- KeyboardReportOnUtilityChange, present and sent (V-REP-4), and present but not due; and a step of REP. -/
theorem witness_keyboard :
    (true = true ↔
      4 = (if repState.dec.prev.util.getLsbD 0 then repState.cfg.keymap[0] else 0) ∧
      0 = (if repState.dec.prev.util.getLsbD 1 then repState.cfg.keymap[1] else 0) ∧
      6 = (if repState.dec.prev.util.getLsbD 2 then repState.cfg.keymap[2] else 0) ∧
      0 = (if repState.dec.prev.util.getLsbD 3 then repState.cfg.keymap[3] else 0) ∧
      0 = (if repState.dec.prev.util.getLsbD 4 then repState.cfg.keymap[4] else 0) ∧
      0 = (if repState.dec.prev.util.getLsbD 5 then repState.cfg.keymap[5] else 0)) ∧
    (true = true ↔ repState.repDue.kbd = true ∧ repState.transport.kbdReady = true ∧ repState.dec.changed = true ∧
      repState.dec.prev.util ≠ repState.rep.lastUtil) ∧
    (false = true ↔ (repState.withRepDue RepDue.none).repDue.kbd = true ∧ repState.transport.kbdReady = true ∧
      repState.dec.changed = true ∧ repState.dec.prev.util ≠ repState.rep.lastUtil) ∧
    ran 1 [.repStep] repState (fun t => (t.out.kbd, t.rep.lastUtil)) = some ([[0, 0, 4, 0, 6, 0, 0, 0]], 0b000101) := by
  decide
/-- FlipIsIdempotent: two states whose FRONT is the same, BACK not. -/
theorem witness_flip_twice : s1.cfg = (s1.withLfs { s1.lfs with back := [(1, 5)] }).cfg ∧
    ∀ a < 4 * s1.cfg.pixelCount, readFront s1.lfs a = readFront (s1.withLfs { s1.lfs with back := [(1, 5)] }).lfs a :=
  ⟨rfl, fun _ _ => rfl⟩
/-- WakeIsOneShot, with the condition true and false, something due and nothing. -/
theorem witness_wake : (repState.withInbox [.repStep]).inbox = .repStep :: [] ∧
    (true = true ↔ repState.transport.suspended = true ∧ repState.dec.prev ≠ ⟨0, 0, 0, 0, 0, 0, 0⟩) ∧
    (false = true ↔ s1.transport.suspended = true ∧ s1.dec.prev ≠ ⟨0, 0, 0, 0, 0, 0, 0⟩) ∧
    repState.repDue.wake = true ∧ s1.repDue = ⟨false, false, false, false⟩ ∧
    after .decDecode s1 (fun t => t.repDue) = some ⟨true, true, true, true⟩ := by decide
/-- WakeIsOneShot, its clauses on other inputs: no input while a step is due, a DECODE then, and a SCAN word then. -/
theorem witness_poll : repState.inbox = [] ∧ repState.repDue = RepDue.all ∧
    ((repState.withInbox [.word (.decReq 1)]).inbox = .word (.decReq 1) :: [] ∧ decode (.decReq 1) = .ok .decDecode) ∧
    (repState.withInbox [.word (.txStep 1)]).inbox = .word (.txStep 1) :: [] ∧
    (∃ t, step (repState.withInbox [.word (.txStep 1)]) = .next t) ∧
    Input.word (.txStep 1) ≠ .repStep ∧ rstNext (repState.withInbox [.word (.txStep 1)]) = false ∧
    (∀ c, Input.word (.txStep 1) = .cycle c → c.decode = false) ∧
    ∀ w, Input.word (.txStep 1) = .word w → decode w ≠ .ok .decDecode ∧ (∀ a b m h, decode w ≠ .ok (.repGpad a b m h)) ∧
      ∀ a b c d e f, decode w ≠ .ok (.repKbd a b c d e f) := by
  refine ⟨rfl, rfl, ⟨rfl, rfl⟩, rfl, ⟨_, rfl⟩, by decide, rfl, by simp, ?_⟩
  rintro w hw
  obtain rfl := Input.word.inj hw
  rw [show decode (.txStep 1) = .ok .lfsScan from rfl]
  simp

end Sys2Proof.Tests
end

/-! PROOFS. The family of spec/00_scope.md: what a step runs (R14, R119), the separation of the two pipelines (R17), and which
configurations are admitted (R8, R9, R94, R300). -/

namespace Sys2Proof.Proofs

open Sys2Proof Sys2Proof.Machine Sys2Proof.Safety

/-! ### The next state of an instruction -/

/-- The state that an instruction leaves, as a function; `exec_eq_next` ties it to `exec`. -/
def nextState (i : Instr) (s : State) : State :=
  match exec i s with
  | .next t => t
  | .fault _ => s
  | .refused _ => s

/-- R300: no instruction faults, and none is refused. -/
theorem exec_eq_next (i : Instr) (s : State) : exec i s = .next (nextState i s) := by
  cases i <;> rfl

/-! ### A word that is run -/

/-- A word at the head of the inputs runs after the outstanding FLIP (entry 13) and, for a DECODE, REP's step (entry 27). -/
theorem step_word {s : State} {w : PortWord} {rest : List Input} {i : Instr} (hs : s.inbox = .word w :: rest)
    (hw : decode w = .ok i) : step s = exec i (closePoll i (completeFlip (s.withInbox rest))) := by
  simp only [step, takeNext, hs, takeInput, hw]

theorem closePoll_eq_self {i : Instr} {s : State} (h : s.repDue = RepDue.none ∨ i ≠ .decDecode) : closePoll i s = s := by
  by_cases hi : i = .decDecode
  · subst hi
    exact repStep_of_none (h.resolve_right (not_not_intro rfl))
  · exact closePoll_of_ne hi s

/-- The FLIP left to the extra cycle is LFS.FLIP itself (R117, R226). -/
theorem completeFlip_of_exec {s v : State} (h : s.cmdExtra = true) (hv : exec .lfsFlip s = .next v) :
    completeFlip s = v.withCmdExtra false := by
  cases hv
  exact if_pos h

/-- Settles O1, from `step_word`: `u` is the state in which the outstanding FLIP is done. -/
theorem stepRunsDecodedInstruction : Obligations.StepRunsDecodedInstruction := by
  intro s w rest i hs hw
  refine ⟨fun hdue hx => ?_, fun u hnone hflip => ?_⟩
  · rw [step_word hs hw, completeFlip_of_false (s := s.withInbox rest) hx]
    exact congrArg (exec i) (closePoll_eq_self hdue)
  · have hu : completeFlip (s.withInbox rest) = u := by
      cases hx : s.cmdExtra with
      | false => rw [hnone hx, completeFlip_of_false (s := s.withInbox rest) hx]
      | true =>
        obtain ⟨v, hv, rfl⟩ := hflip hx
        exact completeFlip_of_exec (s := s.withInbox rest) hx hv
    rw [step_word hs hw, hu]
    refine ⟨fun hi => by rw [closePoll_of_ne hi], ?_⟩
    rintro rfl
    rw [closePoll_decDecode]

/-! ### The two pipelines

That a function on states neither reads nor writes some blocks is one equation: it commutes with overwriting them. -/

/-- The blocks of the LED pipeline overwritten. -/
def overwriteLed (x : Lfs) (y : Cmd) (s : State) : State := (s.withLfs x).withCmd y

/-- The blocks of the input pipeline overwritten, with what REP has due (entry 27). -/
def overwriteInput (x : Dbf) (y : Dec) (z : Rep) (d : RepDue) (s : State) : State :=
  (((s.withDbf x).withDec y).withRep z).withRepDue d

/-- A function that commutes with every overwriting of the LED blocks leaves them as they are. -/
theorem keeps_led {f : State → State} (h : ∀ x y, Function.Commute f (overwriteLed x y)) (s : State) :
    (f s).lfs = s.lfs ∧ (f s).cmd = s.cmd := by
  have hs : f s = overwriteLed s.lfs s.cmd (f s) := h s.lfs s.cmd s
  exact ⟨(congrArg State.lfs hs :), (congrArg State.cmd hs :)⟩

/-- A function that commutes with every overwriting of the input blocks leaves them as they are. -/
theorem keeps_input {f : State → State} (h : ∀ x y z d, Function.Commute f (overwriteInput x y z d)) (s : State) :
    (f s).dbf = s.dbf ∧ (f s).dec = s.dec ∧ (f s).rep = s.rep ∧ (f s).repDue = s.repDue := by
  have hs : f s = overwriteInput s.dbf s.dec s.rep s.repDue (f s) := h s.dbf s.dec s.rep s.repDue s
  exact ⟨(congrArg State.dbf hs :), (congrArg State.dec hs :), (congrArg State.rep hs :), (congrArg State.repDue hs :)⟩

/-- A choice between two functions commutes with `g` when both do and `g` does not change the condition. -/
theorem commute_ite {f f' g : State → State} {p : State → Bool} (hp : ∀ s, p (g s) = p s) (hf : Function.Commute f g)
    (hf' : Function.Commute f' g) : Function.Commute (fun s => if p s then f s else f' s) g := by
  intro s
  simp only [hp]
  split
  · exact hf s
  · exact hf' s

section
variable (x : Lfs) (y : Cmd)

theorem sendGpad1_ignores_led : Function.Commute sendGpad1 (overwriteLed x y) := fun s => by
  rw [sendGpad1_eq, sendGpad1_eq]; rfl

theorem sendGpad2_ignores_led : Function.Commute sendGpad2 (overwriteLed x y) := fun s => by
  rw [sendGpad2_eq, sendGpad2_eq]; rfl

theorem sendKbd_ignores_led : Function.Commute sendKbd (overwriteLed x y) := fun s => by
  rw [sendKbd_eq, sendKbd_eq]; rfl

/-- R17: the operations of the input pipeline neither read nor write LFS and CMD. -/
theorem nextState_ignores_led {i : Instr} (hi : inputPipeline i = true) :
    Function.Commute (nextState i) (overwriteLed x y) := by
  cases i with
  | dbfPush | dbfIdle | dbfMerge | decDecode | decHold => exact fun s => rfl
  | repGpad px py buttons hotkey =>
    have first : Function.Commute
        (fun s => if gpad1Report s == gpadBytes px py buttons hotkey then sendGpad1 s else s) (overwriteLed x y) :=
      commute_ite (fun _ => rfl) (sendGpad1_ignores_led x y) .id_left
    exact commute_ite (fun _ => rfl) ((sendGpad2_ignores_led x y).comp_left first) first
  | repKbd => exact commute_ite (fun _ => rfl) (sendKbd_ignores_led x y) .id_left
  | _ => cases hi

end

section
variable (x : Dbf) (y : Dec) (z : Rep) (d : RepDue)

theorem scanStep_ignores_input : Function.Commute scanStep (overwriteInput x y z d) := fun s => by
  cases h : s.lfs.armed with
  | false => rw [scanStep_unarmed h, scanStep_unarmed (s := overwriteInput x y z d s) h]
  | true => rw [scanStep_armed h, scanStep_armed (s := overwriteInput x y z d s) h]; rfl

theorem scanSteps_ignores_input (n : Nat) : Function.Commute (scanSteps n) (overwriteInput x y z d) := by
  induction n with
  | zero => exact .id_left
  | succ n ih => exact ih.comp_left (scanStep_ignores_input x y z d)

/-- RX works on the cells of the LED pipeline alone, in each state of CMD (R221, R226). -/
theorem receiveByte_ignores_input (b : Byte) : Function.Commute (receiveByte b) (overwriteInput x y z d) := fun s => by
  cases h : s.cmd.st with
  | seekMagic => rw [receiveByte_seekMagic h, receiveByte_seekMagic (s := overwriteInput x y z d s) h]; rfl
  | readCode => rw [receiveByte_readCode h, receiveByte_readCode (s := overwriteInput x y z d s) h]; rfl
  | readData =>
    rw [receiveByte_readData h, receiveByte_readData (s := overwriteInput x y z d s) h, payloadByte, payloadByte,
      apply_ite (overwriteInput x y z d)]
    rfl
  | resetWait => rw [receiveByte_notReading (.inl h), receiveByte_notReading (s := overwriteInput x y z d s) (.inl h)]
  | halted => rw [receiveByte_notReading (.inr h), receiveByte_notReading (s := overwriteInput x y z d s) (.inr h)]

theorem receiveBytes_ignores_input (bs : List Byte) :
    Function.Commute (receiveBytes bs) (overwriteInput x y z d) := by
  induction bs with
  | nil => exact .id_left
  | cons b bs ih => exact ih.comp_left (receiveByte_ignores_input x y z d b)

/-- R17: the operations of the LED pipeline neither read nor write DBF, DEC and REP, nor what REP has due. -/
theorem nextState_ignores_input {i : Instr} (hi : inputPipeline i = false) :
    Function.Commute (nextState i) (overwriteInput x y z d) := by
  cases i with
  | lfsNop | lfsSetAll | lfsWriteFront | lfsFlip | lfsArm | lfsRsvd5 | lfsRsvd6 | lfsRsvd7 | cmdTick => exact fun s => rfl
  | lfsScan => exact scanStep_ignores_input x y z d
  | cmdRx b => exact receiveByte_ignores_input x y z d b
  | cmdData | cmdRst | cmdUsb | cmdUnknown => exact receiveBytes_ignores_input x y z d _
  | wireStart | wirePixel | wireEnd => exact commute_ite (fun _ => rfl) (scanSteps_ignores_input x y z d _) .id_left
  | _ => cases hi

end

/-- Settles O53: an instruction commutes with overwriting the blocks of the other pipeline. -/
theorem pipelinesShareNoState : Obligations.PipelinesShareNoState := by
  intro i s
  refine ⟨nextState i s, exec_eq_next i s, fun hi => ?_, fun hi => ?_⟩
  · have hcomm := fun x y => nextState_ignores_led x y hi
    obtain ⟨hlfs, hcmd⟩ := keeps_led hcomm s
    exact ⟨hlfs, hcmd, fun x y => (exec_eq_next i _).trans (congrArg _ (hcomm x y s))⟩
  · have hcomm := fun x y z d => nextState_ignores_input x y z d hi
    obtain ⟨hdbf, hdec, hrep, hdue⟩ := keeps_input hcomm s
    exact ⟨hdbf, hdec, hrep, hdue, fun x y z d => (exec_eq_next i _).trans (congrArg _ (hcomm x y z d s))⟩

/-! ### Configuration -/

/-- R94 in words of the rows themselves: no id above 37, and any two rows differ in their control and in their position. -/
theorem layoutOk_iff_pairwise (rows : List (BitVec 12)) : Config.layoutOk rows = true ↔
    (∀ r ∈ rows, (r.extractLsb' 0 6).toNat ≤ 37) ∧
    rows.Pairwise (fun r q => r.extractLsb' 0 6 ≠ q.extractLsb' 0 6) ∧
    rows.Pairwise (fun r q => r.extractLsb' 6 6 ≠ q.extractLsb' 6 6) := by
  rw [layoutOk_iff, List.Nodup, List.pairwise_map, List.pairwise_map]
  exact and_congr_left' (forall₂_congr fun _ _ => Nat.lt_succ_iff (n := 37))

/-- A configuration inside every bound is admitted with the values given. -/
theorem configure_eq_ok {layout : List (BitVec 12)} {n tCode tRst : Nat} (keys : Vector Byte Config.utilBits)
    (mask : BitVec Config.utilBits) (hl : Config.layoutOk layout = true) (hn : 1 ≤ n ∧ n ≤ Config.maxPixels)
    (hc : 1 ≤ tCode ∧ tCode < Config.tData) (hr : 1 ≤ tRst) :
    Config.configure layout n tCode tRst keys mask = .ok ⟨layout, hl, n, hn, tCode, hc, tRst, hr, keys, mask⟩ := by
  rw [Config.configure, dif_pos hl, dif_pos hn, dif_pos hc, dif_pos hr]

/-- Settles O60: parameters carry the proofs of their bounds, so admitted ones meet them; the converse is `configure_eq_ok`. -/
theorem configurationRefusesIllFormed : Obligations.ConfigurationRefusesIllFormed := by
  intro layout n tCode tRst keys mask
  constructor
  · rintro ⟨p, -, rfl, rfl, rfl, rfl, -, -⟩
    obtain ⟨hids, hcontrols, hpositions⟩ := (layoutOk_iff_pairwise _).1 p.layout_ok
    obtain ⟨hn1, hn⟩ := p.pixelCount_ok
    obtain ⟨hc1, hc⟩ := p.tCode_ok
    exact ⟨hids, hcontrols, hpositions, hn1, hn, hc1, hc, p.tRstDelay_ok⟩
  · rintro ⟨hids, hcontrols, hpositions, hn1, hn, hc1, hc, hr⟩
    have hl := (layoutOk_iff_pairwise layout).2 ⟨hids, hcontrols, hpositions⟩
    exact ⟨_, configure_eq_ok keys mask hl ⟨hn1, hn⟩ ⟨hc1, hc⟩ hr, rfl, rfl, rfl, rfl, rfl, rfl⟩

end Sys2Proof.Proofs

/-! PROOFS. The family of spec/10_state.md: the reset values (R44), the invariant of the machine (R45), what is left by `rst` alone
(R228, R309, R29), the parameters (R42), and the port word `cs` (R25, R96). -/

namespace Sys2Proof.Proofs

open Sys2Proof Sys2Proof.Machine Sys2Proof.Safety

/-! ### What a step is made of

Every step without `rst` is a chain of elementary changes, each of which writes one block by one operation of that block. A property
of DEC, LFS, CMD or the parameters that each elementary change keeps is kept by the step. -/

/-- One operation of LFS on its buffers of `len` bytes (R181 to R185, R188 to R191). -/
inductive LfsChange (len : Nat) (x : Lfs) : Lfs → Prop
  | setAll (r g b br : Byte) : LfsChange len x (Machine.setAll len r g b br x)
  | writeFront (off : Nat) (v : Byte) : LfsChange len x (Machine.writeFront len off v x)
  | flip : LfsChange len x (Machine.flip len x)
  | arm : LfsChange len x (Machine.arm x)
  | scan : LfsChange len x (scanAdvance len x)

/-- One operation of CMD on its own cells: a byte in a reading state, or a TICK (R222 to R226, R232). -/
inductive CmdChange (p : Config.Params) (c : Cmd) : Cmd → Prop
  | seek (b : Byte) : c.st = .seekMagic → CmdChange p c (seekByte b c)
  | code (b : Byte) : c.st = .readCode → CmdChange p c (codeByte b c)
  | payload : c.st = .readData → CmdChange p c (if c.cnt = p.fbLen - 1 then resync c else { c with cnt := c.cnt + 1 })
  | tick : CmdChange p c (tickCmd p c)

/-- One elementary change: of DEC, of LFS or of CMD by an operation of that block, or of none of them. -/
inductive Change (s : State) : State → Prop
  | dec (m : Snapshot) : Change s (s.withDec (decodeInput s.cfg m s.dec))
  | lfs {x : Lfs} : LfsChange s.cfg.fbLen s.lfs x → Change s (s.withLfs x)
  | cmd {x : Cmd} : CmdChange s.cfg s.cmd x → Change s (s.withCmd x)
  | elsewhere {t : State} : t.cfg = s.cfg → t.dec = s.dec → t.lfs = s.lfs → t.cmd = s.cmd → Change s t

/-- Elementary changes one after another. -/
abbrev Changes : State → State → Prop := Relation.ReflTransGen Change

theorem Changes.keeps {P : State → Prop} (hP : ∀ u v, Change u v → P u → P v) {s t : State} (h : Changes s t) (hs : P s) :
    P t := by
  induction h with
  | refl => exact hs
  | tail _ hchange ih => exact hP _ _ hchange ih

theorem Changes.elsewhere {s t u : State} (h : Changes s t) (hcfg : u.cfg = t.cfg) (hdec : u.dec = t.dec) (hlfs : u.lfs = t.lfs)
    (hcmd : u.cmd = t.cmd) : Changes s u :=
  .tail h (.elsewhere hcfg hdec hlfs hcmd)

theorem changes_ite {s t u : State} (b : Bool) (ht : Changes s t) (hu : Changes s u) : Changes s (if b then t else u) := by
  split
  · exact ht
  · exact hu

/-! The shared operations, in the order of `Ops.lean`. -/

theorem scanStep_changes (s : State) : Changes s (scanStep s) :=
  have advanced : Changes s (s.withLfs (scanAdvance s.cfg.fbLen s.lfs)) := .single (.lfs .scan)
  changes_ite _ (advanced.elsewhere rfl rfl rfl rfl) .refl

theorem scanSteps_changes (n : Nat) (s : State) : Changes s (scanSteps n s) := by
  induction n generalizing s with
  | zero => exact .refl
  | succ n ih => exact (scanStep_changes s).trans (ih _)

/-- A payload byte is a write to FRONT at any offset and the count of the byte. -/
theorem payloadWrite_changes {s : State} (b : Byte) (h : s.cmd.st = .readData) : Changes s (payloadWrite b s) :=
  have written : Changes s (s.withLfs (writeFront s.cfg.fbLen s.cmd.cnt b s.lfs)) := .single (.lfs (.writeFront _ b))
  written.tail (.cmd (.payload h))

theorem receiveByte_changes (b : Byte) (s : State) : Changes s (receiveByte b s) := by
  cases h : s.cmd.st with
  | seekMagic => rw [receiveByte_seekMagic h]; exact .single (.cmd (.seek b h))
  | readCode => rw [receiveByte_readCode h]; exact .single (.cmd (.code b h))
  | readData =>
    rw [receiveByte_readData h, payloadByte]
    have written := payloadWrite_changes b h
    split
    · exact written.tail (.lfs .flip)
    · exact written
  | resetWait => rw [receiveByte_notReading (.inl h)]
  | halted => rw [receiveByte_notReading (.inr h)]

theorem receiveBytes_changes (bs : List Byte) (s : State) : Changes s (receiveBytes bs s) := by
  induction bs generalizing s with
  | nil => exact .refl
  | cons b bs ih => exact (receiveByte_changes b s).trans (ih _)

theorem receiveInCycle_changes (b : Byte) (s : State) : Changes s (receiveInCycle b s) := by
  unfold receiveInCycle
  split
  · exact payloadWrite_changes b ‹_›
  · exact receiveByte_changes b s

theorem completeFlip_changes (s : State) : Changes s (completeFlip s) :=
  have flipped : Changes s (s.withLfs (Machine.flip s.cfg.fbLen s.lfs)) := .single (.lfs .flip)
  changes_ite _ (flipped.elsewhere rfl rfl rfl rfl) .refl

theorem sendGpad1_changes (s : State) : Changes s (sendGpad1 s) := by
  rw [sendGpad1_eq]; exact .elsewhere .refl rfl rfl rfl rfl

theorem sendGpad2_changes (s : State) : Changes s (sendGpad2 s) := by
  rw [sendGpad2_eq]; exact .elsewhere .refl rfl rfl rfl rfl

theorem sendKbd_changes (s : State) : Changes s (sendKbd s) := by
  rw [sendKbd_eq]; exact .elsewhere .refl rfl rfl rfl rfl

theorem repStep_changes (s : State) : Changes s (repStep s) := by
  rw [repStep_eq]; exact .elsewhere .refl rfl rfl rfl rfl

theorem closePoll_changes (i : Instr) (s : State) : Changes s (closePoll i s) := by
  unfold closePoll
  split
  · exact repStep_changes s
  · exact .refl

/-! The instructions, the cycle and the step. -/

theorem nextState_changes (i : Instr) (s : State) : Changes s (nextState i s) := by
  cases i with
  | dbfPush | dbfIdle | dbfMerge | decHold | lfsNop | lfsRsvd5 | lfsRsvd6 | lfsRsvd7 =>
    exact .elsewhere .refl rfl rfl rfl rfl
  | decDecode =>
    have decoded : Changes s (s.withDec (decodeInput s.cfg (mergedOf s.dbf) s.dec)) := .single (.dec _)
    exact decoded.elsewhere rfl rfl rfl rfl
  | lfsSetAll r g b br => exact .single (.lfs (.setAll r g b br))
  | lfsWriteFront off v => exact .single (.lfs (.writeFront off.toNat v))
  | lfsFlip => exact .single (.lfs .flip)
  | lfsArm => exact .single (.lfs .arm)
  | lfsScan => exact scanStep_changes s
  | cmdRx b => exact receiveByte_changes b s
  | cmdTick => exact .single (.cmd .tick)
  | cmdData | cmdRst | cmdUsb | cmdUnknown => exact receiveBytes_changes _ s
  | wireStart | wirePixel | wireEnd => exact changes_ite _ (scanSteps_changes _ s) .refl
  | repGpad x y buttons hotkey =>
    have first : Changes s (if gpad1Report s == gpadBytes x y buttons hotkey then sendGpad1 s else s) :=
      changes_ite _ (sendGpad1_changes s) .refl
    exact changes_ite _ (first.trans (sendGpad2_changes _)) first
  | repKbd => exact changes_ite _ (sendKbd_changes s) .refl

theorem exec_changes {i : Instr} {s t : State} (h : exec i s = .next t) : Changes s t := by
  rw [exec_eq_next] at h
  cases h
  exact nextState_changes i s

theorem runCycle_changes {c : CycleIn} {s t : State} (hrst : c.rst = false) (h : runCycle c s = .next t) : Changes s t := by
  rw [runCycle, if_neg (by simp [hrst])] at h
  refine runCycleOps_keeps (P := Changes s) _ (fun i u v _ hu hexec => ?_) (fun b u _ hu => ?_) ?_ h
  · exact hu.trans ((closePoll_changes i u).trans (exec_changes hexec))
  · exact hu.trans (receiveInCycle_changes b u)
  · exact .elsewhere .refl rfl rfl rfl rfl

/-- A cycle with `rst` is `rst` (R306 (1), R330). -/
theorem eq_applyRst_of_runCycle {c : CycleIn} {s t : State} (hrst : c.rst = true) (h : runCycle c s = .next t) :
    t = applyRst s := by
  rw [runCycle, if_pos hrst] at h
  exact (Host.Outcome.next.inj h).symm

/-- A step resets the machine, which only an asserted `rst` does, or is a chain of elementary changes. -/
theorem step_reset_or_changes {s t : State} (h : step s = .next t) :
    (rstNext s = true ∧ ∃ rest, t = applyRst (s.withInbox rest)) ∨ Changes s t := by
  have taken (rest : List Input) : Changes s (s.withInbox rest) := .elsewhere .refl rfl rfl rfl rfl
  rcases step_cases h with ⟨-, hrun⟩ | ⟨x, rest, hs, hx⟩
  · exact .inr ((repStep_changes s).trans (runCycle_changes rfl hrun))
  · rcases hx with ⟨w, i, -, -, hexec⟩ | ⟨w, -, -, rfl⟩ | ⟨rfl, rfl⟩ | ⟨u, -, rfl⟩ | ⟨-, rfl⟩ | ⟨c, rfl, hrun⟩
    · exact .inr ((taken rest).trans ((completeFlip_changes _).trans ((closePoll_changes i _).trans (exec_changes hexec))))
    · exact .inr (taken rest)
    · exact .inl ⟨by simp [rstNext, hs], rest, rfl⟩
    · exact .inr ((taken rest).elsewhere rfl rfl rfl rfl)
    · exact .inr ((taken rest).trans (repStep_changes _))
    · cases hrst : c.rst with
      | true => exact .inl ⟨by simp [rstNext, hs, hrst], rest, eq_applyRst_of_runCycle hrst hrun⟩
      | false => exact .inr ((taken rest).trans (runCycle_changes hrst hrun))

/-- Without `rst` only the elementary changes remain. -/
theorem changes_of_step {s t : State} (hrst : rstNext s = false) (h : step s = .next t) : Changes s t := by
  rcases step_reset_or_changes h with ⟨hrst', -⟩ | hchanges
  · rw [hrst] at hrst'; cases hrst'
  · exact hchanges

/-! ### The parameters -/

theorem Change.cfg_eq {s t : State} (h : Change s t) : t.cfg = s.cfg := by
  cases h with
  | elsewhere hcfg => exact hcfg
  | _ => rfl

/-- Settles O51: no elementary change writes the parameters, and `rst` keeps them (R332). -/
theorem stepKeepsParameters : Obligations.StepKeepsParameters := by
  intro s t h
  rcases step_reset_or_changes h with ⟨-, rest, rfl⟩ | hchanges
  · rfl
  · exact hchanges.keeps (P := fun u => u.cfg = s.cfg) (fun _ _ hchange hu => hchange.cfg_eq.trans hu) rfl

/-! ### The scanner stays armed -/

/-- Only ARM writes `armed`, and it sets it (R185). -/
theorem LfsChange.keeps_armed {len : Nat} {x y : Lfs} (h : LfsChange len x y) (hx : x.armed = true) : y.armed = true := by
  cases h with
  | setAll | flip => exact hx
  | writeFront => rw [writeFront_frame]; exact hx
  | arm => rw [Machine.arm, if_pos hx]; exact hx
  | scan =>
    obtain ⟨m, ph, i, hscan, -⟩ := scanAdvance_frame len x
    rw [hscan]; exact hx

theorem Change.keeps_armed {s t : State} (h : Change s t) (hs : s.lfs.armed = true) : t.lfs.armed = true := by
  cases h with
  | dec | cmd => exact hs
  | lfs hlfs => exact hlfs.keeps_armed hs
  | elsewhere _ _ hlfs => rw [hlfs]; exact hs

/-- Settles O52, from `LfsChange.keeps_armed`. -/
theorem armedUntilReset : Obligations.ArmedUntilReset := fun _ _ hrst h =>
  (changes_of_step hrst h).keeps (P := fun u => u.lfs.armed = true) (fun _ _ => Change.keeps_armed)

/-! ### A reset command is final -/

/-- EXPIRE in one equation: the commanded request is raised, the other one is as before (R236). -/
theorem expire_eq (c : Cmd) : expire c = { c with
    st := .halted, timer := 0, resetReq := c.resetReq || c.kind == .rst, bootReq := c.bootReq || c.kind == .usb } := by
  unfold expire
  cases hk : c.kind <;> simp

theorem tickCmd_halted (p : Config.Params) {c : Cmd} (h : c.st = .halted) : tickCmd p c = c := by simp only [tickCmd, h]

theorem tickCmd_resetWait (p : Config.Params) {c : Cmd} (h : c.st = .resetWait) :
    tickCmd p c = if c.timer + 1 ≥ p.tRstDelay then expire c else { c with timer := c.timer + 1 } := by
  simp only [tickCmd, h]

/-- In RESET_WAIT and HALTED no byte is taken (R238), so a TICK is the only operation of CMD. -/
theorem CmdChange.eq_tick {p : Config.Params} {c d : Cmd} (h : CmdChange p c d) (hc : ResetPending c) : d = tickCmd p c := by
  cases h with
  | tick => rfl
  | seek _ hst | code _ hst | payload hst => rcases hc with hc | hc <;> rw [hst] at hc <;> cases hc

theorem CmdChange.keeps_resetPending {p : Config.Params} {c d : Cmd} (h : CmdChange p c d) (hc : ResetPending c) :
    ResetPending d := by
  rw [h.eq_tick hc]
  rcases hc with hc | hc
  · rw [tickCmd_resetWait p hc, expire_eq]
    split
    · exact .inr rfl
    · exact .inl hc
  · rw [tickCmd_halted p hc]; exact .inr hc

theorem CmdChange.eq_self_of_halted {p : Config.Params} {c d : Cmd} (h : CmdChange p c d) (hc : c.st = .halted) : d = c :=
  (h.eq_tick (.inr hc)).trans (tickCmd_halted p hc)

/-- CMD is on its way to HALTED, and as in `c` if it is there in `c`. -/
def PendingSince (c d : Cmd) : Prop := ResetPending d ∧ (c.st = .halted → d = c)

theorem Change.keeps_pendingSince {c : Cmd} {s t : State} (h : Change s t) (hs : PendingSince c s.cmd) :
    PendingSince c t.cmd := by
  cases h with
  | dec | lfs => exact hs
  | cmd hcmd =>
    obtain ⟨hpending, hhalted⟩ := hs
    refine ⟨hcmd.keeps_resetPending hpending, fun hc => ?_⟩
    have hsame := hhalted hc
    exact (hcmd.eq_self_of_halted (by rw [hsame]; exact hc)).trans hsame
  | elsewhere _ _ _ hcmd => rw [hcmd]; exact hs

/-- Settles O46, from `CmdChange.eq_tick`. -/
theorem resetCommandIsFinal : Obligations.ResetCommandIsFinal := fun s _ hrst h hs =>
  (changes_of_step hrst h).keeps (P := fun u => PendingSince s.cmd u.cmd) (fun _ _ => Change.keeps_pendingSince)
    ⟨hs, fun _ => rfl⟩

/-! ### The invariant at reset -/

@[simp] theorem backDefault_header (i : Nat) : backDefault (4 * i) = Config.pixMarker := by simp [backDefault]

theorem backDefault_colour {a : Nat} (h : a % 4 ≠ 0) : backDefault a = 0x00 := by simp [backDefault, h]

theorem decInv_reset : DecInv Dec.reset := ⟨.inr (.inl rfl), .inr (.inl rfl), .inr (.inl rfl), .inr (.inl rfl)⟩

theorem lfsInv_reset (len : Nat) : LfsInv len Lfs.reset where
  frontWf := Memory.wf_nil ..
  backWf := Memory.wf_nil ..
  scanWf := Memory.wf_nil ..
  backHeader i _ := by show (backDefault (4 * i)).extractLsb' 5 3 = _; rw [backDefault_header]; rfl
  scanHeader i _ := by show (backDefault (4 * i)).extractLsb' 5 3 = _; rw [backDefault_header]; rfl
  idxInPhase := Nat.zero_lt_succ _

theorem cmdInv_reset (p : Config.Params) : CmdInv p Cmd.reset where
  midxOnlyInSeek _ := rfl
  cntInRange := Nat.one_pos
  timerInRange := show 0 < Config.tMagic by decide
  requestsExclusive := by decide
  requestsOnlyHalted := by decide

/-- `rst` establishes the invariant from every state. -/
theorem inv_applyRst (s : State) : Inv (applyRst s) := ⟨decInv_reset, lfsInv_reset _, cmdInv_reset _⟩

/-- Settles O47: each block's invariant holds of its reset value. -/
theorem resetMeetsInvariant : Obligations.ResetMeetsInvariant := ⟨decInv_reset, lfsInv_reset _, cmdInv_reset _⟩

/-- Settles O49: nothing is listed in a buffer at reset, so it reads as its reset contents. -/
theorem resetValues : Obligations.ResetValues := by
  refine ⟨rfl, rfl, rfl, rfl, fun _ _ => rfl, fun i _ => ⟨?_, ?_, ?_, ?_⟩, fun _ _ => rfl, rfl, rfl, rfl, rfl⟩
  · exact backDefault_header i
  · exact backDefault_colour (by omega)
  · exact backDefault_colour (by omega)
  · exact backDefault_colour (by omega)

/-! ### The invariant of DEC -/

/-- Every axis is legal after a DECODE (R96, R154, R155). -/
theorem decInv_decodeInput (p : Config.Params) (m : Snapshot) (d : Dec) : DecInv (decodeInput p m d) :=
  ⟨axisValue_legal .., axisValue_legal .., axisValue_legal .., axisValue_legal ..⟩

/-! ### The invariant of LFS -/

/-- R196: FLIP leaves marked headers. -/
theorem header_flip {len : Nat} (x : Lfs) {i : Nat} (hi : 4 * i < len) :
    (readBack (Machine.flip len x) (4 * i)).extractLsb' 5 3 = 0b111#3 := by
  rw [readBack_flip, if_pos hi, reformat_0, pixMarker_or]
  exact Laws.extract_high ..

/-- SCAN keeps `idx` inside its phase (R31, R188 to R190). -/
theorem scanAdvance_idxInPhase {len : Nat} {x : Lfs} (hlen : 0 < len) (h : x.idx < phaseLen len x.phase) :
    (scanAdvance len x).idx < phaseLen len (scanAdvance len x).phase := by
  have advance {n : Nat} (hn : x.idx < n) (hlast : ¬ x.idx = n - 1) : x.idx + 1 < n := by omega
  unfold scanAdvance
  cases hp : x.phase <;> rw [hp] at h <;> simp only
  case start =>
    split
    · exact hlen
    · have hnext := advance h ‹_›
      split <;> simpa [hp] using hnext
  case pixels | ending =>
    split
    · exact Nat.zero_lt_succ _
    · simpa [hp] using advance h ‹_›

/-- Every operation of LFS keeps its invariant. -/
theorem LfsChange.keeps_inv {len : Nat} (hlen : 0 < len) {x y : Lfs} (h : LfsChange len x y) (hx : LfsInv len x) :
    LfsInv len y := by
  cases h with
  | setAll => exact { hx with frontWf := Memory.wf_fill .. }
  | writeFront off v =>
    unfold Machine.writeFront
    split
    · exact { hx with frontWf := Memory.wf_write hx.frontWf ‹_› }
    · exact hx
  | flip => exact { hx with backWf := Memory.wf_fill .., backHeader := fun i hi => header_flip x hi }
  | arm =>
    unfold Machine.arm
    split
    · exact hx
    · exact { hx with idxInPhase := Nat.zero_lt_succ _ }
  | scan =>
    have hidx := scanAdvance_idxInPhase hlen hx.idxInPhase
    obtain ⟨m, ph, i, hscan, rfl | ⟨-, -, rfl⟩⟩ := scanAdvance_frame len x
    · rw [hscan] at hidx ⊢
      exact { hx with idxInPhase := hidx }
    · rw [hscan] at hidx ⊢
      exact { hx with scanWf := hx.backWf, scanHeader := hx.backHeader, idxInPhase := hidx }

/-! ### The invariant of CMD -/

theorem fbLen_pos (p : Config.Params) : 0 < p.fbLen := Nat.mul_pos (by decide) p.pixelCount_ok.1

theorem timerBound_pos (p : Config.Params) (st : CmdState) : 0 < timerBound p st := by
  cases st with
  | seekMagic | readData | halted => exact Nat.zero_lt_succ _
  | readCode => exact p.tCode_ok.1
  | resetWait => exact p.tRstDelay_ok

theorem cntBound_pos (p : Config.Params) (st : CmdState) : 0 < cntBound p st := by
  cases st with
  | readData => exact fbLen_pos p
  | _ => exact Nat.zero_lt_succ _

section
variable {p : Config.Params} {c : Cmd}

/-- Outside HALTED the requests are low, so a move that does not write them needs its ranges alone. -/
theorem cmdInv_move (h : CmdInv p c) (hst : c.st ≠ .halted) {st : CmdState} {midx : Fin Config.magicLen}
    (code : Vector Byte Config.codeLen) {cnt timer : Nat} (kind : ResetKind) (hmidx : st ≠ .seekMagic → midx = 0)
    (hcnt : cnt < cntBound p st) (htimer : timer < timerBound p st) :
    CmdInv p { c with st := st, midx := midx, code := code, cnt := cnt, timer := timer, kind := kind } where
  midxOnlyInSeek := hmidx
  cntInRange := hcnt
  timerInRange := htimer
  requestsExclusive := h.requestsExclusive
  requestsOnlyHalted hreq := absurd (h.requestsOnlyHalted hreq) hst

/-- The return to SEEK_MAGIC meets the invariant. -/
theorem cmdInv_resync (h : CmdInv p c) (hst : c.st ≠ .halted) : CmdInv p (resync c) :=
  cmdInv_move h hst c.code c.kind (fun _ => rfl) (cntBound_pos ..) (timerBound_pos ..)

theorem cmdInv_seekByte (h : CmdInv p c) (hst : c.st = .seekMagic) (b : Byte) : CmdInv p (seekByte b c) := by
  have hrun : c.st ≠ .halted := by rw [hst]; decide
  by_cases hb : b = magic.get c.midx
  · by_cases hlast : c.midx.val = 10
    · rw [seekByte_last hb hlast]
      exact cmdInv_move h hrun c.code c.kind (fun _ => rfl) (cntBound_pos ..) (timerBound_pos ..)
    · rw [seekByte_next hb (Nat.lt_of_le_of_ne (Nat.le_of_lt_succ c.midx.isLt) hlast)]
      exact cmdInv_move h hrun c.code c.kind (fun hne => absurd hst hne) h.cntInRange (timerBound_pos ..)
  · rw [seekByte_mismatch hb]
    exact cmdInv_move h hrun c.code c.kind (fun hne => absurd hst hne) h.cntInRange (timerBound_pos ..)

theorem cmdInv_dispatch (h : CmdInv p c) (hst : c.st = .readCode) : CmdInv p (dispatch c) := by
  have hrun : c.st ≠ .halted := by rw [hst]; decide
  have hmidx : c.midx = 0 := h.midxOnlyInSeek (by rw [hst]; decide)
  have move (st : CmdState) (kind : ResetKind) : CmdInv p { c with st := st, cnt := 0, timer := 0, kind := kind } :=
    cmdInv_move h hrun c.code kind (fun _ => hmidx) (cntBound_pos ..) (timerBound_pos ..)
  rcases dispatch_cases c with ⟨-, hd⟩ | ⟨-, hd⟩ | ⟨-, hd⟩ | ⟨-, -, -, hd⟩ <;> rw [hd]
  · exact move .readData c.kind
  · exact move .resetWait .rst
  · exact move .resetWait .usb
  · exact cmdInv_resync h hrun

theorem cmdInv_codeByte (h : CmdInv p c) (hst : c.st = .readCode) (b : Byte) : CmdInv p (codeByte b c) := by
  have hrun : c.st ≠ .halted := by rw [hst]; decide
  have hcnt : c.cnt < Config.codeLen := by have := h.cntInRange; rwa [hst] at this
  have stored (n : Nat) (hn : n < Config.codeLen) : CmdInv p { c with code := c.code.setIfInBounds c.cnt b, cnt := n } :=
    cmdInv_move h hrun _ c.kind h.midxOnlyInSeek (by rw [hst]; exact hn) h.timerInRange
  unfold codeByte
  split
  · exact cmdInv_dispatch (stored c.cnt hcnt) hst
  · exact stored (c.cnt + 1) (by omega)

theorem cmdInv_payload (h : CmdInv p c) (hst : c.st = .readData) :
    CmdInv p (if c.cnt = p.fbLen - 1 then resync c else { c with cnt := c.cnt + 1 }) := by
  have hrun : c.st ≠ .halted := by rw [hst]; decide
  have hcnt : c.cnt < p.fbLen := by have := h.cntInRange; rwa [hst] at this
  split
  · exact cmdInv_resync h hrun
  · exact cmdInv_move h hrun c.code c.kind h.midxOnlyInSeek (by rw [hst]; show c.cnt + 1 < p.fbLen; omega) h.timerInRange

/-- EXPIRE raises one request, both of which were low (R236). -/
theorem cmdInv_expire (h : CmdInv p c) (hst : c.st = .resetWait) : CmdInv p (expire c) := by
  have low : ¬ (c.resetReq = true ∨ c.bootReq = true) := fun hreq => by
    have := h.requestsOnlyHalted hreq
    rw [hst] at this; cases this
  rw [expire_eq]
  refine ⟨fun _ => h.midxOnlyInSeek (by rw [hst]; decide), ?_, timerBound_pos p .halted, ?_, fun _ => rfl⟩
  · have := h.cntInRange
    rwa [hst] at this
  · cases hk : c.kind <;> simp_all

/-- A TICK that only counts stays below the bound of its state (R232 to R236). -/
theorem tickCmd_timerInRange (h : c.timer < timerBound p c.st) : (tickCmd p c).timer < timerBound p (tickCmd p c).st := by
  unfold tickCmd
  cases hst : c.st <;> rw [hst] at h <;> simp only
  case seekMagic =>
    split
    · exact timerBound_pos ..
    · split
      · exact timerBound_pos ..
      · exact Nat.lt_of_not_ge ‹_›
  case readCode | readData =>
    split
    · exact timerBound_pos ..
    · exact Nat.lt_of_not_ge ‹_›
  case resetWait =>
    split
    · rw [expire_eq]; exact timerBound_pos ..
    · exact Nat.lt_of_not_ge ‹_›
  case halted => rwa [hst]

theorem cmdInv_tickCmd (h : CmdInv p c) : CmdInv p (tickCmd p c) := by
  have htimer := tickCmd_timerInRange h.timerInRange
  rcases tickCmd_cases p c with ⟨n, ht⟩ | ⟨hst, ht⟩ | ⟨hst, ht⟩ | ⟨hst, ht⟩ <;> rw [ht] at htimer ⊢
  · exact { h with timerInRange := htimer }
  · exact { h with timerInRange := htimer, midxOnlyInSeek := fun _ => rfl }
  · exact cmdInv_resync h (by rcases hst with hst | hst <;> rw [hst] <;> decide)
  · exact cmdInv_expire h hst

/-- Every operation of CMD keeps its invariant. -/
theorem CmdChange.keeps_inv {d : Cmd} (h : CmdChange p c d) (hc : CmdInv p c) : CmdInv p d := by
  cases h with
  | seek b hst => exact cmdInv_seekByte hc hst b
  | code b hst => exact cmdInv_codeByte hc hst b
  | payload hst => exact cmdInv_payload hc hst
  | tick => exact cmdInv_tickCmd hc

end

/-! ### The invariant of the machine -/

theorem Change.keeps_inv {s t : State} (h : Change s t) (hs : Inv s) : Inv t := by
  cases h with
  | dec m => exact { hs with dec := decInv_decodeInput s.cfg m s.dec }
  | lfs hlfs => exact { hs with lfs := hlfs.keeps_inv (fbLen_pos s.cfg) hs.lfs }
  | cmd hcmd => exact { hs with cmd := hcmd.keeps_inv hs.cmd }
  | elsewhere hcfg hdec hlfs hcmd =>
    exact ⟨by rw [hdec]; exact hs.dec, by rw [hcfg, hlfs]; exact hs.lfs, by rw [hcfg, hcmd]; exact hs.cmd⟩

/-- Settles O48: `rst` establishes the invariant, and every elementary change keeps it. -/
theorem stepKeepsInvariant : Obligations.StepKeepsInvariant := by
  intro s t hs h
  rcases step_reset_or_changes h with ⟨-, rest, rfl⟩ | hchanges
  · exact inv_applyRst _
  · exact hchanges.keeps (fun _ _ => Change.keeps_inv) hs

/-! ### The port word `cs` -/

/-- A field above the lowest one of a concatenation is a field of what stands above. -/
theorem extract_above {n m len : Nat} (x : BitVec n) (y : BitVec m) {start : Nat} {v : BitVec len} (hstart : m ≤ start)
    (h : x.extractLsb' (start - m) len = v) : (x ++ y).extractLsb' start len = v :=
  (Laws.extract_in_high x y hstart).trans h

/-- Settles O19: taking off the fields below brings each field to the bottom of what is left; `changed` is the last one left. -/
theorem portWordPacksState : Obligations.PortWordPacksState := by
  intro d
  have changed : (csWord d).extractLsb' 62 1 = BitVec.ofBool d.changed := by
    repeat refine extract_above _ _ (by decide) ?_
    exact BitVec.extractLsb'_eq_self
  refine ⟨?p1, ?p2, ?util, ?p1x, ?p1y, ?p2x, ?p2y, ?changed⟩
  case changed => simpa using congrArg (·.getLsbD 0) changed
  all_goals
    repeat refine extract_above _ _ (by decide) ?_
    exact Laws.extract_low ..

end Sys2Proof.Proofs

/-! PROOFS. The family of spec/30_encoding.md: the words of the table and their decoder (R104 to R119), the rows of LAYOUT (R94),
the units and passes of the strand stream (R98 to R102), MAGIC (R105), the ports of LFS in a clock cycle (R115, R117), and the two
report formats (R109, R110). -/

namespace Sys2Proof.Proofs

open Sys2Proof Sys2Proof.Machine Sys2Proof.Safety Sys2Proof.Laws

/-! ### Decoding an encoded word

One equation per format with operands: the decoder on the fields that the encoder concatenates. -/

/-- F-LFSREQ with free `op`, `off` and `data` (R115). -/
theorem decode_lfsReq (op : BitVec 3) (off : BitVec 16) (data : BitVec 32) :
    decode (.lfsReq (op ++ (off ++ data))) = .ok (decodeLfs op off data) := by
  show Except.ok (decodeLfs ((op ++ (off ++ data)).extractLsb' 48 3) ((op ++ (off ++ data)).extractLsb' 32 16)
    ((op ++ (off ++ data)).extractLsb' 0 32)) = _
  rw [extract_high op (off ++ data), extract_in_low op (off ++ data) (by decide), extract_high off data,
    extract_in_low op (off ++ data) (by decide), extract_low off data]

theorem decode_dbfReq_push (snap : Snapshot) : decode (.dbfReq (1#1 ++ snap)) = .ok (.dbfPush snap) :=
  (if_pos (top_bit snap)).trans (congrArg (Except.ok ∘ Instr.dbfPush) (extract_low 1#1 snap))

theorem decode_rxByte (b : Byte) : decode (.rxByte (1#1 ++ b)) = .ok (.cmdRx b) :=
  (if_pos (top_bit b)).trans (congrArg (Except.ok ∘ Instr.cmdRx) (extract_low 1#1 b))

/-- F-CMDFRAME: MAGIC and any four code bytes (R104). -/
theorem decode_cmdFrame (code : BitVec 32) : decode (.cmdFrame (magicWord ++ code)) = .ok (decodeCode code) :=
  (if_pos (extract_high magicWord code)).trans (congrArg (Except.ok ∘ decodeCode) (extract_low magicWord code))

theorem decodeCode_of_unknown {code : BitVec 32} (h : knownCode code = false) : decodeCode code = .cmdUnknown code := by
  simp only [knownCode, Bool.or_eq_false_iff, beq_eq_false_iff_ne] at h
  obtain ⟨⟨hdata, hrst⟩, husb⟩ := h
  rw [decodeCode, if_neg hdata, if_neg hrst, if_neg husb]

/-- Bytes of a word of four. -/
theorem extract_bytes (a b c d : Byte) : (a ++ b ++ c ++ d).extractLsb' 24 8 = a ∧ (a ++ b ++ c ++ d).extractLsb' 16 8 = b ∧
    (a ++ b ++ c ++ d).extractLsb' 8 8 = c ∧ (a ++ b ++ c ++ d).extractLsb' 0 8 = d := by
  refine ⟨?_, ?_, ?_, extract_low _ d⟩
  · exact extract_above _ _ (by decide) (extract_above _ _ (by decide) (extract_high a b))
  · exact extract_above _ _ (by decide) (extract_above _ _ (by decide) (extract_low a b))
  · exact extract_above _ _ (by decide) (extract_low (a ++ b) c)

theorem decode_lfsSetAll (r g b br : Byte) : decode (encode (.lfsSetAll r g b br)) = .ok (.lfsSetAll r g b br) := by
  obtain ⟨hbr, hb, hg, hr⟩ := extract_bytes br b g r
  refine (decode_lfsReq 0b001#3 0#16 (br ++ b ++ g ++ r)).trans (congrArg Except.ok ?_)
  show Instr.lfsSetAll ((br ++ b ++ g ++ r).extractLsb' 0 8) ((br ++ b ++ g ++ r).extractLsb' 8 8)
    ((br ++ b ++ g ++ r).extractLsb' 16 8) ((br ++ b ++ g ++ r).extractLsb' 24 8) = _
  rw [hbr, hb, hg, hr]

theorem decode_lfsWriteFront (off : BitVec 16) (v : Byte) :
    decode (encode (.lfsWriteFront off v)) = .ok (.lfsWriteFront off v) :=
  (decode_lfsReq 0b010#3 off (0#24 ++ v)).trans (congrArg (Except.ok ∘ Instr.lfsWriteFront off) (extract_low 0#24 v))

/-- F-BACKPIX on the strand (R98). -/
theorem decode_wirePixel (w : BitVec 5) (b g r : Byte) :
    decode (encode (.wirePixel w b g r)) = .ok (.wirePixel w b g r) := by
  have hmark : (0b111#3 ++ (w ++ (b ++ g ++ r))).extractLsb' 29 3 = 0b111#3 := extract_high 0b111#3 (w ++ (b ++ g ++ r))
  have hw : (0b111#3 ++ (w ++ (b ++ g ++ r))).extractLsb' 24 5 = w :=
    (extract_in_low 0b111#3 _ (by decide)).trans (extract_high w (b ++ g ++ r))
  have hbgr {start : Nat} (h : start + 8 ≤ 24) :
      (0b111#3 ++ (w ++ (b ++ g ++ r))).extractLsb' start 8 = (b ++ g ++ r).extractLsb' start 8 :=
    (extract_in_low 0b111#3 _ (by omega)).trans (extract_in_low w _ h)
  have hb := (hbgr (start := 16) (by decide)).trans (extract_above _ _ (by decide) (extract_high b g))
  have hg := (hbgr (start := 8) (by decide)).trans (extract_above _ _ (by decide) (extract_low b g))
  have hr := (hbgr (start := 0) (by decide)).trans (extract_low (b ++ g) r)
  refine (if_pos hmark).trans (congrArg Except.ok ?_)
  show Instr.wirePixel ((0b111#3 ++ (w ++ (b ++ g ++ r))).extractLsb' 24 5)
    ((0b111#3 ++ (w ++ (b ++ g ++ r))).extractLsb' 16 8) ((0b111#3 ++ (w ++ (b ++ g ++ r))).extractLsb' 8 8)
    ((0b111#3 ++ (w ++ (b ++ g ++ r))).extractLsb' 0 8) = _
  rw [hw, hb, hg, hr]

/-- The two fields of a button mask that F-GPAD carries make it up (R109). -/
theorem buttons_of_fields (m : BitVec 12) : m.extractLsb' 8 4 ++ m.extractLsb' 0 8 = m :=
  (BitVec.extractLsb'_append_extractLsb'_eq_extractLsb' rfl).trans BitVec.extractLsb'_eq_self

/-- F-GPAD, its button mask in two fields (R109). -/
theorem decode_gpad (x y low : Byte) (hot : Bool) (high : BitVec 4) :
    decode (.gpad (x ++ (y ++ (low ++ (0b000#3 ++ (BitVec.ofBool hot ++ high)))))) =
      .ok (.repGpad x y (high ++ low) hot) := by
  obtain ⟨last, hlast⟩ : ∃ last : BitVec (3 + (1 + 4)), last = 0b000#3 ++ (BitVec.ofBool hot ++ high) := ⟨_, rfl⟩
  have hzero : last.extractLsb' 5 3 = 0b000#3 := hlast ▸ extract_high 0b000#3 _
  have hhigh : last.extractLsb' 0 4 = high := hlast ▸ (extract_in_low 0b000#3 _ (by decide)).trans (extract_low _ high)
  have hhot : last.extractLsb' 4 1 = BitVec.ofBool hot :=
    hlast ▸ (extract_in_low 0b000#3 _ (by decide)).trans (extract_high _ high)
  have inLast {start len : Nat} (h : start + len ≤ 8) :
      (x ++ (y ++ (low ++ last))).extractLsb' start len = last.extractLsb' start len := by
    rw [extract_in_low x _ (by omega), extract_in_low y _ (by omega), extract_in_low low _ h]
  have hbit : (x ++ (y ++ (low ++ last))).getLsbD 4 = hot := by
    simpa using congrArg (·.getLsbD 0) ((inLast (start := 4) (len := 1) (by decide)).trans hhot)
  rw [← hlast]
  refine (if_pos ((inLast (by decide)).trans hzero)).trans (congrArg Except.ok ?_)
  show Instr.repGpad ((x ++ (y ++ (low ++ last))).extractLsb' 24 8) ((x ++ (y ++ (low ++ last))).extractLsb' 16 8)
    ((x ++ (y ++ (low ++ last))).extractLsb' 0 4 ++ (x ++ (y ++ (low ++ last))).extractLsb' 8 8)
    ((x ++ (y ++ (low ++ last))).getLsbD 4) = _
  rw [inLast (start := 0) (by decide), hhigh, hbit, extract_high x _, extract_in_low x _ (by decide), extract_high y _,
    extract_in_low x _ (by decide), extract_in_low y _ (by decide), extract_high low last]

theorem decode_repGpad (x y : Byte) (m : BitVec 12) (hot : Bool) :
    decode (encode (.repGpad x y m hot)) = .ok (.repGpad x y m hot) :=
  (decode_gpad x y (m.extractLsb' 0 8) hot (m.extractLsb' 8 4)).trans
    (congrArg (fun mask => Except.ok (Instr.repGpad x y mask hot)) (buttons_of_fields m))

/-- F-KBD (R110). -/
theorem decode_repKbd (k0 k1 k2 k3 k4 k5 : Byte) :
    decode (encode (.repKbd k0 k1 k2 k3 k4 k5)) = .ok (.repKbd k0 k1 k2 k3 k4 k5) := by
  have inSlots {start : Nat} {k : Byte} (h : start + 8 ≤ 48)
      (hk : (k0 ++ k1 ++ k2 ++ k3 ++ k4 ++ k5).extractLsb' start 8 = k) :
      (0#16 ++ (k0 ++ k1 ++ k2 ++ k3 ++ k4 ++ k5)).extractLsb' start 8 = k :=
    (extract_in_low 0#16 _ h).trans hk
  refine (if_pos (extract_high 0#16 (k0 ++ k1 ++ k2 ++ k3 ++ k4 ++ k5))).trans (congrArg Except.ok ?_)
  rw [Instr.repKbd.injEq]
  refine ⟨inSlots (by decide) ?first, inSlots (by decide) ?_, inSlots (by decide) ?_, inSlots (by decide) ?_,
    inSlots (by decide) ?_, inSlots (by decide) ?_⟩
  case first =>
    repeat refine extract_above _ _ (by decide) ?_
    exact BitVec.extractLsb'_eq_self
  all_goals
    repeat refine extract_above _ _ (by decide) ?_
    exact extract_low ..

/-- Settles O3: one equation per format; the words without operands are closed terms. -/
theorem decodeOfEncode : Obligations.DecodeOfEncode := by
  intro i hi
  cases i with
  | dbfPush snap => exact decode_dbfReq_push snap
  | lfsSetAll r g b br => exact decode_lfsSetAll r g b br
  | lfsWriteFront off v => exact decode_lfsWriteFront off v
  | cmdRx b => exact decode_rxByte b
  | cmdData | cmdRst | cmdUsb => exact decode_cmdFrame _
  | cmdUnknown code =>
    have hcode : knownCode code = false := by simpa [Instr.wf] using hi
    exact (decode_cmdFrame code).trans (congrArg Except.ok (decodeCode_of_unknown hcode))
  | wirePixel w b g r => exact decode_wirePixel w b g r
  | repGpad x y m hot => exact decode_repGpad x y m hot
  | repKbd k0 k1 k2 k3 k4 k5 => exact decode_repKbd k0 k1 k2 k3 k4 k5
  | _ => rfl

/-! ### What the decoder answers -/

theorem decodeLfs_wf (op : BitVec 3) (off : BitVec 16) (data : BitVec 32) : (decodeLfs op off data).wf = true := by
  unfold decodeLfs
  repeat' split
  all_goals rfl

/-- R106, R108: a known code is never answered as CMD.UNKNOWN. -/
theorem decodeCode_wf (code : BitVec 32) : (decodeCode code).wf = true := by
  unfold decodeCode
  split
  · rfl
  split
  · rfl
  split
  · rfl
  · simp [Instr.wf, knownCode, *]

theorem wf_of_decode {w : PortWord} {i : Instr} (h : decode w = .ok i) : i.wf = true := by
  cases w with
  | lfsReq w => cases h; exact decodeLfs_wf ..
  | cmdFrame w =>
    simp only [decode] at h
    split at h
    · cases h; exact decodeCode_wf _
    · cases h
  | mergeRead => cases h; rfl
  | other => cases h
  | dbfReq | decReq | txStep | rxByte | tick | wirePix | gpad | kbd =>
    simp only [decode] at h
    split at h <;> cases h <;> rfl
  | wireFrame w =>
    simp only [decode] at h
    split at h
    · cases h; rfl
    · split at h <;> cases h; rfl

/-- Settles O4: what is decoded is well formed, so it is the decoding of its own word. -/
theorem decodedIsWellFormed : Obligations.DecodedIsWellFormed := fun _ i h =>
  have hi := wf_of_decode h
  ⟨hi, decodeOfEncode i hi⟩

/-- Settles O2: both sides of each row are closed terms. -/
theorem writtenWordsDecode : Obligations.WrittenWordsDecode :=
  ⟨rfl, rfl, rfl, rfl, rfl, rfl, rfl, rfl, rfl, rfl, rfl, rfl, rfl, rfl, rfl, rfl⟩

/-! ### Steps in which nothing is requested -/

theorem step_of_notRequested {s : State} {w : PortWord} {rest : List Input} (hs : s.inbox = .word w :: rest)
    (hw : decode w = .error .notRequested) : step s = .next (s.withInbox rest) := by
  simp only [step, takeNext, hs, takeInput, hw]

/-- The idle cycle holds HOLD, IDLE and no other operation when nothing is outstanding (entries 13, 14). -/
theorem cycleOps_idle {s : State} (hx : s.cmdExtra = false) (hq : s.initQ = []) :
    cycleOps CycleIn.idle s = [.op .decHold, .op .dbfIdle] := by
  simp [cycleOps, CycleIn.idle, rxTaken, lfsRequests, hx, initWaiting, hq]

theorem runCycle_idle {s : State} (hx : s.cmdExtra = false) (hq : s.initQ = []) : runCycle CycleIn.idle s = .next s := by
  have hready : initReady CycleIn.idle s = true := by simp [initReady, cmdRequests, rxTaken, CycleIn.idle, hx]
  have hwaiting : initWaiting CycleIn.idle s = s.initQ := List.append_nil _
  rw [runCycle, if_neg (by decide), cycleOps_idle hx hq, hready, hwaiting]
  cases s
  subst hx hq
  rfl

/-- Settles O5: `runCycle_idle` with no input, `step_of_notRequested` for the strobes at 0. -/
theorem nothingRequestedChangesNothing : Obligations.NothingRequestedChangesNothing := by
  intro s rest
  refine ⟨fun hs hdue hx hq => ?_, fun w hw hs => ?_, fun hs => ?_, fun hs => ?_⟩
  · simp only [step, takeNext, hs, repStep_of_none hdue, runCycle_idle hx hq]
  · exact step_of_notRequested hs (if_neg (ne_true_of_eq_false hw))
  · exact step_of_notRequested hs rfl
  · exact step_of_notRequested hs rfl

/-! ### LAYOUT -/

/-- The row that names a control gives its position: in a well-formed LAYOUT no other row names it (R94). -/
theorem layoutSrc_of_row (p : Config.Params) {r : BitVec 12} {c : Control} (hr : r ∈ p.layout)
    (hc : (r.extractLsb' 0 6).toNat = controlId c) :
    layoutSrc p.layout c = some ((r.extractLsb' 9 3).toNat, (r.extractLsb' 6 3).toNat) := by
  obtain ⟨-, hcontrols, -⟩ := (layoutOk_iff p.layout).1 p.layout_ok
  obtain ⟨q, hq⟩ := Option.isSome_iff_exists.1
    (List.find?_isSome (p := fun r => (r.extractLsb' 0 6).toNat == controlId c) |>.2 ⟨r, hr, by simpa using hc⟩)
  have hqc : (q.extractLsb' 0 6).toNat = controlId c := by simpa using List.find?_some hq
  have hqr : q = r := List.inj_on_of_nodup_map hcontrols (List.mem_of_find?_eq_some hq) hr
    (BitVec.eq_of_toNat_eq (hqc.trans hc.symm))
  rw [layoutSrc, hq, hqr]
  rfl

theorem layoutSrc_of_no_row {layout : List (BitVec 12)} {c : Control}
    (h : ∀ r ∈ layout, (r.extractLsb' 0 6).toNat ≠ controlId c) : layoutSrc layout c = none := by
  rw [layoutSrc, List.find?_eq_none.2 (by simpa using h)]
  rfl

/-- Settles O13, from the two cases of `layoutSrc`. -/
theorem controlBitReadsItsRow : Obligations.ControlBitReadsItsRow := by
  intro p m c
  refine ⟨fun r hr hc => ?_, fun h => ?_⟩
  · rw [controlBit, layoutSrc_of_row p hr hc]
  · rw [controlBit, layoutSrc_of_no_row h]

/-! ### Runs of SCAN steps inside one phase

A phase is run from its first byte to its end (R188 to R190); a pass is the run of the three phases (R191, R192). -/

/-- The phase that follows in a pass (R188 to R190). -/
def nextPhase : Phase → Phase
  | .start => .pixels
  | .pixels => .ending
  | .ending => .start

/-- The pass latch (R191), which comes with the first byte of the start frame alone. -/
def latch (x : Lfs) : Lfs := if x.phase = .start ∧ x.idx = 0 then { x with scan := x.back } else x

/-- Where the pass latch is to come, SCAN holds BACK already. -/
def Latched (x : Lfs) : Prop := x.phase = .start → x.idx = 0 → x.scan = x.back

theorem latch_of_latched {x : Lfs} (h : Latched x) : latch x = x := by
  unfold latch
  split
  case isTrue hstart => exact congrArg (fun m => { x with scan := m }) (h hstart.1 hstart.2).symm
  case isFalse => rfl

theorem latched_of_phase_ne {x : Lfs} (h : x.phase ≠ .start) : Latched x := fun hstart => absurd hstart h

/-- A SCAN step is the pass latch and one byte's move, in every phase (R188 to R191). -/
theorem scanAdvance_eq (len : Nat) (x : Lfs) : scanAdvance len x =
    if x.idx = phaseLen len x.phase - 1 then { latch x with phase := nextPhase x.phase, idx := 0 }
    else { latch x with idx := x.idx + 1 } := by
  unfold scanAdvance latch
  cases hp : x.phase with
  | start => simp only [phaseLen, true_and]; rfl
  | pixels | ending => simp [phaseLen, nextPhase, hp]

/-- The scanner moved by `n` bytes of its phase of `len` bytes, at most to its end. -/
def advanceBy (len n : Nat) (x : Lfs) : Lfs :=
  { x with
    phase := if x.idx + n = len then nextPhase x.phase else x.phase
    idx := if x.idx + n = len then 0 else x.idx + n }

theorem advanceBy_of_lt {len n : Nat} {x : Lfs} (h : x.idx + n < len) : advanceBy len n x = { x with idx := x.idx + n } := by
  rw [advanceBy, if_neg (Nat.ne_of_lt h), if_neg (Nat.ne_of_lt h)]

theorem advanceBy_of_eq {len n : Nat} {x : Lfs} (h : x.idx + n = len) :
    advanceBy len n x = { x with phase := nextPhase x.phase, idx := 0 } := by
  rw [advanceBy, if_pos h, if_pos h]

theorem scanAdvance_of_latched {len : Nat} {x : Lfs} (hl : Latched x) (hlt : x.idx < phaseLen len x.phase) :
    scanAdvance len x = advanceBy (phaseLen len x.phase) 1 x := by
  rw [scanAdvance_eq, latch_of_latched hl]
  split
  · rw [advanceBy_of_eq (by omega)]
  · rw [advanceBy_of_lt (by omega)]

/-- The byte that the scanner emits at offset `a` of its phase. -/
def phaseByte (x : Lfs) (a : Nat) : Byte := txData { x with idx := a }

/-- A run of `n` SCAN steps inside one phase sends the phase's bytes in order and moves the scanner. -/
theorem scanSteps_advance (n : Nat) {s : State} (ha : s.lfs.armed = true) (hl : Latched s.lfs)
    (hlt : s.lfs.idx < phaseLen s.cfg.fbLen s.lfs.phase) (hn : s.lfs.idx + n ≤ phaseLen s.cfg.fbLen s.lfs.phase) :
    scanSteps n s = (s.withLfs (advanceBy (phaseLen s.cfg.fbLen s.lfs.phase) n s.lfs)).withOut
      { s.out with tx := s.out.tx ++ (List.range' s.lfs.idx n).map (phaseByte s.lfs) } := by
  induction n with
  | zero =>
    rw [advanceBy_of_lt hlt, List.range'_zero, List.map_nil, List.append_nil]
    rfl
  | succ n ih =>
    have hlast : s.lfs.idx + n < phaseLen s.cfg.fbLen s.lfs.phase := hn
    have hlatched : Latched { s.lfs with idx := s.lfs.idx + n } := fun hp h0 => hl hp (Nat.eq_zero_of_add_eq_zero_right h0)
    rw [scanSteps_add n 1, ih (Nat.le_of_lt hlast), advanceBy_of_lt hlast, List.range'_1_concat, List.map_append,
      ← List.append_assoc]
    refine (scanStep_armed ?_).trans ?_
    · exact ha
    · exact congrArg (fun x => (s.withLfs x).withOut _) (scanAdvance_of_latched (len := s.cfg.fbLen) hlatched hlast)

/-- A whole phase, from its first byte. -/
theorem scanSteps_phase {s : State} (ha : s.lfs.armed = true) (hl : Latched s.lfs) (h0 : s.lfs.idx = 0) :
    scanSteps (phaseLen s.cfg.fbLen s.lfs.phase) s =
      (s.withLfs { s.lfs with phase := nextPhase s.lfs.phase, idx := 0 }).withOut
        { s.out with tx := s.out.tx ++ (List.range (phaseLen s.cfg.fbLen s.lfs.phase)).map (phaseByte s.lfs) } := by
  have hpos : 0 < phaseLen s.cfg.fbLen s.lfs.phase := by
    cases s.lfs.phase with
    | pixels => exact fbLen_pos s.cfg
    | _ => exact Nat.zero_lt_succ _
  rw [scanSteps_advance _ ha hl (by omega) (by omega), advanceBy_of_eq (by omega), h0, List.range_eq_range']

/-! ### The units of the strand -/

/-- An armed scanner stands at the first byte of this phase. -/
def StandsAt (ph : Phase) (s : State) : Prop := s.lfs.armed = true ∧ s.lfs.phase = ph ∧ s.lfs.idx = 0

theorem map_phaseByte_const {x : Lfs} {b : Byte} (h : ∀ a, phaseByte x a = b) (n : Nat) :
    (List.range n).map (phaseByte x) = List.replicate n b := by
  rw [funext h, List.map_const', List.length_range]

theorem phaseByte_start {x : Lfs} (h : x.phase = .start) (a : Nat) : phaseByte x a = 0x00 := by simp [phaseByte, txData, h]
theorem phaseByte_pixels {x : Lfs} (h : x.phase = .pixels) (a : Nat) : phaseByte x a = readScan x a := by
  simp only [phaseByte, txData, h]; rfl
theorem phaseByte_ending {x : Lfs} (h : x.phase = .ending) (a : Nat) : phaseByte x a = 0xFF := by simp [phaseByte, txData, h]

/-- The state with SCAN as the pass latch leaves it (R191). -/
def scanLatched (s : State) : State := s.withLfs { s.lfs with scan := s.lfs.back }

/-- At a pass boundary a SCAN step does the same where the pass latch is done already. -/
theorem scanStep_scanLatched {s : State} (h : StandsAt .start s) : scanStep (scanLatched s) = scanStep s := by
  obtain ⟨ha, hp, h0⟩ := h
  have hlatch : latch (scanLatched s).lfs = latch s.lfs := by
    rw [latch, latch, if_pos ⟨hp, h0⟩, if_pos ⟨hp, h0⟩]; rfl
  have htx : txData (scanLatched s).lfs = txData s.lfs := by simp [scanLatched, txData, hp]
  rw [scanStep_armed ha, scanStep_armed (s := scanLatched s) ha, scanAdvance_eq, scanAdvance_eq, hlatch, htx]
  rfl

/-- The start frame, whose first step latches BACK (R99, R188, R191). -/
theorem scanSteps_start {s : State} (h : StandsAt .start s) :
    scanSteps 8 s = (s.withLfs { s.lfs with scan := s.lfs.back, phase := .pixels, idx := 0 }).withOut
      { s.out with tx := s.out.tx ++ List.replicate 8 0x00 } := by
  have hfirst : scanSteps 8 s = scanSteps 8 (scanLatched s) := congrArg (scanSteps 7) (scanStep_scanLatched h).symm
  obtain ⟨ha, hp, h0⟩ := h
  have hrun := scanSteps_phase (s := scanLatched s) ha (fun _ _ => rfl) h0
  have hp' : (scanLatched s).lfs.phase = .start := hp
  rw [hp', map_phaseByte_const (phaseByte_start hp')] at hrun
  exact hfirst.trans hrun

/-- The pixels of a pass, as SCAN holds them (R189). -/
theorem scanSteps_pixels {s : State} (h : StandsAt .pixels s) :
    scanSteps s.cfg.fbLen s = (s.withLfs { s.lfs with phase := .ending, idx := 0 }).withOut
      { s.out with tx := s.out.tx ++ (List.range s.cfg.fbLen).map (readScan s.lfs) } := by
  obtain ⟨ha, hp, h0⟩ := h
  have hrun := scanSteps_phase ha (latched_of_phase_ne (by rw [hp]; decide)) h0
  rw [hp, funext (phaseByte_pixels hp)] at hrun
  exact hrun

/-- The end frame (R101, R190). -/
theorem scanSteps_ending {s : State} (h : StandsAt .ending s) :
    scanSteps 8 s = (s.withLfs { s.lfs with phase := .start, idx := 0 }).withOut
      { s.out with tx := s.out.tx ++ List.replicate 8 0xFF } := by
  obtain ⟨ha, hp, h0⟩ := h
  have hrun := scanSteps_phase ha (latched_of_phase_ne (by rw [hp]; decide)) h0
  rw [hp, map_phaseByte_const (phaseByte_ending hp)] at hrun
  exact hrun

/-! The WIRE rows are these runs where the scanner stands at the unit, and nothing elsewhere (entry 9). -/

theorem exec_wireStart_of_stands {s : State} (h : StandsAt .start s) : exec .wireStart s = .next (scanSteps 8 s) := by
  obtain ⟨ha, hp, h0⟩ := h
  exact congrArg Host.Outcome.next (if_pos (by simp [ha, hp, h0]))

theorem exec_wireStart_of_not_stands {s : State} (h : ¬ StandsAt .start s) : exec .wireStart s = .next s :=
  congrArg Host.Outcome.next (if_neg (by simpa [StandsAt, and_assoc] using h))

theorem exec_wireEnd_of_stands {s : State} (h : StandsAt .ending s) : exec .wireEnd s = .next (scanSteps 8 s) := by
  obtain ⟨ha, hp, h0⟩ := h
  exact congrArg Host.Outcome.next (if_pos (by simp [ha, hp, h0]))

theorem exec_wireEnd_of_not_stands {s : State} (h : ¬ StandsAt .ending s) : exec .wireEnd s = .next s :=
  congrArg Host.Outcome.next (if_neg (by simpa [StandsAt, and_assoc] using h))

/-- Settles O30, from `scanSteps_start`. -/
theorem startFrameIsEightZeroBytes : Obligations.StartFrameIsEightZeroBytes := fun s ha hp h0 => by
  have h : StandsAt .start s := ⟨ha, hp, h0⟩
  rw [exec_wireStart_of_stands h, scanSteps_start h]
  rfl

/-- Settles O32, from `scanSteps_ending`. -/
theorem endFrameIsEightOnesBytes : Obligations.EndFrameIsEightOnesBytes := fun s ha hp h0 => by
  have h : StandsAt .ending s := ⟨ha, hp, h0⟩
  rw [exec_wireEnd_of_stands h, scanSteps_ending h]
  rfl

/-- The armed scanner stands at the first byte of a pixel of SCAN that holds these bytes (R98, R100). -/
def PixelOffered (w : BitVec 5) (b g r : Byte) (s : State) : Prop :=
  s.lfs.armed = true ∧ s.lfs.phase = .pixels ∧ (∃ i < s.cfg.pixelCount, s.lfs.idx = 4 * i) ∧
    readScan s.lfs s.lfs.idx = 0b111#3 ++ w ∧ readScan s.lfs (s.lfs.idx + 1) = b ∧
    readScan s.lfs (s.lfs.idx + 2) = g ∧ readScan s.lfs (s.lfs.idx + 3) = r

/-- The offsets at which a pixel begins. -/
theorem pixel_begins_iff (p : Config.Params) (a : Nat) : a % 4 = 0 ∧ a < p.fbLen ↔ ∃ i < p.pixelCount, a = 4 * i := by
  unfold Config.Params.fbLen
  constructor
  · rintro ⟨hmod, hlt⟩
    exact ⟨a / 4, by omega, by omega⟩
  · rintro ⟨i, hi, rfl⟩
    omega

theorem pixelOffered_iff (w : BitVec 5) (b g r : Byte) (s : State) :
    (s.lfs.armed && s.lfs.phase == .pixels && s.lfs.idx % 4 == 0 && decide (s.lfs.idx < s.cfg.fbLen) &&
      [readScan s.lfs s.lfs.idx, readScan s.lfs (s.lfs.idx + 1), readScan s.lfs (s.lfs.idx + 2),
        readScan s.lfs (s.lfs.idx + 3)] == wirePixelBytes w b g r) = true ↔ PixelOffered w b g r s := by
  rw [PixelOffered, ← pixel_begins_iff]
  simp [wirePixelBytes, and_assoc]

theorem exec_wirePixel_of_offered {w : BitVec 5} {b g r : Byte} {s : State} (h : PixelOffered w b g r s) :
    exec (.wirePixel w b g r) s = .next (scanSteps 4 s) :=
  congrArg Host.Outcome.next (if_pos ((pixelOffered_iff w b g r s).2 h))

theorem exec_wirePixel_of_not_offered {w : BitVec 5} {b g r : Byte} {s : State} (h : ¬ PixelOffered w b g r s) :
    exec (.wirePixel w b g r) s = .next s :=
  congrArg Host.Outcome.next (if_neg (mt (pixelOffered_iff w b g r s).1 h))

/-- Settles O33: each condition is the one under which the row is a run of SCAN steps. -/
theorem unofferedUnitsChangeNothing : Obligations.UnofferedUnitsChangeNothing := fun _ _ _ _ _ =>
  ⟨exec_wireStart_of_not_stands, exec_wirePixel_of_not_offered, exec_wireEnd_of_not_stands⟩

/-- Settles O31: four SCAN steps by `scanSteps_advance`, which reach the end of the phase after the last pixel. -/
theorem pixelIsHeaderBlueGreenRed : Obligations.PixelIsHeaderBlueGreenRed := by
  intro i w b g r s ha hp hi hidx hw hb hg hr
  have hoffered : PixelOffered w b g r s := by
    rw [← hidx] at hw hb hg hr
    exact ⟨ha, hp, ⟨i, hi, hidx⟩, hw, hb, hg, hr⟩
  have hlen : phaseLen s.cfg.fbLen s.lfs.phase = 4 * s.cfg.pixelCount := by rw [hp]; rfl
  have hend : 4 * i + 4 = 4 * s.cfg.pixelCount ↔ i + 1 = s.cfg.pixelCount := by omega
  rw [exec_wirePixel_of_offered hoffered, scanSteps_advance 4 ha (latched_of_phase_ne (by rw [hp]; decide))
    (by omega) (by omega), advanceBy, hlen, funext (phaseByte_pixels hp), hp]
  simp only [hidx, hend]
  rw [← hw, ← hb, ← hg, ← hr]
  rfl

/-! ### A whole pass -/

/-- The pass that latched BACK of `s`, where it has sent the bytes `bs` and stands at the first byte of phase `ph`. -/
def passAt (ph : Phase) (bs : List Byte) (s : State) : State :=
  (s.withLfs { s.lfs with scan := s.lfs.back, phase := ph, idx := 0 }).withOut { s.out with tx := s.out.tx ++ bs }

theorem passAt_append (ph : Phase) (as bs : List Byte) (s : State) :
    passAt ph (as ++ bs) s = (passAt ph as s).withOut { s.out with tx := s.out.tx ++ as ++ bs } := by
  rw [List.append_assoc]; rfl

theorem scanSteps_passAt_pixels {s : State} (ha : s.lfs.armed = true) (bs : List Byte) :
    scanSteps s.cfg.fbLen (passAt .pixels bs s) =
      passAt .ending (bs ++ (List.range s.cfg.fbLen).map (readBack s.lfs)) s := by
  rw [passAt_append]
  exact scanSteps_pixels (s := passAt .pixels bs s) ⟨ha, rfl, rfl⟩

theorem scanSteps_passAt_ending {s : State} (ha : s.lfs.armed = true) (bs : List Byte) :
    scanSteps 8 (passAt .ending bs s) = passAt .start (bs ++ List.replicate 8 0xFF) s := by
  rw [passAt_append]
  exact scanSteps_ending (s := passAt .ending bs s) ⟨ha, rfl, rfl⟩

theorem passAt_start {s : State} (h : StandsAt .start s) (bs : List Byte) :
    passAt .start bs s = (scanLatched s).withOut { s.out with tx := s.out.tx ++ bs } := by
  obtain ⟨-, hp, h0⟩ := h
  simp [passAt, scanLatched, hp, h0]

/-- R102, R192: start frame, latched BACK, end frame. -/
theorem scanSteps_pass {s : State} (h : StandsAt .start s) :
    scanSteps (8 + (s.cfg.fbLen + 8)) s = (scanLatched s).withOut { s.out with
      tx := s.out.tx ++ (List.replicate 8 0x00 ++ ((List.range s.cfg.fbLen).map (readBack s.lfs) ++ List.replicate 8 0xFF)) } := by
  have hfirst : scanSteps 8 s = passAt .pixels (List.replicate 8 0x00) s := scanSteps_start h
  rw [scanSteps_add, hfirst, scanSteps_add, scanSteps_passAt_pixels h.1, scanSteps_passAt_ending h.1, passAt_start h,
    List.append_assoc]

/-! The same run as the words of TX (R116). -/

theorem scanStep_withInbox (s : State) (l : List Input) : scanStep (s.withInbox l) = (scanStep s).withInbox l := by
  cases h : s.lfs.armed with
  | false => rw [scanStep_unarmed h, scanStep_unarmed (s := s.withInbox l) h]
  | true => rw [scanStep_armed h, scanStep_armed (s := s.withInbox l) h]; rfl

theorem scanSteps_withInbox (n : Nat) (s : State) (l : List Input) :
    scanSteps n (s.withInbox l) = (scanSteps n s).withInbox l := by
  induction n generalizing s with
  | zero => rfl
  | succ n ih => rw [scanSteps, scanStep_withInbox, ih]; rfl

theorem run_scanWords (n : Nat) {s : State} {rest : List Input} (hx : s.cmdExtra = false)
    (hs : s.inbox = List.replicate n (.word (.txStep 1)) ++ rest) :
    Host.Core.run core n s = .next ((scanSteps n s).withInbox rest) := by
  induction n generalizing s with
  | zero => rw [← show s.inbox = rest from hs]; rfl
  | succ n ih =>
    obtain ⟨l, hl⟩ : ∃ l, l = List.replicate n (Input.word (.txStep 1)) ++ rest := ⟨_, rfl⟩
    rw [List.replicate_succ, List.cons_append, ← hl] at hs
    have hstep : step s = .next ((scanStep s).withInbox l) := by
      rw [step_word hs rfl, closePoll_of_ne (by decide), completeFlip_of_false (s := s.withInbox l) hx,
        ← scanStep_withInbox]
      rfl
    have hx' : ((scanStep s).withInbox l).cmdExtra = false := by rw [scanStep_frame]; exact hx
    rw [run_succ hstep, ih hx' hl, scanSteps_withInbox]
    rfl

/-- Settles O34: the words are a run of SCAN steps, and the run is `scanSteps_pass`. -/
theorem passTransmitsLatchedBack : Obligations.PassTransmitsLatchedBack := by
  intro s rest ha hp h0 hx hs
  have hcount : 16 + 4 * s.cfg.pixelCount = 8 + (s.cfg.fbLen + 8) := by unfold Config.Params.fbLen; omega
  have hrun := run_scanWords _ hx hs
  rw [hcount, scanSteps_pass ⟨ha, hp, h0⟩] at hrun
  exact ⟨_, hcount ▸ hrun, rfl, rfl⟩

/-! ### MAGIC -/

/-- Settles O36, from the three cases of a byte in SEEK_MAGIC. -/
theorem seekComparesWithMagic : Obligations.SeekComparesWithMagic := by
  refine ⟨rfl, fun b s hst => ⟨s.withCmd (seekByte b s.cmd), ?_, rfl, ?_⟩⟩
  · exact congrArg Host.Outcome.next (receiveByte_seekMagic hst)
  rw [State.withCmd_cmd]
  by_cases hb : b = magic.get s.cmd.midx
  · by_cases hlast : s.cmd.midx.val = 10
    · rw [seekByte_last hb hlast]
      exact ⟨rfl, fun _ _ => ⟨rfl, rfl, rfl⟩, fun _ hne => absurd hlast hne, fun hne => absurd hb hne⟩
    · rw [seekByte_next hb (Nat.lt_of_le_of_ne (Nat.le_of_lt_succ s.cmd.midx.isLt) hlast)]
      exact ⟨rfl, fun _ hten => absurd hten hlast, fun _ _ => ⟨hst, rfl, rfl⟩, fun hne => absurd hb hne⟩
  · rw [seekByte_mismatch hb]
    exact ⟨rfl, fun heq => absurd heq hb, fun heq => absurd heq hb, fun _ => ⟨hst, apply_ite Fin.val .., rfl⟩⟩

/-! ### What a clock cycle does to LFS and CMD

LFS and CMD are read and written with the parameters alone (R17), so DECODE and PUSH of the same cycle can be left out. -/

/-- Two states with the same LED pipeline. -/
structure SameLed (s t : State) : Prop where
  cfg : s.cfg = t.cfg
  lfs : s.lfs = t.lfs
  cmd : s.cmd = t.cmd

theorem SameLed.trans {s t u : State} (h : SameLed s t) (h' : SameLed t u) : SameLed s u :=
  ⟨h.cfg.trans h'.cfg, h.lfs.trans h'.lfs, h.cmd.trans h'.cmd⟩

theorem SameLed.ite {s s' t t' : State} (h : SameLed s t) (h' : SameLed s' t') (b : Bool) :
    SameLed (if b then s else s') (if b then t else t') := by
  split
  · exact h
  · exact h'

theorem SameLed.scanStep {s t : State} (h : SameLed s t) : SameLed (scanStep s) (scanStep t) := by
  obtain ⟨hcfg, hlfs, hcmd⟩ := h
  unfold Machine.scanStep
  rw [hlfs, hcfg]
  split
  · exact ⟨hcfg, rfl, hcmd⟩
  · exact ⟨hcfg, hlfs, hcmd⟩

theorem SameLed.payloadWrite {s t : State} (h : SameLed s t) (b : Byte) : SameLed (payloadWrite b s) (payloadWrite b t) := by
  obtain ⟨hcfg, hlfs, hcmd⟩ := h
  unfold Machine.payloadWrite
  rw [hlfs, hcfg, hcmd]
  exact ⟨hcfg, rfl, rfl⟩

theorem SameLed.receiveInCycle {s t : State} (h : SameLed s t) (b : Byte) :
    SameLed (receiveInCycle b s) (receiveInCycle b t) := by
  have hwrite := h.payloadWrite b
  obtain ⟨hcfg, hlfs, hcmd⟩ := h
  unfold Machine.receiveInCycle receiveByte
  rw [hcmd]
  cases t.cmd.st with
  | readData => exact hwrite
  | seekMagic | readCode => exact ⟨hcfg, hlfs, rfl⟩
  | resetWait | halted => exact ⟨hcfg, hlfs, hcmd⟩

theorem cycleDecode_sameLed (c : CycleIn) (s : State) : SameLed (cycleDecode c s) s := by
  obtain ⟨d, r, o, e, h⟩ := cycleDecode_frame c s
  rw [h]; exact ⟨rfl, rfl, rfl⟩

theorem cyclePush_sameLed (c : CycleIn) (s : State) : SameLed (cyclePush c s) s := by
  obtain ⟨d, h⟩ := cyclePush_frame c s
  rw [h]; exact ⟨rfl, rfl, rfl⟩

/-- Of what stands before the LFS request, SCAN and RX alone concern LFS and CMD. -/
theorem cycleFront_sameLed (taken : Bool) (c : CycleIn) {s t : State} (h : SameLed s t) :
    SameLed (cycleFront taken c s) (cycleRx taken c (cycleScan c t)) := by
  have hbefore : SameLed (cyclePush c (cycleDecode c s)) t :=
    (cyclePush_sameLed c _).trans ((cycleDecode_sameLed c s).trans h)
  have hscan : SameLed (cycleScan c (cyclePush c (cycleDecode c s))) (cycleScan c t) := hbefore.scanStep.ite hbefore c.txReady
  exact (hscan.receiveInCycle c.rxData).ite hscan taken

/-- What stands before the LFS request leaves the list of inputs and the fields of the cycle level. -/
theorem cycleFront_keeps (taken : Bool) (c : CycleIn) (s : State) : (cycleFront taken c s).inbox = s.inbox ∧
    (cycleFront taken c s).initQ = s.initQ ∧ (cycleFront taken c s).cmdExtra = s.cmdExtra := by
  obtain ⟨d, r, o, e, hdecode⟩ := cycleDecode_frame c s
  obtain ⟨b, hpush⟩ := cyclePush_frame c (cycleDecode c s)
  obtain ⟨l, x, hscan⟩ := cycleScan_frame c (cyclePush c (cycleDecode c s))
  obtain ⟨f, k, hrx⟩ := cycleRx_frame taken c (cycleScan c (cyclePush c (cycleDecode c s)))
  rw [cycleFront, hrx, hscan, hpush, hdecode]
  exact ⟨rfl, rfl, rfl⟩

theorem step_cycle {s : State} {c : CycleIn} {rest : List Input} (hs : s.inbox = .cycle c :: rest) :
    step s = runCycle c (s.withInbox rest) := by
  simp only [step, takeNext, hs, takeInput]

/-- What the SCAN step and the RX step of a cycle leave of LFS and CMD. -/
def cycleLed (c : CycleIn) (s : State) : State := cycleRx (rxTaken c s) c (cycleScan c s)

theorem cycleLed_of_not_taken {c : CycleIn} {s : State} (h : rxTaken c s = false) : cycleLed c s = cycleScan c s := by
  rw [cycleLed, h]; rfl

theorem cycleLed_of_taken {c : CycleIn} {s : State} (h : rxTaken c s = true) :
    cycleLed c s = receiveInCycle c.rxData (cycleScan c s) := by
  rw [cycleLed, h]; rfl

theorem cycleLed_cfg (c : CycleIn) (s : State) : (cycleLed c s).cfg = s.cfg := by
  obtain ⟨l, b, hscan⟩ := cycleScan_frame c s
  obtain ⟨f, k, hrx⟩ := cycleRx_frame (rxTaken c s) c (cycleScan c s)
  rw [cycleLed, hrx, hscan]
  rfl

/-- What the request on the port of LFS (R115, R117) leaves of LFS after `u`: INIT's oldest, CMD's FLIP, or no request. -/
inductive PortLeaves (c : CycleIn) (s u : State) (x : Lfs) : Prop
  | fromInit (w : BitVec 51) {q : List (BitVec 51)} : s.cmdExtra = false → initReady c s = true → initWaiting c s = w :: q →
      exec (decodeLfsWord w) u = .next (u.withLfs x) → PortLeaves c s u x
  | fromCmd : s.cmdExtra = true → x = Machine.flip u.cfg.fbLen u.lfs → PortLeaves c s u x
  | noRequest : s.cmdExtra = false → initReady c s = false ∨ initWaiting c s = [] → x = u.lfs → PortLeaves c s u x

/-- The request reads LFS and the parameters alone (R17). -/
theorem PortLeaves.congr {c : CycleIn} {s u v : State} {x : Lfs} (h : PortLeaves c s u x) (hcfg : u.cfg = v.cfg)
    (hlfs : u.lfs = v.lfs) : PortLeaves c s v x := by
  cases h with
  | fromInit w hx hready hw hexec =>
    obtain ⟨y, hy, hsame, -⟩ := exec_decodeLfsWord w u
    have hxy : x = y := congrArg State.lfs (Host.Outcome.next.inj (hexec.symm.trans hy))
    exact .fromInit w hx hready hw (hxy ▸ hsame v hlfs.symm hcfg.symm)
  | fromCmd hx he => exact .fromCmd hx (by rw [he, hcfg, hlfs])
  | noRequest hx hnone he => exact .noRequest hx hnone (he.trans hlfs)

/-- One clock cycle without `rst`, as LFS, CMD and the cycle level see it: SCAN and RX, the request on the port of LFS, TICK. -/
theorem step_cycle_led {s : State} {c : CycleIn} {rest : List Input} (hrst : c.rst = false) (hs : s.inbox = .cycle c :: rest) :
    ∃ t, step s = .next t ∧ t.inbox = rest ∧
      t.initQ = (if initReady c s then (initWaiting c s).drop 1 else initWaiting c s) ∧
      t.cmdExtra = (rxTaken c s && lastPayloadByte s.cfg s.cmd) ∧ PortLeaves c s (cycleLed c s) t.lfs ∧
      t.cmd = (if c.tick then tickCmd s.cfg (cycleLed c s).cmd else (cycleLed c s).cmd) := by
  obtain ⟨x, u, hu, hrun, hport⟩ := runCycle_eq (s.withInbox rest) hrst
  have hled : SameLed u (cycleLed c s) := hu ▸ cycleFront_sameLed _ c ⟨rfl, rfl, rfl⟩
  obtain ⟨hinbox, hq, hx⟩ : u.inbox = rest ∧ _ ∧ _ := hu ▸ cycleFront_keeps _ c _
  have hleaves : PortLeaves c s u x := by
    rcases hport with ⟨w, q, hx, hready, hw, hexec⟩ | ⟨hx, he⟩ | ⟨hx, hnone, he⟩
    · exact .fromInit w hx hready hw hexec
    · exact .fromCmd hx he
    · exact .noRequest hx hnone he
  have htick : tickCmd s.cfg (cycleLed c s).cmd = tickCmd u.cfg u.cmd := by rw [hled.cmd, hled.cfg, cycleLed_cfg]
  refine ⟨_, (step_cycle hs).trans hrun, ?_⟩
  rw [htick, ← hled.cmd]
  have hafter := hleaves.congr hled.cfg hled.lfs
  cases c.tick with
  | true => exact ⟨hinbox, hq, hx, hafter, rfl⟩
  | false => exact ⟨hinbox, hq, hx, hafter, rfl⟩

/-! The SCAN step of a cycle, and RX where CMD does not take a payload byte. -/

theorem scanStep_keeps (s : State) : (scanStep s).cmd = s.cmd ∧ (scanStep s).lfs.back = s.lfs.back ∧
    (scanStep s).cfg = s.cfg := by
  cases ha : s.lfs.armed with
  | false => rw [scanStep_unarmed ha]; exact ⟨rfl, rfl, rfl⟩
  | true =>
    obtain ⟨m, ph, i, hscan, -⟩ := scanAdvance_frame s.cfg.fbLen s.lfs
    rw [scanStep_armed ha, hscan]
    exact ⟨rfl, rfl, rfl⟩

theorem cycleScan_keeps (c : CycleIn) (s : State) : (cycleScan c s).cmd = s.cmd ∧ (cycleScan c s).lfs.back = s.lfs.back ∧
    (cycleScan c s).cfg = s.cfg := by
  unfold cycleScan
  split
  · exact scanStep_keeps s
  · exact ⟨rfl, rfl, rfl⟩

/-- The pass latch of a SCAN step at a pass boundary (R191). -/
theorem scanStep_latches {s : State} (h : StandsAt .start s) : (scanStep s).lfs.scan = s.lfs.back := by
  obtain ⟨ha, hp, h0⟩ := h
  have hlatch : latch s.lfs = { s.lfs with scan := s.lfs.back } := if_pos ⟨hp, h0⟩
  rw [scanStep_armed ha, State.withOut_lfs, State.withLfs_lfs, scanAdvance_eq, hlatch]
  split <;> rfl

/-- Outside READ_DATA a byte leaves LFS as it is (R221 to R224). -/
theorem receiveInCycle_lfs {s : State} (b : Byte) (h : s.cmd.st ≠ .readData) : (receiveInCycle b s).lfs = s.lfs := by
  unfold receiveInCycle receiveByte
  cases hst : s.cmd.st with
  | readData => exact absurd hst h
  | _ => rfl

/-! ### Who uses the port of LFS in a cycle -/

/-- A cycle in which CMD takes a payload byte: RX but for its FLIP, and INIT waits (R115, R117). -/
theorem step_payload_cycle {s : State} {c : CycleIn} {rest : List Input} (hrst : c.rst = false) (hs : s.inbox = .cycle c :: rest)
    (hx : s.cmdExtra = false) (hst : s.cmd.st = .readData) (hv : c.rxValid = true) :
    ∃ t, step s = .next t ∧ t.inbox = rest ∧ t.initQ = initWaiting c s ∧
      t.lfs = { (receiveByte c.rxData (cycleScan c s)).lfs with back := s.lfs.back } ∧
      t.cmd = (if c.tick then tickCmd s.cfg (receiveByte c.rxData (cycleScan c s)).cmd
        else (receiveByte c.rxData (cycleScan c s)).cmd) ∧
      t.cmdExtra = (s.cmd.cnt == s.cfg.fbLen - 1) := by
  have htaken : rxTaken c s = true := by simp [rxTaken, hv, rxReady, hrst, rxEnabled, hst, hx]
  have hready : initReady c s = false := by simp [initReady, cmdRequests, htaken, hst]
  obtain ⟨t, ht, hrest, hq, hextra, hport, hcmd⟩ := step_cycle_led hrst hs
  rw [cycleLed_of_taken htaken, receiveInCycle_eq] at hport hcmd
  refine ⟨t, ht, hrest, ?_, ?_, hcmd, ?_⟩
  · rw [hq, hready]; rfl
  · cases hport with
    | fromInit _ _ hready' => rw [hready] at hready'; cases hready'
    | fromCmd hx' => rw [hx] at hx'; cases hx'
    | noRequest _ _ he =>
      obtain ⟨-, hback, -⟩ := cycleScan_keeps c s
      rw [he, hback]; rfl
  · rw [hextra, htaken]
    simp [lastPayloadByte, hst]

/-- The extra cycle after the last payload byte: CMD's FLIP comes after the SCAN step, and INIT waits (R117, R306). -/
theorem step_extra_cycle {s : State} {c : CycleIn} {rest : List Input} (hrst : c.rst = false) (hs : s.inbox = .cycle c :: rest)
    (hx : s.cmdExtra = true) :
    ∃ t, step s = .next t ∧ t.inbox = rest ∧ t.initQ = initWaiting c s ∧
      t.lfs = Machine.flip s.cfg.fbLen (cycleScan c s).lfs ∧
      t.cmd = (if c.tick then tickCmd s.cfg s.cmd else s.cmd) ∧ t.cmdExtra = false := by
  have htaken : rxTaken c s = false := by simp [rxTaken, rxReady, hx]
  have hready : initReady c s = false := by simp [initReady, cmdRequests, hx]
  obtain ⟨t, ht, hrest, hq, hextra, hport, hcmd⟩ := step_cycle_led hrst hs
  obtain ⟨hcmd', -, hcfg⟩ := cycleScan_keeps c s
  rw [cycleLed_of_not_taken htaken] at hport hcmd
  refine ⟨t, ht, hrest, ?_, ?_, ?_, ?_⟩
  · rw [hq, hready]; rfl
  · cases hport with
    | fromInit _ hx' | noRequest hx' => rw [hx] at hx'; cases hx'
    | fromCmd _ he => rw [he, hcfg]
  · rw [hcmd, hcmd']
  · rw [hextra, htaken]; rfl

/-- A cycle in which CMD does not use the port of LFS: INIT's oldest request is taken, after the SCAN step (R115, R306). -/
theorem step_free_cycle {s : State} {c : CycleIn} {rest : List Input} {w : BitVec 51} {q : List (BitVec 51)}
    (hrst : c.rst = false) (hs : s.inbox = .cycle c :: rest) (hx : s.cmdExtra = false)
    (hfree : s.cmd.st ≠ .readData ∨ c.rxValid = false) (hw : initWaiting c s = w :: q) :
    ∃ t, step s = .next t ∧ t.inbox = rest ∧ t.initQ = q ∧ t.cmdExtra = false ∧
      exec (decodeLfsWord w) (cycleScan c s) = .next ((cycleScan c s).withLfs t.lfs) := by
  have hnone : (rxTaken c s && s.cmd.st == .readData) = false := by
    rcases hfree with hst | hv
    · simp [hst]
    · simp [rxTaken, hv]
  have hready : initReady c s = true := by rw [initReady, cmdRequests, hx, hnone]; rfl
  obtain ⟨hcmd, -, hcfg⟩ := cycleScan_keeps c s
  have hled : (cycleLed c s).lfs = (cycleScan c s).lfs := by
    cases htaken : rxTaken c s with
    | false => rw [cycleLed_of_not_taken htaken]
    | true =>
      rw [cycleLed_of_taken htaken]
      exact receiveInCycle_lfs _ (by rw [hcmd]; simpa [htaken] using hnone)
  obtain ⟨t, ht, hrest, hq, hextra, hport, -⟩ := step_cycle_led hrst hs
  refine ⟨t, ht, hrest, ?_, ?_, ?_⟩
  · rw [hq, hready, hw]; rfl
  · rw [hextra, lastPayloadByte, ← Bool.and_assoc, hnone]; rfl
  · cases hport.congr ((cycleLed_cfg c s).trans hcfg.symm) hled with
    | fromInit _ _ _ hw' hexec =>
      rw [hw] at hw'
      cases hw'
      exact hexec
    | fromCmd hx' => rw [hx] at hx'; cases hx'
    | noRequest _ hidle => rw [hready, hw] at hidle; rcases hidle with h | h <;> cases h

/-- The FLIP of the last payload byte makes BACK anew, whatever it held (R183, R226). -/
theorem flip_receiveByte_last {s : State} (b : Byte) (k : List Host.Cell) (hst : s.cmd.st = .readData)
    (hlast : s.cmd.cnt = s.cfg.fbLen - 1) :
    Machine.flip s.cfg.fbLen { (receiveByte b s).lfs with back := k } = (receiveByte b s).lfs := by
  rw [receiveByte_readData hst, payloadByte, if_pos hlast]
  rfl

/-- The cycle of the last payload byte and the extra cycle after it, with no SCAN step and no TICK in them, leave of LFS and CMD
what the one transition CMD.RX leaves (R14, R117). -/
theorem steps_last_payload_byte {s : State} {c d : CycleIn} {after : List Input} (hcrst : c.rst = false)
    (hs : s.inbox = .cycle c :: .cycle d :: after) (hx : s.cmdExtra = false) (hst : s.cmd.st = .readData)
    (hlast : s.cmd.cnt = s.cfg.fbLen - 1) (hv : c.rxValid = true) (hctx : c.txReady = false) (hctick : c.tick = false)
    (hdrst : d.rst = false) (hdtx : d.txReady = false) (hdtick : d.tick = false) :
    ∃ t u, step s = .next t ∧ step t = .next u ∧
      u.lfs = (receiveByte c.rxData s).lfs ∧ u.cmd = (receiveByte c.rxData s).cmd := by
  obtain ⟨t, ht, hrest, -, hlfs, hcmd, hextra⟩ := step_payload_cycle hcrst hs hx hst hv
  obtain ⟨u, hu, -, -, hlfs', hcmd', -⟩ := step_extra_cycle hdrst hrest (hextra.trans (by simpa using hlast))
  have hcscan : cycleScan c s = s := by rw [cycleScan, hctx]; rfl
  have hdscan : cycleScan d t = t := by rw [cycleScan, hdtx]; rfl
  rw [hcscan] at hlfs hcmd
  rw [hdscan, stepKeepsParameters s t ht, hlfs, flip_receiveByte_last _ _ hst hlast] at hlfs'
  rw [hdtick, hcmd, hctick] at hcmd'
  exact ⟨t, u, ht, hu, hlfs', hcmd'⟩

/-- Settles O56: one clause for each use of the port of LFS, and the two cycles of a last payload byte. -/
theorem initWaitsBehindCmd : Obligations.InitWaitsBehindCmd := by
  intro s c rest scanned hrst hs hscanned
  replace hscanned : scanned = cycleScan c s := hscanned
  subst hscanned
  refine ⟨fun hx hst hv => ?_, fun hx => ⟨by simp [rxReady, hx], ?_⟩, fun w q hx hfree hw => ?_, ?_⟩
  · obtain ⟨t, ht, hrest, hq, hlfs, hcmd, hextra⟩ := step_payload_cycle hrst hs hx hst hv
    exact ⟨t, _, ht, hrest, hq, rfl, hlfs, hcmd, hextra⟩
  · obtain ⟨t, ht, hrest, hq, hlfs, hcmd, hextra⟩ := step_extra_cycle hrst hs hx
    obtain ⟨-, -, hcfg⟩ := cycleScan_keeps c s
    refine ⟨t, _, ht, hrest, hq, rfl, ?_, fun htx ha hp h0 => ?_, hcmd, hextra⟩
    · rw [hlfs, ← hcfg]; rfl
    · rw [hlfs, cycleScan, htx]
      exact scanStep_latches ⟨ha, hp, h0⟩
  · obtain ⟨t, ht, hrest, hq, hextra, hexec⟩ := step_free_cycle hrst hs hx hfree hw
    exact ⟨_, t, _, rfl, hexec, ht, hrest, hq, rfl, hextra⟩
  · intro d after hx hst hlast hv hctx hctick hdrst hdtx hdtick hrest
    subst hrest
    obtain ⟨t, u, ht, hu, hlfs, hcmd⟩ :=
      steps_last_payload_byte hrst hs hx hst hlast hv hctx hctick hdrst hdtx hdtick
    exact ⟨t, u, _, ht, hu, rfl, hlfs, hcmd⟩

/-! ### The reports -/

/-- A gamepad report determines its fields (R109). -/
theorem gpadBytes_inj {x y x' y' : Byte} {m m' : BitVec 12} {hot hot' : Bool} :
    gpadBytes x y m hot = gpadBytes x' y' m' hot' ↔ x = x' ∧ y = y' ∧ m = m' ∧ hot = hot' := by
  constructor
  · intro h
    rw [gpadBytes_eq, gpadBytes_eq] at h
    simp only [List.cons.injEq, and_true] at h
    obtain ⟨hx, hy, hlow, hlast⟩ := h
    have hhigh : m.extractLsb' 8 4 = m'.extractLsb' 8 4 := by
      rw [← extract_low (0b000#3 ++ BitVec.ofBool hot) (m.extractLsb' 8 4), hlast]
      exact extract_low ..
    have flagField (flag : Bool) (high : BitVec 4) :
        (0b000#3 ++ BitVec.ofBool flag ++ high).extractLsb' 4 1 = BitVec.ofBool flag :=
      extract_above _ _ (by decide) (extract_low ..)
    have hflag : BitVec.ofBool hot = BitVec.ofBool hot' := by
      rw [← flagField hot (m.extractLsb' 8 4), hlast]
      exact flagField ..
    refine ⟨hx, hy, ?_, by simpa using congrArg (·.getLsbD 0) hflag⟩
    rw [← buttons_of_fields m, ← buttons_of_fields m', hhigh, hlow]
  · rintro ⟨rfl, rfl, rfl, rfl⟩
    rfl

theorem gpad1Report_eq_iff {x y : Byte} {m : BitVec 12} {hot : Bool} {s : State} :
    gpad1Report s = gpadBytes x y m hot ↔
      x = s.dec.prev.p1x ∧ y = s.dec.prev.p1y ∧ m = s.dec.prev.p1 ∧ hot = hotkeyFlag s.cfg s.dec.prev.util :=
  eq_comm.trans gpadBytes_inj

theorem gpad2Report_eq_iff {x y : Byte} {m : BitVec 12} {hot : Bool} {s : State} :
    gpad2Report s = gpadBytes x y m hot ↔
      x = s.dec.prev.p2x ∧ y = s.dec.prev.p2y ∧ m = s.dec.prev.p2 ∧ hot = hotkeyFlag s.cfg s.dec.prev.util :=
  eq_comm.trans gpadBytes_inj

theorem kbdReport_eq_iff {k0 k1 k2 k3 k4 k5 : Byte} {s : State} :
    kbdReport s = kbdBytes k0 k1 k2 k3 k4 k5 ↔
      k0 = kbdSlot s.cfg s.dec.prev.util 0 ∧ k1 = kbdSlot s.cfg s.dec.prev.util 1 ∧
      k2 = kbdSlot s.cfg s.dec.prev.util 2 ∧ k3 = kbdSlot s.cfg s.dec.prev.util 3 ∧
      k4 = kbdSlot s.cfg s.dec.prev.util 4 ∧ k5 = kbdSlot s.cfg s.dec.prev.util 5 := by
  rw [eq_comm]
  simp [kbdReport, kbdBytes]

/-! ### The REP rows (entry 10)

Each is one rule of sending under the condition that the report is the present one. -/

/-- The sending of a given report: when it is the present one, due, and its channel is ready. -/
theorem ite_present {present report : List Byte} {due ready goes : Bool} (sent : List Byte → State) (s : State)
    (h : goes = true ↔ due = true ∧ ready = true ∧ present = report) :
    (if present == report then (if due && ready then sent present else s) else s) = if goes then sent report else s := by
  by_cases hreport : present = report
  · have hgoes : goes = (due && ready) := by rw [Bool.eq_iff_iff, h]; simp [hreport]
    rw [hgoes, hreport, if_pos (beq_self_eq_true report)]
  · have hgoes : goes = false := by simpa [hreport] using h
    rw [hgoes, if_neg (by simpa using hreport)]
    rfl

/-- A report sent on the channel of player 1 (R272). -/
def sentGpad1 (s : State) (report : List Byte) : State :=
  (s.withOut { s.out with gpad1 := s.out.gpad1 ++ [report] }).withRepDue { s.repDue with gp1 := false }

theorem ite_sentGpad1 (one : Bool) (s : State) (report : List Byte) : (if one then sentGpad1 s report else s) =
    (s.withOut { s.out with gpad1 := if one then s.out.gpad1 ++ [report] else s.out.gpad1 }).withRepDue
      { s.repDue with gp1 := s.repDue.gp1 && !one } := by
  cases one with
  | true => simp [sentGpad1]
  | false => rw [Bool.not_false, Bool.and_true]; rfl

/-- A report sent on the channel of player 2 (R273). -/
def sentGpad2 (s : State) (report : List Byte) : State :=
  (s.withOut { s.out with gpad2 := s.out.gpad2 ++ [report] }).withRepDue { s.repDue with gp2 := false }

theorem ite_sentGpad2 (two : Bool) (s : State) (report : List Byte) : (if two then sentGpad2 s report else s) =
    (s.withOut { s.out with gpad2 := if two then s.out.gpad2 ++ [report] else s.out.gpad2 }).withRepDue
      { s.repDue with gp2 := s.repDue.gp2 && !two } := by
  cases two with
  | true => simp [sentGpad2]
  | false => rw [Bool.not_false, Bool.and_true]; rfl

/-- A keyboard report sent (R276). -/
def sentKbd (s : State) (report : List Byte) : State :=
  ((s.withOut { s.out with kbd := s.out.kbd ++ [report] }).withRep { s.rep with lastUtil := s.dec.prev.util }).withRepDue
    { s.repDue with kbd := false }

/-- REP.GPAD sends on channel 1 and then on channel 2; neither sending touches what decides the other one. -/
theorem exec_repGpad {x y : Byte} {m : BitVec 12} {hot : Bool} {s t : State} {one two : Bool}
    (hone : one = true ↔ s.repDue.gp1 = true ∧ s.transport.gp1Ready = true ∧ gpad1Report s = gpadBytes x y m hot)
    (htwo : two = true ↔ s.repDue.gp2 = true ∧ s.transport.gp2Ready = true ∧ gpad2Report s = gpadBytes x y m hot)
    (ht : t = if one then sentGpad1 s (gpadBytes x y m hot) else s) :
    exec (.repGpad x y m hot) s = .next (if two then sentGpad2 t (gpadBytes x y m hot) else t) := by
  have first : (if gpad1Report s == gpadBytes x y m hot then sendGpad1 s else s) = t :=
    (ite_present (sentGpad1 s) s hone).trans ht.symm
  have hdue : t.repDue.gp2 = s.repDue.gp2 := by rw [ht]; split <;> rfl
  have hready : t.transport = s.transport := by rw [ht]; split <;> rfl
  have hreport : gpad2Report t = gpad2Report s := by rw [ht]; split <;> rfl
  rw [← hdue, ← hready, ← hreport] at htwo
  refine congrArg Host.Outcome.next ?_
  show (if gpad2Report s == gpadBytes x y m hot then sendGpad2 (if gpad1Report s == gpadBytes x y m hot then sendGpad1 s else s)
    else (if gpad1Report s == gpadBytes x y m hot then sendGpad1 s else s)) = _
  rw [first, ← hreport]
  exact ite_present (sentGpad2 t) t htwo

theorem exec_repKbd {k0 k1 k2 k3 k4 k5 : Byte} {s : State} {goes : Bool}
    (h : goes = true ↔ s.repDue.kbd = true ∧ kbdSendFlag s.transport s.dec s.rep = true ∧
      kbdReport s = kbdBytes k0 k1 k2 k3 k4 k5) :
    exec (.repKbd k0 k1 k2 k3 k4 k5) s = .next (if goes then sentKbd s (kbdBytes k0 k1 k2 k3 k4 k5) else s) :=
  congrArg Host.Outcome.next (ite_present (sentKbd s) s h)

/-! ### A whole step of REP -/

theorem step_repStep {s : State} {rest : List Input} (hs : s.inbox = .repStep :: rest) :
    step s = .next (repStep (s.withInbox rest)) := by
  simp only [step, takeNext, hs, takeInput]

theorem append_ite_nil {α : Type} (b : Bool) (l m : List α) : (l ++ if b then m else []) = if b then l ++ m else l := by
  rw [apply_ite (l ++ ·), List.append_nil]

theorem kbdSendFlag_iff {s : State} : kbdSendFlag s.transport s.dec s.rep = true ↔
    s.transport.kbdReady = true ∧ s.dec.changed = true ∧ s.dec.prev.util ≠ s.rep.lastUtil := by
  simp [kbdSendFlag, and_assoc]

/-- Settles O57: `exec_repGpad` for the row, `repStep_eq` for the whole step. -/
theorem gamepadReportsGoOut : Obligations.GamepadReportsGoOut := by
  refine ⟨fun x y m hot s report one two hreport hone htwo => ?_, fun s rest hot hs hhot => ?_⟩
  · rw [← gpadBytes_eq] at hreport
    subst hreport
    rw [exec_repGpad (hone.trans (and_congr_right' (and_congr_right' gpad1Report_eq_iff.symm)))
      (htwo.trans (and_congr_right' (and_congr_right' gpad2Report_eq_iff.symm))) rfl,
      ite_sentGpad2, ite_sentGpad1]
    rfl
  · refine ⟨_, step_repStep hs, ?_, ?_⟩
    · rw [repStep_eq, append_ite_nil, hhot, ← gpadBytes_eq]
      rfl
    · rw [repStep_eq, append_ite_nil, hhot, ← gpadBytes_eq]
      rfl

/-- Settles O58: `exec_repKbd` for the row, `repStep_eq` for the whole step. -/
theorem keyboardReportOnUtilityChange : Obligations.KeyboardReportOnUtilityChange := by
  intro k0 k1 k2 k3 k4 k5 s present sent hpresent hsent
  have hreport : present = true ↔ kbdReport s = kbdBytes k0 k1 k2 k3 k4 k5 := hpresent.trans kbdReport_eq_iff.symm
  have hdue : sent = (s.repDue.kbd && kbdSendFlag s.transport s.dec s.rep) := by
    rw [Bool.eq_iff_iff, hsent, Bool.and_eq_true, kbdSendFlag_iff]
  refine ⟨exec_repKbd ?_, fun rest hs hp => ⟨_, step_repStep hs, ?_, ?_⟩⟩
  · rw [hdue, Bool.and_eq_true, Bool.and_eq_true, hreport, and_assoc]
  · rw [repStep_eq, append_ite_nil, hdue, ← kbdBytes, ← hreport.1 hp]
    rfl
  · rw [repStep_eq, hdue]
    rfl

end Sys2Proof.Proofs

/-! PROOFS. The family of spec/40_debounce_filter.md: PUSH and MERGE (R130, R131), and what `merged` says of the samples pushed
(R134 to R138). -/

namespace Sys2Proof.Proofs

open Sys2Proof Sys2Proof.Machine

/-! ### The samples of the ring in the order of their age

The cursor stands at the oldest sample, which the next PUSH writes over. Seen from the cursor a PUSH is a shift, so a run of
pushes is followed without a case distinction on the cursor. -/

/-- The sample pushed last: the slot behind the cursor, which modulo DEPTH is the second one after it. -/
def newestSample (d : Dbf) : Snapshot := d.ring[(d.cursor + 2 : Fin 3)]

/-- The sample pushed before the newest. -/
def previousSample (d : Dbf) : Snapshot := d.ring[(d.cursor + 1 : Fin 3)]

theorem cursor_pushSnapshot (v : Snapshot) (d : Dbf) : (pushSnapshot v d).cursor = (d.cursor + 1 : Fin 3) := rfl

@[simp] theorem newestSample_pushSnapshot (v : Snapshot) (d : Dbf) : newestSample (pushSnapshot v d) = v := by
  have back_at_cursor : ∀ c : Fin 3, c + 1 + 2 = c := by decide
  rw [newestSample, pushSnapshot_slot, cursor_pushSnapshot, if_pos (back_at_cursor d.cursor)]

@[simp] theorem previousSample_pushSnapshot (v : Snapshot) (d : Dbf) :
    previousSample (pushSnapshot v d) = newestSample d := by
  have two_after_cursor : ∀ c : Fin 3, c + 1 + 1 = c + 2 ∧ c + 1 + 1 ≠ c := by decide
  obtain ⟨hslot, hother⟩ := two_after_cursor d.cursor
  rw [previousSample, pushSnapshot_slot, cursor_pushSnapshot, if_neg hother, hslot, newestSample]

/-- `merged` is an OR over all slots (R131), so it may be read from any slot on. -/
theorem mergedOf_from (d : Dbf) (c : Fin 3) : mergedOf d = d.ring[c] ||| d.ring[c + 1] ||| d.ring[c + 2] := by
  rw [mergedOf_eq]
  match c with
  | 0 => rfl
  | 1 => exact (BitVec.or_assoc ..).trans (BitVec.or_comm ..)
  | 2 => exact (BitVec.or_comm ..).trans (BitVec.or_assoc ..).symm

/-- `merged` after a PUSH is the OR of the last three samples. -/
theorem mergedOf_pushSnapshot (v : Snapshot) (d : Dbf) :
    mergedOf (pushSnapshot v d) = v ||| newestSample d ||| previousSample d := by
  have others_differ : ∀ c : Fin 3, c + 1 ≠ c ∧ c + 2 ≠ c := by decide
  obtain ⟨hone, htwo⟩ := others_differ d.cursor
  rw [mergedOf_from _ d.cursor, pushSnapshot_slot, pushSnapshot_slot, pushSnapshot_slot, if_pos rfl, if_neg hone, if_neg htwo,
    BitVec.or_assoc, BitVec.or_comm d.ring[_], ← BitVec.or_assoc]
  rfl

/-! ### DBF.PUSH and DBF.MERGE -/

/-- R130, as one equation. -/
theorem exec_dbfPush (v : Snapshot) (s : State) : exec (.dbfPush v) s = .next (s.withDbf (pushSnapshot v s.dbf)) := rfl

/-- R131, with entry 5: the value read is kept in the outputs. -/
theorem exec_dbfMerge (s : State) :
    exec .dbfMerge s = .next (s.withOut { s.out with merged := s.out.merged ++ [mergedOf s.dbf] }) := rfl

/-- Settles O6: the decoder by `decode_dbfReq_push`, the ring by `pushSnapshot_slot`. -/
theorem pushWritesCursorSlot : Obligations.PushWritesCursorSlot := fun v s =>
  ⟨decode_dbfReq_push v, _, exec_dbfPush v s, rfl, pushSnapshot_slot v s.dbf, pushSnapshot_cursor v s.dbf⟩

/-- Settles O7, from `getLsbD_mergedOf`. -/
theorem mergeReadsOrOfSlots : Obligations.MergeReadsOrOfSlots := fun s =>
  ⟨mergedOf s.dbf, exec_dbfMerge s, getLsbD_mergedOf s.dbf⟩

/-! ### What `merged` says of the samples pushed -/

/-- Settles O9: the sample is the newest of the three, then the one before it, then the third. -/
theorem pressIsSeenAtOnceAndHeld : Obligations.PressIsSeenAtOnceAndHeld := by
  intro v a b s
  refine ⟨_, _, _, exec_dbfPush v s, exec_dbfPush a _, exec_dbfPush b _, fun j hj => ?_⟩
  simp [mergedOf_pushSnapshot, hj]

/-- Settles O10: after three pushes `merged` is the OR of the three samples, whatever the ring held. -/
theorem releaseNeedsThreeClearSamples : Obligations.ReleaseNeedsThreeClearSamples := by
  intro a b c s
  refine ⟨_, _, _, exec_dbfPush a s, exec_dbfPush b _, exec_dbfPush c _, fun j => ?_⟩
  have hmerged : mergedOf (pushSnapshot c (pushSnapshot b (pushSnapshot a s.dbf))) = c ||| b ||| a := by
    simp [mergedOf_pushSnapshot]
  simp only [State.withDbf_dbf, hmerged, BitVec.getLsbD_or, Bool.or_eq_false_iff]
  tauto

/-- Settles O11: at reset the ring holds 0 only, so what is not pushed yet adds nothing. -/
theorem warmUpReadsIdle : Obligations.WarmUpReadsIdle := by
  intro a b p
  have hnewest : newestSample (State.resetWith p).dbf = 0 := rfl
  have hprevious : previousSample (State.resetWith p).dbf = 0 := rfl
  refine ⟨_, _, rfl, exec_dbfPush a _, ?_, exec_dbfPush b _, ?_⟩
  · simp [mergedOf_pushSnapshot, hnewest, hprevious]
  · simp [mergedOf_pushSnapshot, hnewest, BitVec.or_comm]

/-- Settles O12: under one cursor, samples of one age stand in one slot of both rings. -/
theorem lanesAreIndependent : Obligations.LanesAreIndependent := by
  intro v v' s s' j hcursor hslots hv
  have hslot : ∀ n : Fin 3, s.dbf.ring[(s.dbf.cursor + n : Fin 3)].getLsbD j =
      s'.dbf.ring[(s'.dbf.cursor + n : Fin 3)].getLsbD j := by
    intro n
    simp only [hcursor]
    exact hslots _
  have hnewest : (newestSample s.dbf).getLsbD j = (newestSample s'.dbf).getLsbD j := hslot 2
  have hprevious : (previousSample s.dbf).getLsbD j = (previousSample s'.dbf).getLsbD j := hslot 1
  refine ⟨_, _, exec_dbfPush v s, exec_dbfPush v' s', ?_⟩
  simp [mergedOf_pushSnapshot, hv, hnewest, hprevious]

end Sys2Proof.Proofs

/-! PROOFS. The family of spec/41_input_decoder.md: the record that DECODE makes of `merged` (R150 to R155), which bits of `merged`
it depends on (R159), and how `changed` follows from the record kept before (R156, R157, R161). -/

namespace Sys2Proof.Proofs

open Sys2Proof Sys2Proof.Machine

/-! ### What DECODE writes -/

/-- R156, R157 and R270, as one equation. -/
theorem exec_decDecode (s : State) : exec .decDecode s =
    .next ((s.withDec (decodeInput s.cfg (mergedOf s.dbf) s.dec)).withRepDue RepDue.all) := rfl

@[simp] theorem decodeInput_prev (p : Config.Params) (m : Snapshot) (d : Dec) :
    (decodeInput p m d).prev = decodeState p.layout m := rfl

theorem decodeInput_changed_iff (p : Config.Params) (m : Snapshot) (d : Dec) :
    (decodeInput p m d).changed = true ↔ decodeState p.layout m ≠ d.prev :=
  changedFlag_iff ..

/-! ### The bits of a record -/

theorem controlBit_of_layoutSrc {layout : List (BitVec 12)} {c : Control} {k i : Nat} (h : layoutSrc layout c = some (k, i))
    (m : Snapshot) : controlBit layout m c = m.getLsbD (8 * k + i) := by
  rw [controlBit, h]

theorem getLsbD_bitField_of_lt {n i : Nat} (f : Nat → Bool) (h : i < n) : (bitField n f).getLsbD i = f i := by
  rw [getLsbD_bitField, decide_eq_true h, Bool.true_and]

section
variable (layout : List (BitVec 12)) (m : Snapshot) {n : Nat}

theorem getLsbD_decodeState_p1 (h : n < 12) : (decodeState layout m).p1.getLsbD n = controlBit layout m (.p1Btn n) := by
  rw [decodeState, getLsbD_bitField_of_lt _ h]

theorem getLsbD_decodeState_p2 (h : n < 12) : (decodeState layout m).p2.getLsbD n = controlBit layout m (.p2Btn n) := by
  rw [decodeState, getLsbD_bitField_of_lt _ h]

theorem getLsbD_decodeState_util (h : n < 6) : (decodeState layout m).util.getLsbD n = controlBit layout m (.util n) := by
  rw [decodeState, getLsbD_bitField_of_lt _ h]

end

/-- Settles O14: each field bit by bit; the document's example is the bit at position 8 * 0 + 4 of 0x10. -/
theorem decodeSetsMasks : Obligations.DecodeSetsMasks := by
  intro s
  refine ⟨_, exec_decDecode s, rfl, fun n hn => ?_, fun n hn => ?_, fun n hn => ?_, fun p hsrc => ?_⟩
  · exact getLsbD_decodeState_p1 _ _ hn
  · exact getLsbD_decodeState_p2 _ _ hn
  · exact getLsbD_decodeState_util _ _ hn
  · rw [getLsbD_decodeState_p1 _ _ (by decide), controlBit_of_layoutSrc hsrc]
    rfl

/-- Settles O15: each axis is one use of `axisValue_eq`. -/
theorem decodeSetsAxes : Obligations.DecodeSetsAxes := by
  intro s
  refine ⟨_, exec_decDecode s, ?_⟩
  rintro on rfl
  exact ⟨axisValue_eq .., axisValue_eq .., axisValue_eq .., axisValue_eq ..⟩

/-! ### The change flag -/

/-- Settles O16, from `decodeInput_changed_iff`. -/
theorem decodeComparesWithPrevious : Obligations.DecodeComparesWithPrevious := fun s =>
  ⟨_, exec_decDecode s, rfl, rfl, decodeInput_changed_iff ..⟩

/-- The second of two DECODEs compares with the record of the first, whatever was kept before both. -/
theorem second_decodeInput_changed_iff (p : Config.Params) (m m' : Snapshot) (d : Dec) :
    (decodeInput p m' (decodeInput p m d)).changed = true ↔ decodeState p.layout m' ≠ decodeState p.layout m := by
  rw [decodeInput_changed_iff, decodeInput_prev]

theorem second_decodeInput_unchanged (p : Config.Params) (m : Snapshot) (d : Dec) :
    (decodeInput p m (decodeInput p m d)).changed = false := by
  rw [Bool.eq_false_iff, Ne, second_decodeInput_changed_iff]
  exact not_not_intro rfl

/-- Settles O17: DECODE writes neither DBF nor the parameters, so the second one decodes what the ring then holds with the same
LAYOUT. -/
theorem secondDecodeReportsNoChange : Obligations.SecondDecodeReportsNoChange := by
  intro s
  refine ⟨_, _, exec_decDecode s, exec_decDecode _, ?_, rfl, fun d => ⟨_, exec_decDecode _, ?_⟩⟩
  · exact second_decodeInput_unchanged ..
  · exact second_decodeInput_changed_iff ..

/-! ### The bits that DECODE depends on -/

/-- R151: a control with a row reads the bit at the row's position, one without a row reads 0; neither reads another bit. -/
theorem controlBit_congr {p : Config.Params} {m m' : Snapshot}
    (h : ∀ r ∈ p.layout, ∀ j, j = 8 * (r.extractLsb' 9 3).toNat + (r.extractLsb' 6 3).toNat → m.getLsbD j = m'.getLsbD j) :
    controlBit p.layout m = controlBit p.layout m' := by
  funext c
  obtain ⟨row, norow⟩ := controlBitReadsItsRow p m c
  obtain ⟨row', norow'⟩ := controlBitReadsItsRow p m' c
  by_cases hc : ∃ r ∈ p.layout, (r.extractLsb' 0 6).toNat = controlId c
  · obtain ⟨r, hr, hid⟩ := hc
    rw [row r hr hid, row' r hr hid, h r hr _ rfl]
  · have hnone : ∀ r ∈ p.layout, (r.extractLsb' 0 6).toNat ≠ controlId c := fun r hr hid => hc ⟨r, hr, hid⟩
    rw [norow hnone, norow' hnone]

/-- R150: the record is a function of the control bits. -/
theorem decodeState_congr {layout : List (BitVec 12)} {m m' : Snapshot} (h : controlBit layout m = controlBit layout m') :
    decodeState layout m = decodeState layout m' := by
  simp only [decodeState, h]

theorem decodeInput_congr {p : Config.Params} {m m' : Snapshot} (h : decodeState p.layout m = decodeState p.layout m')
    (d : Dec) : decodeInput p m d = decodeInput p m' d := by
  simp only [decodeInput, h]

/-- Settles O18: equal control bits give equal records, and equal records with one `prev` give equal flags. -/
theorem unmappedBitsAreIgnored : Obligations.UnmappedBitsAreIgnored := by
  intro s s' hcfg hdec hbits
  refine ⟨_, _, exec_decDecode s, exec_decDecode s', ?_⟩
  simp only [State.withRepDue_dec, State.withDec_dec, ← hcfg, ← hdec]
  exact decodeInput_congr (decodeState_congr (controlBit_congr hbits)) s.dec

end Sys2Proof.Proofs

/-! PROOFS. The family of spec/42_led_framing_streamer.md: the requests on the LFS port (R181 to R186, R194 to R196), and one SCAN
step in each phase (R187 to R193, R199). -/

namespace Sys2Proof.Proofs

open Sys2Proof Sys2Proof.Machine Sys2Proof.Safety Sys2Proof.Laws

/-! ### The words of the requests, with the bits that they ignore -/

/-- R115: `op` decides, and the other 48 bits are `off` and `data`. -/
theorem decode_lfsReq_of_op (op : BitVec 3) (x : BitVec 48) :
    decode (.lfsReq (op ++ x)) = .ok (decodeLfs op (x.extractLsb' 32 16) (x.extractLsb' 0 32)) := by
  show Except.ok (decodeLfs ((op ++ x).extractLsb' 48 3) ((op ++ x).extractLsb' 32 16) ((op ++ x).extractLsb' 0 32)) = _
  rw [extract_high op x, extract_in_low op x (by decide), extract_in_low op x (by decide)]

/-- SET_ALL ignores `off` (R181), so its word decodes as the encoder's, whose `off` is 0. -/
theorem decode_lfsReq_setAll (r g b br : Byte) (off : BitVec 16) :
    decode (.lfsReq (0b001#3 ++ (off ++ (br ++ b ++ g ++ r)))) = .ok (.lfsSetAll r g b br) := by
  have off_ignored : decodeLfs 0b001#3 off (br ++ b ++ g ++ r) = decodeLfs 0b001#3 0#16 (br ++ b ++ g ++ r) := rfl
  rw [decode_lfsReq, off_ignored, ← decode_lfsReq]
  exact decode_lfsSetAll r g b br

/-- WRITE_FRONT ignores `data[31:8]` (R182). -/
theorem decode_lfsReq_writeFront (off : BitVec 16) (v : Byte) (x : BitVec 24) :
    decode (.lfsReq (0b010#3 ++ (off ++ (x ++ v)))) = .ok (.lfsWriteFront off v) :=
  (decode_lfsReq 0b010#3 off (x ++ v)).trans (congrArg (Except.ok ∘ Instr.lfsWriteFront off) (extract_low x v))

/-- A word with `push` = 0 is DBF.IDLE, whatever its snapshot (R113). -/
theorem decode_dbfReq_idle {w : BitVec 65} (h : w.getLsbD 64 = false) : decode (.dbfReq w) = .ok .dbfIdle := by
  rw [decode_dbfReq, h]
  rfl

/-! ### What the operations write, as one equation each -/

/-- R181. -/
theorem exec_lfsSetAll (r g b br : Byte) (s : State) :
    exec (.lfsSetAll r g b br) s = .next (s.withLfs (setAll s.cfg.fbLen r g b br s.lfs)) := rfl

/-- R182. -/
theorem exec_lfsWriteFront (off : BitVec 16) (v : Byte) (s : State) :
    exec (.lfsWriteFront off v) s = .next (s.withLfs (writeFront s.cfg.fbLen off.toNat v s.lfs)) := rfl

/-- R183. -/
theorem exec_lfsFlip (s : State) : exec .lfsFlip s = .next (s.withLfs (flip s.cfg.fbLen s.lfs)) := rfl

/-- R185. -/
theorem exec_lfsArm (s : State) : exec .lfsArm s = .next (s.withLfs (arm s.lfs)) := rfl

/-- R187. -/
theorem exec_lfsScan (s : State) : exec .lfsScan s = .next (scanStep s) := rfl

/-- Settles O8: the words by `decode_lfsReq_of_op`; each of the six operations is the identity. -/
theorem idleRequestsChangeNothing : Obligations.IdleRequestsChangeNothing := fun _ =>
  ⟨fun _ => decode_dbfReq_idle, rfl, rfl, rfl,
    decode_lfsReq_of_op 0b000#3, rfl, decode_lfsReq_of_op 0b101#3, rfl,
    decode_lfsReq_of_op 0b110#3, rfl, decode_lfsReq_of_op 0b111#3, rfl⟩

/-! ### FRONT: SET_ALL and WRITE_FRONT -/

/-- The bytes of a pixel lie inside a buffer (R8). -/
theorem pixel_byte_lt {p : Config.Params} {i k : Nat} (hi : i < p.pixelCount) (hk : k < 4) : 4 * i + k < p.fbLen := by
  rw [Config.Params.fbLen]
  omega

theorem readFront_setAll_of_lt {len a : Nat} (r g b br : Byte) (x : Lfs) (h : a < len) :
    readFront (setAll len r g b br x) a = frontPixel r g b br a := by
  rw [readFront_setAll, if_pos h]

/-- Settles O20: inside FRONT every byte is that of the pixel given (`readFront_setAll`). -/
theorem setAllFillsFront : Obligations.SetAllFillsFront := by
  intro r g b br s
  refine ⟨decode_lfsReq_setAll r g b br, _, exec_lfsSetAll r g b br s, rfl, fun i hi => ?_⟩
  have hbyte {k : Nat} (hk : k < 4) := readFront_setAll_of_lt r g b br s.lfs (pixel_byte_lt hi hk)
  exact ⟨(hbyte (k := 0) (by decide)).trans (frontPixel_0 ..), (hbyte (by decide)).trans (frontPixel_1 ..),
    (hbyte (by decide)).trans (frontPixel_2 ..), (hbyte (by decide)).trans (frontPixel_3 ..)⟩

/-- Settles O21: an offset is inside FRONT (`readFront_writeFront`) or discarded (`writeFront_discards`, R75). -/
theorem writeFrontStoresOrDiscards : Obligations.WriteFrontStoresOrDiscards := by
  intro off v s
  refine ⟨decode_lfsReq_writeFront off v, _, exec_lfsWriteFront off v s, ?_, fun hin a => ?_, fun hout => ?_⟩
  · exact congrArg s.withLfs (writeFront_frame ..)
  · exact readFront_writeFront _ _ v s.lfs a hin
  · exact congrArg s.withLfs (writeFront_discards v s.lfs hout)

/-! ### BACK: FLIP -/

theorem readBack_flip_of_lt {len a : Nat} (x : Lfs) (h : a < len) :
    readBack (flip len x) a = reformat (readFront x) a := by
  rw [readBack_flip, if_pos h]

/-- R184: the four bytes of a pixel of BACK after FLIP. -/
theorem readBack_flip_pixel {p : Config.Params} {i : Nat} (x : Lfs) (hi : i < p.pixelCount) :
    readBack (flip p.fbLen x) (4 * i) = Config.pixMarker ||| readFront x (4 * i + 3) ∧
    readBack (flip p.fbLen x) (4 * i + 1) = readFront x (4 * i + 2) ∧
    readBack (flip p.fbLen x) (4 * i + 2) = readFront x (4 * i + 1) ∧
    readBack (flip p.fbLen x) (4 * i + 3) = readFront x (4 * i) := by
  have hbyte {k : Nat} (hk : k < 4) := readBack_flip_of_lt x (pixel_byte_lt hi hk)
  exact ⟨(hbyte (k := 0) (by decide)).trans (reformat_0 ..), (hbyte (by decide)).trans (reformat_1 ..),
    (hbyte (by decide)).trans (reformat_2 ..), (hbyte (by decide)).trans (reformat_3 ..)⟩

/-- A byte modulo 32 is its low five bits. -/
theorem toNat_mod_32 (b : Byte) : b.toNat % 32 = (b.extractLsb' 0 5).toNat :=
  (BitVec.extractLsb'_toNat 0 5 b).symm

/-- R195, R196: the marker leaves the low five bits of the brightness. -/
theorem pixMarker_or_mod_32 (b : Byte) : (Config.pixMarker ||| b).toNat % 32 = b.toNat % 32 := by
  rw [pixMarker_or, toNat_mod_32, toNat_mod_32, extract_low 0b111#3]

/-- Settles O22, from `readBack_flip_pixel`. -/
theorem flipReformatsEveryPixel : Obligations.FlipReformatsEveryPixel := by
  refine ⟨decode_lfsReq_of_op 0b011#3, fun s => ⟨_, exec_lfsFlip s, rfl, fun i hi => ?_⟩⟩
  obtain ⟨hheader, hblue, hgreen, hred⟩ := readBack_flip_pixel s.lfs hi
  refine ⟨hheader, hblue, hgreen, hred, ?_⟩
  exact (congrArg (fun b : Byte => b.toNat % 32) hheader).trans (pixMarker_or_mod_32 _)

/-- Settles O24: the header of `readBack_flip_pixel` in bits, by `pixMarker_or`. -/
theorem brightnessKeepsLowFiveBits : Obligations.BrightnessKeepsLowFiveBits := by
  refine fun s => ⟨_, exec_lfsFlip s, fun i hi => ?_⟩
  obtain ⟨hheader, -⟩ := readBack_flip_pixel s.lfs hi
  exact hheader.trans (pixMarker_or _)

/-- FLIP of equal pixels leaves equal data: both buffers are canonical and read alike. -/
theorem flip_back_congr {n : Nat} {x y : Lfs} (h : ∀ a < 4 * n, readFront x a = readFront y a) :
    (flip (4 * n) x).back = (flip (4 * n) y).back := by
  refine Memory.eq_of_read (Memory.wf_fill ..) (Memory.wf_fill ..) fun a => ?_
  show readBack (flip (4 * n) x) a = readBack (flip (4 * n) y) a
  rw [readBack_flip, readBack_flip]
  split
  · exact reformat_congr h ‹_›
  · rfl

/-- R194: FLIP reads FRONT alone, which it does not write. -/
theorem flip_flip (len : Nat) (x : Lfs) : flip len (flip len x) = flip len x := rfl

/-- Settles O23, from `flip_back_congr` and `flip_flip`. -/
theorem flipIsIdempotent : Obligations.FlipIsIdempotent := by
  intro s s' hcfg hfront
  refine ⟨_, _, exec_lfsFlip s, exec_lfsFlip s', ?_, ?_⟩
  · rw [← hcfg]
    exact flip_back_congr hfront
  · rw [exec_lfsFlip]
    exact congrArg (fun x => Host.Outcome.next (s.withLfs x)) (flip_flip s.cfg.fbLen s.lfs)

/-! ### ARM -/

theorem arm_of_unarmed {x : Lfs} (h : x.armed = false) : arm x = { x with armed := true, phase := .start, idx := 0 } := by
  rw [arm, h]
  rfl

theorem arm_of_armed {x : Lfs} (h : x.armed = true) : arm x = x := if_pos h

/-- Settles O25: one equation per value of `armed`. -/
theorem armStartsTheScanner : Obligations.ArmStartsTheScanner :=
  ⟨decode_lfsReq_of_op 0b100#3, fun s => ⟨_, exec_lfsArm s,
    fun hoff => congrArg s.withLfs (arm_of_unarmed hoff), fun hon => congrArg s.withLfs (arm_of_armed hon)⟩⟩

/-! ### One SCAN step -/

/-- Settles O26, from `scanStep_unarmed`. -/
theorem unarmedScannerIsSilent : Obligations.UnarmedScannerIsSilent := fun s h => by
  rw [exec_lfsScan, scanStep_unarmed h]

/-- R188 to R191, field by field: SCAN is what the pass latch leaves, `phase` and `idx` move on by one byte. -/
theorem scanAdvance_eq_fields (len : Nat) (x : Lfs) : scanAdvance len x = { x with
    scan := (latch x).scan
    phase := if x.idx = phaseLen len x.phase - 1 then nextPhase x.phase else x.phase
    idx := if x.idx = phaseLen len x.phase - 1 then 0 else x.idx + 1 } := by
  have hlatch : latch x = { x with scan := (latch x).scan } := by
    unfold latch
    split <;> rfl
  rw [scanAdvance_eq, hlatch]
  split <;> rfl

/-- An armed SCAN step, field by field (R187 to R191). -/
theorem exec_lfsScan_armed {s : State} (h : s.lfs.armed = true) : exec .lfsScan s = .next ((s.withLfs { s.lfs with
      scan := (latch s.lfs).scan
      phase := if s.lfs.idx = phaseLen s.cfg.fbLen s.lfs.phase - 1 then nextPhase s.lfs.phase else s.lfs.phase
      idx := if s.lfs.idx = phaseLen s.cfg.fbLen s.lfs.phase - 1 then 0 else s.lfs.idx + 1 }).withOut
    { s.out with tx := s.out.tx ++ [txData s.lfs] }) := by
  rw [exec_lfsScan, scanStep_armed h, scanAdvance_eq_fields]
  rfl

theorem latch_scan_of_start {x : Lfs} (h : x.phase = .start) : (latch x).scan = if x.idx = 0 then x.back else x.scan := by
  simp only [latch, h, true_and, apply_ite Lfs.scan]

/-- After the start frame there is no pass latch, so SCAN is not written. -/
theorem exec_lfsScan_after_start {s : State} (ha : s.lfs.armed = true) (hp : s.lfs.phase ≠ .start) :
    exec .lfsScan s = .next ((s.withLfs { s.lfs with
        phase := if s.lfs.idx = phaseLen s.cfg.fbLen s.lfs.phase - 1 then nextPhase s.lfs.phase else s.lfs.phase
        idx := if s.lfs.idx = phaseLen s.cfg.fbLen s.lfs.phase - 1 then 0 else s.lfs.idx + 1 }).withOut
      { s.out with tx := s.out.tx ++ [txData s.lfs] }) := by
  rw [exec_lfsScan_armed ha, latch_of_latched (latched_of_phase_ne hp)]

/-- Settles O27: the start frame, the one phase with a pass latch (`latch_scan_of_start`). -/
theorem scanEmitsStartFrame : Obligations.ScanEmitsStartFrame := by
  intro s ha hp
  have hbyte : txData s.lfs = 0x00 := phaseByte_start hp s.lfs.idx
  refine ⟨_, exec_lfsScan_armed ha, ?_, latch_scan_of_start hp, ?_, ?_⟩
  · rw [hbyte]; rfl
  · simp only [hp]; rfl
  · simp only [hp]; rfl

/-- Settles O28: `exec_lfsScan_after_start` with a phase of L bytes, the byte by `phaseByte_pixels`. -/
theorem scanEmitsPixelBytes : Obligations.ScanEmitsPixelBytes := by
  intro s ha hp
  have hbyte : txData s.lfs = readScan s.lfs s.lfs.idx := phaseByte_pixels hp s.lfs.idx
  refine ⟨_, exec_lfsScan_after_start ha (by rw [hp]; decide), ?_, ?_, ?_⟩
  · rw [hbyte]; rfl
  · simp only [hp]; rfl
  · simp only [hp]; rfl

/-- Settles O29: `exec_lfsScan_after_start` with a phase of eight bytes, the byte by `phaseByte_ending`. -/
theorem scanEmitsEndFrame : Obligations.ScanEmitsEndFrame := by
  intro s ha hp
  have hbyte : txData s.lfs = 0xFF := phaseByte_ending hp s.lfs.idx
  refine ⟨_, exec_lfsScan_after_start ha (by rw [hp]; decide), ?_, ?_, ?_⟩
  · rw [hbyte]; rfl
  · simp only [hp]; rfl
  · simp only [hp]; rfl

/-! ### SCAN away from the pass boundary -/

/-- The state with FRONT and BACK overwritten. -/
def overwriteFrontBack (f b : List Host.Cell) (s : State) : State := s.withLfs { s.lfs with front := f, back := b }

theorem latched_of_not_boundary {x : Lfs} (h : x.phase ≠ .start ∨ x.idx ≠ 0) : Latched x := fun hp h0 =>
  h.elim (absurd hp) (absurd h0)

/-- R189, R193: without a pass latch a SCAN step neither reads nor writes FRONT and BACK. -/
theorem scanStep_overwriteFrontBack (f b : List Host.Cell) {s : State} (h : s.lfs.phase ≠ .start ∨ s.lfs.idx ≠ 0) :
    scanStep (overwriteFrontBack f b s) = overwriteFrontBack f b (scanStep s) := by
  cases ha : s.lfs.armed with
  | false => rw [scanStep_unarmed ha, scanStep_unarmed (s := overwriteFrontBack f b s) ha]
  | true =>
    have hlatch : latch s.lfs = s.lfs := latch_of_latched (latched_of_not_boundary h)
    have hlatch' : latch (overwriteFrontBack f b s).lfs = (overwriteFrontBack f b s).lfs :=
      latch_of_latched (latched_of_not_boundary h)
    rw [scanStep_armed ha, scanStep_armed (s := overwriteFrontBack f b s) ha, scanAdvance_eq_fields, scanAdvance_eq_fields,
      hlatch, hlatch']
    rfl

/-- Settles O35, from `scanStep_overwriteFrontBack`. -/
theorem frameIsNotMixedMidPass : Obligations.FrameIsNotMixedMidPass := fun s f b h =>
  ⟨scanStep s, exec_lfsScan s, congrArg Host.Outcome.next (scanStep_overwriteFrontBack f b h)⟩

end Sys2Proof.Proofs

/-! PROOFS. The family of spec/43_command_dispatcher.md: a byte in READ_CODE and READ_DATA and the dispatch of a code (R223 to R229),
the runs of RX steps that are a command frame and a whole payload (R104, R226, R242), and TICK in each state of CMD (R232 to R238). -/

namespace Sys2Proof.Proofs

open Sys2Proof Sys2Proof.Machine

/-! ### The two operations of CMD -/

/-- R221. -/
theorem exec_cmdRx (b : Byte) (s : State) : exec (.cmdRx b) s = .next (receiveByte b s) := rfl

/-- R232. -/
theorem exec_cmdTick (s : State) : exec .cmdTick s = .next (s.withCmd (tickCmd s.cfg s.cmd)) := rfl

theorem exec_cmdRx_of_receiveByte {b : Byte} {s t : State} (h : receiveByte b s = t) : exec (.cmdRx b) s = .next t :=
  congrArg Host.Outcome.next h

theorem exec_cmdTick_of_tickCmd {s : State} {c : Cmd} (h : tickCmd s.cfg s.cmd = c) : exec .cmdTick s = .next (s.withCmd c) :=
  congrArg (fun x => Host.Outcome.next (s.withCmd x)) h

/-! ### A byte in READ_CODE -/

/-- R223: one of the first three code bytes. -/
theorem codeByte_of_lt {c : Cmd} (b : Byte) (h : c.cnt < 3) :
    codeByte b c = { c with code := c.code.setIfInBounds c.cnt b, cnt := c.cnt + 1 } :=
  if_neg (show ¬ c.cnt = 3 by omega)

/-- R224: the fourth code byte completes the code. -/
theorem codeByte_fourth {c : Cmd} (b : Byte) (h : c.cnt = 3) :
    codeByte b c = dispatch { c with code := c.code.setIfInBounds 3 b } := by
  have hlast : c.cnt = Config.codeLen - 1 := h
  rw [codeByte, if_pos hlast, h]

/-- Settles O37, from `codeByte_of_lt`. -/
theorem codeByteIsAccumulated : Obligations.CodeByteIsAccumulated := by
  intro b s hst hcnt
  refine ⟨_, exec_cmdRx_of_receiveByte (receiveByte_readCode hst), ?_⟩
  rw [codeByte_of_lt b hcnt]
  refine ⟨rfl, fun j => ?_⟩
  show (s.cmd.code.setIfInBounds s.cmd.cnt b)[j.val] = _
  rw [Vector.getElem_setIfInBounds]
  exact if_congr eq_comm rfl rfl

/-! ### DISPATCH: one equation per code -/

theorem codeBytes_codeData : codeBytes codeData = #v[0x64, 0x61, 0x74, 0x61] := by decide
theorem codeBytes_codeRst : codeBytes codeRst = #v[0x5F, 0x72, 0x73, 0x74] := by decide
theorem codeBytes_codeUsb : codeBytes codeUsb = #v[0x5F, 0x75, 0x73, 0x62] := by decide

section
variable {c : Cmd}

/-- R225. -/
theorem dispatch_data (h : c.code = codeBytes codeData) : dispatch c = { c with st := .readData, cnt := 0, timer := 0 } :=
  if_pos h

/-- R227. -/
theorem dispatch_rst (h : c.code = codeBytes codeRst) :
    dispatch c = { c with st := .resetWait, kind := .rst, cnt := 0, timer := 0 } := by
  rw [dispatch, if_neg (by rw [h]; decide), if_pos h, enterResetWait]

/-- R228. -/
theorem dispatch_usb (h : c.code = codeBytes codeUsb) :
    dispatch c = { c with st := .resetWait, kind := .usb, cnt := 0, timer := 0 } := by
  rw [dispatch, if_neg (by rw [h]; decide), if_neg (by rw [h]; decide), if_pos h, enterResetWait]

/-- R229. -/
theorem dispatch_unknown (hdata : c.code ≠ codeBytes codeData) (hrst : c.code ≠ codeBytes codeRst)
    (husb : c.code ≠ codeBytes codeUsb) : dispatch c = resync c := by
  rw [dispatch, if_neg hdata, if_neg hrst, if_neg husb]

end

/-- DISPATCH keeps the code and the requests, and begins the next state with `cnt` and `timer` 0. -/
theorem dispatch_frame (c : Cmd) : dispatch c = { c with
    st := (dispatch c).st, midx := (dispatch c).midx, cnt := 0, timer := 0, kind := (dispatch c).kind } := by
  rcases dispatch_cases c with ⟨-, hd⟩ | ⟨-, hd⟩ | ⟨-, hd⟩ | ⟨-, -, -, hd⟩ <;> rw [hd] <;> rfl

theorem dispatch_code (c : Cmd) : (dispatch c).code = c.code := by rw [dispatch_frame]

/-- The fourth code byte is stored beside the three that are kept. -/
theorem setIfInBounds_three (v : Vector Byte 4) (b : Byte) : v.setIfInBounds 3 b = #v[v[0], v[1], v[2], b] := by
  ext i hi
  rw [Vector.getElem_setIfInBounds]
  interval_cases i <;> rfl

/-- Four code bytes, each stored at its place, replace the whole code. -/
theorem setIfInBounds_four (v : Vector Byte 4) (b₀ b₁ b₂ b₃ : Byte) :
    (((v.setIfInBounds 0 b₀).setIfInBounds 1 b₁).setIfInBounds 2 b₂).setIfInBounds 3 b₃ = #v[b₀, b₁, b₂, b₃] := by
  ext i hi
  simp only [Vector.getElem_setIfInBounds]
  interval_cases i <;> rfl

/-- Settles O38: the equations of DISPATCH on the code that the byte completes. -/
theorem fourthCodeByteDispatches : Obligations.FourthCodeByteDispatches := by
  intro b s hst hcnt
  refine ⟨s.withCmd (dispatch { s.cmd with code := s.cmd.code.setIfInBounds 3 b }), ?_, rfl, ?_⟩
  · rw [exec_cmdRx, receiveByte_readCode hst, codeByte_fourth b hcnt]
  rw [State.withCmd_cmd, dispatch_code, ← codeBytes_codeData, ← codeBytes_codeRst, ← codeBytes_codeUsb]
  refine ⟨setIfInBounds_three .., dispatch_frame _, fun hdata => ?_, fun hrst => ?_, fun husb => ?_,
    fun hdata hrst husb => ?_⟩
  · rw [dispatch_data hdata]; exact ⟨rfl, rfl, rfl⟩
  · rw [dispatch_rst hrst]; exact ⟨rfl, rfl, rfl⟩
  · rw [dispatch_usb husb]; exact ⟨rfl, rfl, rfl⟩
  · rw [dispatch_unknown hdata hrst husb]; exact ⟨rfl, rfl, rfl⟩

/-! ### A byte in READ_DATA -/

/-- R226: a payload byte before the last one. -/
theorem receiveByte_payload {s : State} (b : Byte) (hst : s.cmd.st = .readData) (h : s.cmd.cnt ≠ s.cfg.fbLen - 1) :
    receiveByte b s =
      (s.withLfs (writeFront s.cfg.fbLen s.cmd.cnt b s.lfs)).withCmd { s.cmd with cnt := s.cmd.cnt + 1 } := by
  rw [receiveByte_readData hst, payloadByte, if_neg h, payloadWrite, if_neg h]

/-- R226: the last payload byte, with its FLIP. -/
theorem receiveByte_lastPayload {s : State} (b : Byte) (hst : s.cmd.st = .readData) (h : s.cmd.cnt = s.cfg.fbLen - 1) :
    receiveByte b s =
      (s.withLfs (Machine.flip s.cfg.fbLen (writeFront s.cfg.fbLen s.cmd.cnt b s.lfs))).withCmd (resync s.cmd) := by
  rw [receiveByte_readData hst, payloadByte, if_pos h, payloadWrite, if_pos h]
  rfl

/-- Settles O39: the two equations of a payload byte, by the laws of WRITE_FRONT and FLIP. -/
theorem payloadByteGoesToFront : Obligations.PayloadByteGoesToFront := by
  intro b s hst hcnt
  replace hcnt : s.cmd.cnt < s.cfg.fbLen := hcnt
  by_cases hlast : s.cmd.cnt = s.cfg.fbLen - 1
  · refine ⟨_, exec_cmdRx_of_receiveByte (receiveByte_lastPayload b hst hlast), ?_, fun a => ?_, fun hne => ?_, fun _ => ?_⟩
    · rw [writeFront_frame]; rfl
    · exact readFront_writeFront _ _ b s.lfs a hcnt
    · exact absurd hlast hne
    · exact ⟨rfl, fun i hi => readBack_flip_pixel _ hi⟩
  · refine ⟨_, exec_cmdRx_of_receiveByte (receiveByte_payload b hst hlast), ?_, fun a => ?_, fun _ => ⟨?_, rfl⟩, fun heq => ?_⟩
    · rw [writeFront_frame]; rfl
    · exact readFront_writeFront _ _ b s.lfs a hcnt
    · rw [writeFront_frame]; rfl
    · exact absurd heq hlast

/-! ### A whole frame -/

/-- The byte of MAGIC that is expected next is taken (R222). -/
theorem receiveBytes_magic_next {s : State} (hst : s.cmd.st = .seekMagic) :
    receiveBytes (magic.toList.drop s.cmd.midx.val) s =
      receiveBytes (magic.toList.drop (s.cmd.midx.val + 1)) (s.withCmd (seekByte (magic.get s.cmd.midx) s.cmd)) := by
  have hlt : s.cmd.midx.val < magic.toList.length := s.cmd.midx.isLt
  rw [List.drop_eq_getElem_cons hlt, receiveBytes, receiveByte_seekMagic hst]
  rfl

/-- The bytes of MAGIC that follow a matched beginning complete the match (R222); `n` counts those before the last one. -/
theorem receiveBytes_magic_drop (n : Nat) {s : State} (hst : s.cmd.st = .seekMagic) (hn : s.cmd.midx.val + n = 10) :
    receiveBytes (magic.toList.drop s.cmd.midx.val) s =
      s.withCmd { s.cmd with st := .readCode, midx := 0, cnt := 0, timer := 0 } := by
  induction n generalizing s with
  | zero =>
    have hlast : s.cmd.midx.val = 10 := hn
    rw [receiveBytes_magic_next hst, seekByte_last rfl hlast, hlast]
    rfl
  | succ n ih =>
    have hlt : s.cmd.midx.val < 10 := by omega
    rw [receiveBytes_magic_next hst, seekByte_next rfl hlt]
    refine ih (s := s.withCmd { s.cmd with midx := ⟨s.cmd.midx.val + 1, Nat.succ_lt_succ hlt⟩, timer := 0 }) hst ?_
    show s.cmd.midx.val + 1 + n = 10
    omega

/-- MAGIC is recognised whatever was matched before it: its "m" begins the match anew (R222). -/
theorem receiveBytes_magic {s : State} (hst : s.cmd.st = .seekMagic) :
    receiveBytes magic.toList s = s.withCmd { s.cmd with st := .readCode, midx := 0, cnt := 0, timer := 0 } := by
  have hm : magic.toList = 0x6D :: magic.toList.drop 1 := rfl
  rw [hm, receiveBytes, receiveByte_seekMagic hst, seekByte_m]
  exact receiveBytes_magic_drop 9 (s := s.withCmd { s.cmd with midx := 1, timer := 0 }) hst rfl

/-- One of the first three code bytes goes to its place (R223). -/
theorem receiveBytes_code_cons {s : State} {k : Nat} {b : Byte} {bs : List Byte} (hst : s.cmd.st = .readCode)
    (hcnt : s.cmd.cnt = k) (hk : k < 3) : receiveBytes (b :: bs) s =
      receiveBytes bs (s.withCmd { s.cmd with code := s.cmd.code.setIfInBounds k b, cnt := k + 1 }) := by
  subst hcnt
  rw [receiveBytes, receiveByte_readCode hst, codeByte_of_lt b hk]

/-- The four bytes of a code are accumulated and dispatched (R223, R224). -/
theorem receiveBytes_code (b₀ b₁ b₂ b₃ : Byte) {s : State} (hst : s.cmd.st = .readCode) (hcnt : s.cmd.cnt = 0) :
    receiveBytes [b₀, b₁, b₂, b₃] s = s.withCmd (dispatch { s.cmd with code := #v[b₀, b₁, b₂, b₃], cnt := 3 }) :=
  calc receiveBytes [b₀, b₁, b₂, b₃] s
    _ = receiveBytes [b₁, b₂, b₃] (s.withCmd { s.cmd with code := _, cnt := 1 }) :=
      receiveBytes_code_cons hst hcnt (by decide)
    _ = receiveBytes [b₂, b₃] (s.withCmd { s.cmd with code := _, cnt := 2 }) :=
      receiveBytes_code_cons hst rfl (by decide)
    _ = receiveBytes [b₃] (s.withCmd { s.cmd with code := _, cnt := 3 }) :=
      receiveBytes_code_cons hst rfl (by decide)
    _ = s.withCmd (codeByte b₃ { s.cmd with code := _, cnt := 3 }) := receiveByte_readCode hst
    _ = s.withCmd (dispatch { s.cmd with code := Vector.setIfInBounds _ 3 b₃, cnt := 3 }) :=
      congrArg s.withCmd (codeByte_fourth b₃ rfl)
    _ = s.withCmd (dispatch { s.cmd with code := #v[b₀, b₁, b₂, b₃], cnt := 3 }) :=
      congrArg (fun v => s.withCmd (dispatch { s.cmd with code := v, cnt := 3 })) (setIfInBounds_four ..)

/-- R104: MAGIC and a code, received from SEEK_MAGIC, end in the dispatch of that code. -/
theorem receiveBytes_frameBytes (code : BitVec 32) {s : State} (hst : s.cmd.st = .seekMagic) :
    receiveBytes (frameBytes code) s = s.withCmd (dispatch { s.cmd with
      st := .readCode, midx := 0, code := codeBytes code, cnt := 3, timer := 0 }) := by
  rw [frameBytes, receiveBytes_append, receiveBytes_magic hst]
  exact receiveBytes_code _ _ _ _ rfl rfl

/-- Settles O41: the frame is received by `receiveBytes_frameBytes`, and its code dispatched by the equations of DISPATCH. -/
theorem framesAreDispatched : Obligations.FramesAreDispatched := by
  intro code s hst
  rw [← codeBytes_codeData, ← codeBytes_codeRst, ← codeBytes_codeUsb]
  have hrun {c : BitVec 32} {d : Cmd} (h : dispatch { s.cmd with
      st := .readCode, midx := 0, code := codeBytes c, cnt := 3, timer := 0 } = d) :
      Host.Outcome.next (φ := Fault) (ρ := Refusal) (receiveBytes (frameBytes c) s) = .next (s.withCmd d) := by
    rw [receiveBytes_frameBytes c hst, h]
  refine ⟨hrun (dispatch_data rfl), hrun (dispatch_rst rfl), hrun (dispatch_usb rfl), fun hwf => ?_⟩
  have hcode : knownCode code = false := by simpa [Instr.wf] using hwf
  simp only [knownCode, Bool.or_eq_false_iff, beq_eq_false_iff_ne] at hcode
  obtain ⟨⟨hdata, hrst⟩, husb⟩ := hcode
  exact hrun (dispatch_unknown (hdata ∘ codeBytes_inj) (hrst ∘ codeBytes_inj) (husb ∘ codeBytes_inj))

/-! ### A whole payload -/

/-- FRONT with bytes written one after another from offset `n` on (R226). -/
def writeFrontFrom (len : Nat) : Nat → List Byte → Lfs → Lfs
  | _, [], x => x
  | n, b :: bs, x => writeFrontFrom len (n + 1) bs (writeFront len n b x)

theorem writeFrontFrom_frame (len n : Nat) (bs : List Byte) (x : Lfs) :
    writeFrontFrom len n bs x = { x with front := (writeFrontFrom len n bs x).front } := by
  induction bs generalizing n x with
  | nil => rfl
  | cons b bs ih => rw [writeFrontFrom, ih, writeFront_frame]

/-- Writing from offset `n` on leaves the bytes before it. -/
theorem readFront_writeFrontFrom_of_lt {len n : Nat} {bs : List Byte} (x : Lfs) (h : n + bs.length ≤ len) {a : Nat}
    (ha : a < n) : readFront (writeFrontFrom len n bs x) a = readFront x a := by
  induction bs generalizing n x with
  | nil => rfl
  | cons b bs ih =>
    rw [List.length_cons] at h
    rw [writeFrontFrom, ih _ (by omega) (by omega), readFront_writeFront _ _ _ _ _ (by omega), if_neg (by omega)]

/-- The bytes written from offset `n` on stand there. -/
theorem readFront_writeFrontFrom {len n : Nat} {bs : List Byte} (x : Lfs) (h : n + bs.length ≤ len) {k : Nat}
    (hk : k < bs.length) : readFront (writeFrontFrom len n bs x) (n + k) = bs[k] := by
  induction bs generalizing n x k with
  | nil => cases hk
  | cons b bs ih =>
    rw [List.length_cons] at h hk
    rw [writeFrontFrom]
    cases k with
    | zero =>
      rw [readFront_writeFrontFrom_of_lt _ (by omega) (by omega), readFront_writeFront _ _ _ _ _ (by omega)]
      exact if_pos rfl
    | succ k =>
      rw [show n + (k + 1) = n + 1 + k by omega, ih _ (by omega) (by omega)]
      rfl

/-- The payload bytes that are left, up to the last one, are written and flipped once (R226). -/
theorem receiveBytes_payload {bs : List Byte} {s : State} (hst : s.cmd.st = .readData) (hbs : bs ≠ [])
    (hlen : s.cmd.cnt + bs.length = s.cfg.fbLen) :
    receiveBytes bs s =
      (s.withLfs (Machine.flip s.cfg.fbLen (writeFrontFrom s.cfg.fbLen s.cmd.cnt bs s.lfs))).withCmd (resync s.cmd) := by
  induction bs generalizing s with
  | nil => exact absurd rfl hbs
  | cons b bs ih =>
    rw [List.length_cons] at hlen
    rw [receiveBytes]
    by_cases hlast : bs = []
    · subst hlast
      rw [receiveByte_lastPayload b hst (by simp at hlen; omega)]
      rfl
    · have hpos := List.length_pos_of_ne_nil hlast
      rw [receiveByte_payload b hst (by omega)]
      refine (ih ?_ hlast ?_).trans rfl
      · exact hst
      · simp only [State.withCmd_cmd, State.withCmd_cfg, State.withLfs_cfg]; omega

/-- RX neither reads nor writes the inputs to come. -/
theorem receiveByte_withInbox (b : Byte) (s : State) (l : List Input) :
    receiveByte b (s.withInbox l) = (receiveByte b s).withInbox l := by
  cases h : s.cmd.st with
  | seekMagic => rw [receiveByte_seekMagic h, receiveByte_seekMagic (s := s.withInbox l) h]; rfl
  | readCode => rw [receiveByte_readCode h, receiveByte_readCode (s := s.withInbox l) h]; rfl
  | readData =>
    rw [receiveByte_readData h, receiveByte_readData (s := s.withInbox l) h, payloadByte, payloadByte,
      apply_ite (State.withInbox · l)]
    rfl
  | resetWait => rw [receiveByte_notReading (.inl h), receiveByte_notReading (s := s.withInbox l) (.inl h)]
  | halted => rw [receiveByte_notReading (.inr h), receiveByte_notReading (s := s.withInbox l) (.inr h)]

theorem receiveBytes_withInbox (bs : List Byte) (s : State) (l : List Input) :
    receiveBytes bs (s.withInbox l) = (receiveBytes bs s).withInbox l := by
  induction bs generalizing s with
  | nil => rfl
  | cons b bs ih => rw [receiveBytes, receiveByte_withInbox, ih]; rfl

/-- Bytes at the head of the inputs are received one after another (R117). -/
theorem run_rxWords {bs : List Byte} {s : State} {rest : List Input} (hx : s.cmdExtra = false)
    (hs : s.inbox = bs.map (fun b => Input.word (.rxByte (1#1 ++ b))) ++ rest) :
    Host.Core.run core bs.length s = .next ((receiveBytes bs s).withInbox rest) := by
  induction bs generalizing s with
  | nil => rw [← show s.inbox = rest from hs]; rfl
  | cons b bs ih =>
    obtain ⟨l, hl⟩ : ∃ l, l = bs.map (fun b => Input.word (.rxByte (1#1 ++ b))) ++ rest := ⟨_, rfl⟩
    rw [List.map_cons, List.cons_append, ← hl] at hs
    have hstep : step s = .next ((receiveByte b s).withInbox l) := by
      rw [step_word hs (decode_rxByte b), closePoll_of_ne (by simp), completeFlip_of_false (s := s.withInbox l) hx,
        exec_cmdRx, receiveByte_withInbox]
    have hx' : ((receiveByte b s).withInbox l).cmdExtra = false := by
      obtain ⟨f, k, c, h⟩ := receiveByte_frame b s
      rw [h]; exact hx
    rw [List.length_cons, run_succ hstep, ih hx' hl, receiveBytes_withInbox]
    rfl

/-- Settles O42: the words are a run of RX steps, which `receiveBytes_payload` turns into writes to FRONT and one FLIP. -/
theorem payloadLoadsFrontAndFlips : Obligations.PayloadLoadsFrontAndFlips := by
  intro s payload rest hst hcnt hx hlen hs
  have hfull : s.cmd.cnt + payload.length = s.cfg.fbLen := by rw [hcnt, Nat.zero_add, hlen]; rfl
  have hne : payload ≠ [] := by
    rintro rfl
    exact (fbLen_pos s.cfg).ne hlen
  have hrun := run_rxWords hx hs
  rw [hlen, receiveBytes_payload hst hne hfull, hcnt] at hrun
  have hread {a : Nat} (ha : a < payload.length) :
      readFront (writeFrontFrom s.cfg.fbLen 0 payload s.lfs) a = payload[a] := by
    simpa using readFront_writeFrontFrom (n := 0) s.lfs (hcnt ▸ hfull.le) ha
  refine ⟨_, hrun, ?_, fun a ha => hread ha, fun i hi => ?_⟩
  · rw [writeFrontFrom_frame]; rfl
  · have hpixel {k : Nat} (hk : k < 4) :
        readFront (writeFrontFrom s.cfg.fbLen 0 payload s.lfs) (4 * i + k) = payload.getD (4 * i + k) 0 := by
      have ha : 4 * i + k < payload.length := hlen ▸ pixel_byte_lt hi hk
      rw [hread ha, List.getD_eq_getElem _ _ ha]
    obtain ⟨hheader, hblue, hgreen, hred⟩ := readBack_flip_pixel (writeFrontFrom s.cfg.fbLen 0 payload s.lfs) hi
    exact ⟨hheader.trans (congrArg _ (hpixel (by decide))), hblue.trans (hpixel (by decide)),
      hgreen.trans (hpixel (by decide)), hred.trans (hpixel (k := 0) (by decide))⟩

/-! ### After a reset command -/

/-- Settles O40, from `receiveByte_notReading` and `tickCmd_halted`. -/
theorem noByteTakenAfterResetCommand : Obligations.NoByteTakenAfterResetCommand := fun _ s =>
  ⟨fun hst => exec_cmdRx_of_receiveByte (receiveByte_notReading hst),
    fun hst => exec_cmdTick_of_tickCmd (tickCmd_halted s.cfg hst)⟩

/-! ### TICK -/

/-- R232, R233. -/
theorem tickCmd_seekMagic (p : Config.Params) {c : Cmd} (h : c.st = .seekMagic) : tickCmd p c =
    if c.midx = 0 then { c with timer := 0 }
    else if 50 ≤ c.timer + 1 then { c with midx := 0, timer := 0 } else { c with timer := c.timer + 1 } := by
  simp only [tickCmd, h]

/-- R232, R234, R235: the two reading states with a limit, which is T_CODE or T_DATA. -/
theorem tickCmd_reading {p : Config.Params} {c : Cmd} {limit : Nat}
    (h : (c.st = .readCode ∧ limit = p.tCode) ∨ (c.st = .readData ∧ limit = 1000)) :
    tickCmd p c = if limit ≤ c.timer + 1 then resync c else { c with timer := c.timer + 1 } := by
  rcases h with ⟨hst, rfl⟩ | ⟨hst, rfl⟩ <;> simp only [tickCmd, hst]

/-- Settles O43: the three branches of `tickCmd_seekMagic`. -/
theorem tickInSeekMagic : Obligations.TickInSeekMagic := by
  intro s hst
  have htick := tickCmd_seekMagic s.cfg hst
  refine ⟨fun h0 => ?_, fun h0 hlt => ?_, fun h0 hge => ?_⟩
  · exact exec_cmdTick_of_tickCmd (htick.trans (if_pos h0))
  · exact exec_cmdTick_of_tickCmd (htick.trans ((if_neg h0).trans (if_neg (Nat.not_le_of_lt hlt))))
  · exact exec_cmdTick_of_tickCmd (htick.trans ((if_neg h0).trans (if_pos hge)))

/-- Settles O44: the two branches of `tickCmd_reading`. -/
theorem tickInReadingStates : Obligations.TickInReadingStates := fun _ _ hst =>
  ⟨fun hlt => exec_cmdTick_of_tickCmd ((tickCmd_reading hst).trans (if_neg (Nat.not_le_of_lt hlt))),
    fun hge => exec_cmdTick_of_tickCmd ((tickCmd_reading hst).trans (if_pos hge))⟩

/-- Settles O45: the two branches of `tickCmd_resetWait`, the second one by `expire_eq`. -/
theorem tickInResetWait : Obligations.TickInResetWait := fun s hst =>
  ⟨fun hlt => exec_cmdTick_of_tickCmd ((tickCmd_resetWait s.cfg hst).trans (if_neg (Nat.not_le_of_lt hlt))),
    fun hge => exec_cmdTick_of_tickCmd ((tickCmd_resetWait s.cfg hst).trans ((if_pos hge).trans (expire_eq s.cmd)))⟩

end Sys2Proof.Proofs

/-! PROOFS. The family of spec/44_report_emitter_interface.md: when REP runs (R270), and its wake request (R278). -/

namespace Sys2Proof.Proofs

open Sys2Proof Sys2Proof.Machine Sys2Proof.Safety

/-! ### What REP alone works on -/

/-- What is due, REP's own state, its reports and its wake pulses: the state with what the other blocks write left out. -/
def repPart (s : State) : RepDue × Rep × Outputs := (s.repDue, s.rep, { s.out with tx := [], merged := [] })

theorem repPart_eq_iff {s t : State} : repPart t = repPart s ↔
    t.repDue = s.repDue ∧ t.rep = s.rep ∧ t.out.gpad1 = s.out.gpad1 ∧ t.out.gpad2 = s.out.gpad2 ∧
      t.out.kbd = s.out.kbd ∧ t.out.wakes = s.out.wakes := by
  simp [repPart]

/-! The shared operations of the other blocks, in the order of `Ops.lean`. -/

theorem repPart_scanStep (s : State) : repPart (scanStep s) = repPart s := by
  rw [scanStep_frame]; rfl

theorem repPart_scanSteps (n : Nat) (s : State) : repPart (scanSteps n s) = repPart s := by
  induction n generalizing s with
  | zero => rfl
  | succ n ih => exact (ih _).trans (repPart_scanStep s)

theorem repPart_receiveByte (b : Byte) (s : State) : repPart (receiveByte b s) = repPart s := by
  obtain ⟨f, k, c, h⟩ := receiveByte_frame b s
  rw [h]; rfl

theorem repPart_receiveBytes (bs : List Byte) (s : State) : repPart (receiveBytes bs s) = repPart s := by
  obtain ⟨f, k, c, h⟩ := receiveBytes_frame bs s
  rw [h]; rfl

theorem repPart_completeFlip (s : State) : repPart (completeFlip s) = repPart s := by
  obtain ⟨k, h⟩ := completeFlip_frame s
  rw [h]; rfl

theorem repPart_ite {s t : State} (b : Bool) (h : repPart t = repPart s) : repPart (if b then t else s) = repPart s := by
  rw [apply_ite repPart, h, ite_self]

/-! The instructions and the cycle. -/

/-- Only DECODE and the two REP rows concern REP (R270, entries 10, 27). -/
theorem repPart_nextState {i : Instr} (s : State) (hdecode : i ≠ .decDecode) (hgpad : ∀ x y m hot, i ≠ .repGpad x y m hot)
    (hkbd : ∀ k0 k1 k2 k3 k4 k5, i ≠ .repKbd k0 k1 k2 k3 k4 k5) : repPart (nextState i s) = repPart s := by
  cases i with
  | dbfPush | dbfIdle | dbfMerge | decHold => rfl
  | lfsNop | lfsSetAll | lfsWriteFront | lfsFlip | lfsArm | lfsRsvd5 | lfsRsvd6 | lfsRsvd7 | cmdTick => rfl
  | lfsScan => exact repPart_scanStep s
  | cmdRx b => exact repPart_receiveByte b s
  | cmdData | cmdRst | cmdUsb | cmdUnknown => exact repPart_receiveBytes _ s
  | wireStart | wirePixel | wireEnd => exact repPart_ite _ (repPart_scanSteps _ s)
  | decDecode => exact absurd rfl hdecode
  | repGpad x y m hot => exact absurd rfl (hgpad x y m hot)
  | repKbd k0 k1 k2 k3 k4 k5 => exact absurd rfl (hkbd k0 k1 k2 k3 k4 k5)

/-- Of what stands before the LFS request of a cycle, DECODE alone concerns REP. -/
theorem repPart_cycleFront (taken : Bool) {c : CycleIn} (s : State) (hdecode : c.decode = false) :
    repPart (cycleFront taken c s) = repPart s := by
  obtain ⟨d, hpush⟩ := cyclePush_frame c s
  obtain ⟨l, b, hscan⟩ := cycleScan_frame c (cyclePush c s)
  obtain ⟨f, k, hrx⟩ := cycleRx_frame taken c (cycleScan c (cyclePush c s))
  have hnone : cycleDecode c s = s := by rw [cycleDecode, hdecode]; rfl
  rw [cycleFront, hnone, hrx, hscan, hpush]
  rfl

theorem repPart_of_runCycle {c : CycleIn} {s t : State} (hrst : c.rst = false) (hdecode : c.decode = false)
    (h : runCycle c s = .next t) : repPart t = repPart s := by
  obtain ⟨x, u, hu, hrun, -⟩ := runCycle_eq s hrst
  have hfront : repPart u = repPart s := by rw [hu, repPart_cycleFront _ _ hdecode]; rfl
  rw [hrun] at h
  cases h
  rw [← hfront]
  cases c.tick <;> rfl

/-- The cycle in which nothing is requested sends nothing on TX either. -/
theorem runCycle_idle_keeps (s : State) : ∃ t, runCycle CycleIn.idle s = .next t ∧
    t.out = s.out ∧ t.rep = s.rep ∧ t.repDue = s.repDue := by
  obtain ⟨x, u, rfl, hrun, -⟩ := runCycle_eq (c := CycleIn.idle) s rfl
  exact ⟨_, hrun, rfl, rfl, rfl⟩

/-! ### When REP runs -/

theorem exec_decDecode_repDue {u v : State} (h : exec .decDecode u = .next v) : v.repDue = RepDue.all := by
  cases h; rfl

/-- With no input offered, what is due runs by itself (entry 27). -/
theorem step_noInput {s : State} (hs : s.inbox = []) : ∃ t, step s = .next t ∧
    t.out = (repStep s).out ∧ t.rep = (repStep s).rep ∧ t.repDue = RepDue.none := by
  obtain ⟨t, hrun, hout, hrep, hdue⟩ := runCycle_idle_keeps (repStep s)
  refine ⟨t, ?_, hout, hrep, hdue⟩
  simp only [step, takeNext, hs, hrun]

/-- The outstanding FLIP and the inputs still to come are nothing to REP. -/
theorem repStep_completeFlip (s : State) (rest : List Input) :
    (repStep (completeFlip (s.withInbox rest))).out = (repStep s).out ∧
      (repStep (completeFlip (s.withInbox rest))).rep = (repStep s).rep := by
  obtain ⟨k, h⟩ := completeFlip_frame (s.withInbox rest)
  rw [h, repStep_eq, repStep_eq]
  exact ⟨rfl, rfl⟩

/-- A DECODE word: what is still due runs before it, and a new step is due after it (entry 27). -/
theorem step_decodeWord {s : State} {rest : List Input} {w : PortWord} (hs : s.inbox = .word w :: rest)
    (hw : decode w = .ok .decDecode) : ∃ t, step s = .next t ∧
      t.out = (repStep s).out ∧ t.rep = (repStep s).rep ∧ t.repDue = RepDue.all := by
  obtain ⟨hout, hrep⟩ := repStep_completeFlip s rest
  exact ⟨_, step_word hs hw, hout, hrep, rfl⟩

/-- A word that is neither a DECODE nor a REP row leaves REP as it is, the outstanding FLIP included. -/
theorem repPart_of_word {w : PortWord} {i : Instr} {s t : State} (hw : decode w = .ok i)
    (h : exec i (closePoll i (completeFlip s)) = .next t) (hdecode : decode w ≠ .ok .decDecode)
    (hgpad : ∀ x y m hot, decode w ≠ .ok (.repGpad x y m hot))
    (hkbd : ∀ k0 k1 k2 k3 k4 k5, decode w ≠ .ok (.repKbd k0 k1 k2 k3 k4 k5)) : repPart t = repPart s := by
  have hne : i ≠ .decDecode := by rintro rfl; exact hdecode hw
  rw [closePoll_of_ne hne, exec_eq_next] at h
  cases h
  rw [repPart_nextState _ hne (by rintro x y m hot rfl; exact hgpad _ _ _ _ hw)
    (by rintro k0 k1 k2 k3 k4 k5 rfl; exact hkbd _ _ _ _ _ _ hw), repPart_completeFlip]

/-- On every other input a step of REP that is due stays due, and REP does nothing (R270). -/
theorem repPart_of_step {s t : State} {x : Input} {rest : List Input} (hs : s.inbox = x :: rest) (h : step s = .next t)
    (hx : x ≠ .repStep) (hrst : rstNext s = false) (hcycle : ∀ c, x = .cycle c → c.decode = false)
    (hword : ∀ w, x = .word w → decode w ≠ .ok .decDecode ∧ (∀ a b m h, decode w ≠ .ok (.repGpad a b m h)) ∧
      ∀ a b c d e f, decode w ≠ .ok (.repKbd a b c d e f)) : repPart t = repPart s := by
  rcases step_cases h with ⟨hnil, -⟩ | ⟨y, ys, hcons, htaken⟩
  · rw [hs] at hnil; cases hnil
  · rw [hs] at hcons
    cases hcons
    rcases htaken with ⟨w, i, rfl, hw, hexec⟩ | ⟨w, rfl, -, rfl⟩ | ⟨rfl, -⟩ | ⟨u, rfl, rfl⟩ | ⟨rfl, -⟩ | ⟨c, rfl, hrun⟩
    · obtain ⟨hdecode, hgpad, hkbd⟩ := hword w rfl
      exact (repPart_of_word hw hexec hdecode hgpad hkbd).trans rfl
    · rfl
    · simp [rstNext, hs] at hrst
    · rfl
    · exact absurd rfl hx
    · have hc : c.rst = false := by simpa [rstNext, hs] using hrst
      exact (repPart_of_runCycle hc (hcycle c rfl) hrun).trans rfl

/-! ### The wake request -/

theorem wakeFlag_iff (t : Transport) (c : CState) : wakeFlag t c = true ↔ t.suspended = true ∧ c ≠ CState.reset := by
  rw [wakeFlag, Bool.and_eq_true, activeFlag_iff]

theorem repStep_withInbox (s : State) (l : List Input) : repStep (s.withInbox l) = (repStep s).withInbox l := by
  rw [repStep_eq, repStep_eq]; rfl

/-- A step of REP writes its own state and outputs alone (R270). -/
theorem repStep_eq_own (s : State) :
    repStep s = ((s.withOut (repStep s).out).withRep (repStep s).rep).withRepDue RepDue.none := by
  rw [repStep_eq]; rfl

/-- A wake request that is due pulses once when the condition holds, and is armed again only by a condition that does not
(R278). -/
theorem repStep_wake {s : State} (h : s.repDue.wake = true) :
    (repStep s).out.wakes = s.out.wakes + (if wakeFlag s.transport s.dec.prev && s.rep.wakeArmed then 1 else 0) ∧
      (repStep s).rep.wakeArmed = !wakeFlag s.transport s.dec.prev := by
  rw [repStep_eq, h]; exact ⟨rfl, rfl⟩

/-- Settles O59: when REP runs, by the kind of input, and then what its step does to the wake request. -/
theorem wakeIsOneShot : Obligations.WakeIsOneShot := by
  refine ⟨fun u v => exec_decDecode_repDue, fun s => step_noInput, fun s rest w => step_decodeWord,
    fun s t x rest hs h hx hrst hcycle hword => repPart_eq_iff.1 (repPart_of_step hs h hx hrst hcycle hword),
    fun s rest cond hs hcond => ?_⟩
  have hflag : cond = wakeFlag s.transport s.dec.prev := by rw [Bool.eq_iff_iff, wakeFlag_iff]; exact hcond
  obtain ⟨-, -, -, -, -, -, -, -, htx, -⟩ := repStep_keeps (s.withInbox rest)
  refine ⟨_, step_repStep hs, repStep_withInbox s rest, repStep_eq_own _, htx, ?_, fun hdue => ?_,
    fun hdue => repStep_of_none (s := s.withInbox rest) hdue⟩
  · rw [repStep_eq]; rfl
  · rw [hflag]
    exact repStep_wake hdue

end Sys2Proof.Proofs

/-! PROOFS. The family of spec/60_exceptions.md: `rst` (R330, R332), and the order of simultaneous events in one clock cycle (R306):
DECODE before PUSH (R339), and the byte before the TICK. -/

namespace Sys2Proof.Proofs

open Sys2Proof Sys2Proof.Machine

/-! ### The input pipeline and the outputs in a clock cycle -/

/-- The SCAN step of a cycle sends one byte on TX when the scanner is armed (R116, R187). -/
theorem cycleScan_tx (c : CycleIn) (s : State) :
    (cycleScan c s).out.tx = s.out.tx ++ if c.txReady && s.lfs.armed then [txData s.lfs] else [] := by
  unfold cycleScan
  cases c.txReady with
  | false => exact (List.append_nil _).symm
  | true =>
    cases ha : s.lfs.armed with
    | false => rw [if_pos rfl, scanStep_unarmed ha]; exact (List.append_nil _).symm
    | true => rw [if_pos rfl, scanStep_armed ha]; rfl

/-- What a cycle without `rst` leaves of DBF, DEC, REP and the outputs: DECODE with what is still due of REP's step, then PUSH
(R306, R339, entry 27), and on TX the byte of the SCAN step. -/
structure InputPart (c : CycleIn) (s t : State) : Prop where
  dbf : t.dbf = if c.push then pushSnapshot c.snapIn s.dbf else s.dbf
  dec : t.dec = if c.decode then decodeInput s.cfg (mergedOf s.dbf) s.dec else s.dec
  rep : t.rep = if c.decode then (repStep s).rep else s.rep
  repDue : t.repDue = if c.decode then RepDue.all else s.repDue
  out : t.out = { (if c.decode then (repStep s).out else s.out) with
    tx := s.out.tx ++ if c.txReady && s.lfs.armed then [txData s.lfs] else [] }

/-- The DECODE and the PUSH of a cycle, with REP and the outputs. -/
theorem cyclePush_cycleDecode_input (c : CycleIn) (s : State) :
    (cyclePush c (cycleDecode c s)).dbf = (if c.push then pushSnapshot c.snapIn s.dbf else s.dbf) ∧
    (cyclePush c (cycleDecode c s)).dec = (if c.decode then decodeInput s.cfg (mergedOf s.dbf) s.dec else s.dec) ∧
    (cyclePush c (cycleDecode c s)).rep = (if c.decode then (repStep s).rep else s.rep) ∧
    (cyclePush c (cycleDecode c s)).repDue = (if c.decode then RepDue.all else s.repDue) ∧
    (cyclePush c (cycleDecode c s)).out = if c.decode then (repStep s).out else s.out := by
  obtain ⟨-, hdbf, -⟩ := repStep_keeps s
  unfold cyclePush cycleDecode
  cases c.decode with
  | false => cases c.push <;> simp
  | true => cases c.push <;> simp [hdbf]

/-- SCAN and RX concern none of DBF, DEC and REP (R17), and RX no output either. -/
theorem cycleFront_input (taken : Bool) (c : CycleIn) (s : State) : InputPart c s (cycleFront taken c s) := by
  obtain ⟨l, b, hscan⟩ := cycleScan_frame c (cyclePush c (cycleDecode c s))
  obtain ⟨f, k, hrx⟩ := cycleRx_frame taken c (cycleScan c (cyclePush c (cycleDecode c s)))
  have htx : b = s.out.tx ++ if c.txReady && s.lfs.armed then [txData s.lfs] else [] := by
    obtain ⟨d, r, o, e, hdecode⟩ := cycleDecode_frame c s
    obtain ⟨d', hpush⟩ := cyclePush_frame c (cycleDecode c s)
    calc b = (cycleScan c (cyclePush c (cycleDecode c s))).out.tx := by rw [hscan]; rfl
      _ = _ := by rw [cycleScan_tx, hpush, hdecode]; rfl
  obtain ⟨hdbf, hdec, hrep, hdue, hout⟩ := cyclePush_cycleDecode_input c s
  rw [cycleFront, hrx, hscan, htx, hout]
  exact ⟨hdbf, hdec, hrep, hdue, rfl⟩

/-- The inputs to come and the fields of the cycle level are nothing to DBF, DEC, REP and the outputs. -/
theorem InputPart.of_cycleLevel {c : CycleIn} {s t : State} {l : List Input} {q : List (BitVec 51)} {extra : Bool}
    (h : InputPart c (((s.withInbox l).withInitQ q).withCmdExtra extra) t) : InputPart c s t := by
  obtain ⟨hdbf, hdec, hrep, hdue, hout⟩ := h
  rw [repStep_eq] at hrep hout
  exact ⟨hdbf, hdec, by rw [hrep, repStep_eq]; rfl, hdue, by rw [hout, repStep_eq]; rfl⟩

/-- The request on the port of LFS and the TICK concern neither the input pipeline nor the outputs. -/
theorem step_cycle_input {s t : State} {c : CycleIn} {rest : List Input} (hrst : c.rst = false)
    (hs : s.inbox = .cycle c :: rest) (h : step s = .next t) : InputPart c s t := by
  obtain ⟨x, u, hu, hrun, -⟩ := runCycle_eq (s.withInbox rest) hrst
  obtain ⟨hdbf, hdec, hrep, hdue, hout⟩ : InputPart c s u := hu ▸ (cycleFront_input _ c _).of_cycleLevel
  rw [step_cycle hs, hrun] at h
  cases h
  cases c.tick with
  | false => exact ⟨hdbf, hdec, hrep, hdue, hout⟩
  | true => exact ⟨hdbf, hdec, hrep, hdue, hout⟩

/-! ### DECODE and PUSH, and the LED pipeline -/

/-- What the request leaves of LFS is its run, and so determined by the state before it. -/
theorem PortLeaves.run {c : CycleIn} {s u : State} {x : Lfs} (h : PortLeaves c s u x) :
    runCycleOps ((lfsRequests c s).map CycleOp.op) u = .next (u.withLfs x) := by
  cases h with
  | fromInit w hx hready hw hexec =>
    obtain ⟨-, -, -, hne⟩ := exec_decodeLfsWord w u
    simp [lfsRequests, hx, hready, hw, runCycleOps, closePoll_of_ne hne, hexec]
  | fromCmd hx he =>
    subst he
    simp [lfsRequests, hx, runCycleOps, closePoll_of_ne, exec_lfsFlip]
  | noRequest hx hnone he =>
    subst he
    rcases hnone with hready | hw
    · simp [lfsRequests, hx, hready, runCycleOps]
    · simp [lfsRequests, hx, hw, runCycleOps]

/-- The cycle with its requests of DECODE and PUSH left out. -/
def withoutPoll (c : CycleIn) : CycleIn := { c with decode := false, push := false }

theorem SameLed.cycleScan {s t : State} (c : CycleIn) (h : SameLed s t) : SameLed (cycleScan c s) (cycleScan c t) :=
  h.scanStep.ite h c.txReady

theorem cycleLed_withoutPoll (c : CycleIn) (s : State) (l : List Input) :
    SameLed (cycleLed (withoutPoll c) (s.withInbox l)) (cycleLed c s) :=
  have hscan : SameLed (cycleScan c (s.withInbox l)) (cycleScan c s) := .cycleScan c ⟨rfl, rfl, rfl⟩
  (hscan.receiveInCycle c.rxData).ite hscan (rxTaken c s)

/-- DECODE and PUSH are nothing to LFS, CMD and TX (R17). -/
theorem step_withoutPoll {s : State} {c : CycleIn} {rest : List Input} (hrst : c.rst = false)
    (hs : s.inbox = .cycle c :: rest) :
    ∃ t u, step s = .next t ∧ t.inbox = rest ∧ step (s.withInbox (.cycle (withoutPoll c) :: rest)) = .next u ∧
      t.lfs = u.lfs ∧ t.cmd = u.cmd ∧ t.out.tx = u.out.tx ∧ t.initQ = u.initQ ∧ t.cmdExtra = u.cmdExtra := by
  obtain ⟨t, ht, hrest, hq, hextra, hport, hcmd⟩ := step_cycle_led hrst hs
  obtain ⟨u, hu, -, hq', hextra', hport', hcmd'⟩ := step_cycle_led (c := withoutPoll c) hrst (State.withInbox_inbox s _)
  have hled := cycleLed_withoutPoll c s (.cycle (withoutPoll c) :: rest)
  have hrun : runCycleOps ((lfsRequests c s).map CycleOp.op) (cycleLed c s) = .next ((cycleLed c s).withLfs u.lfs) :=
    (hport'.congr hled.cfg hled.lfs).run
  have hlfs : (cycleLed c s).withLfs t.lfs = (cycleLed c s).withLfs u.lfs :=
    Host.Outcome.next.inj (hport.run.symm.trans hrun)
  have hout := (step_cycle_input hrst hs ht).out
  have hout' := (step_cycle_input (c := withoutPoll c) hrst (State.withInbox_inbox s _) hu).out
  refine ⟨t, u, ht, hrest, hu, by simpa using congrArg State.lfs hlfs, ?_, ?_, hq.trans hq'.symm, hextra.trans hextra'.symm⟩
  · rw [hcmd, hcmd', hled.cmd]; rfl
  · rw [hout, hout']; rfl

/-- Settles O54: `step_cycle_input` for the input pipeline and the outputs, `step_withoutPoll` for the rest. -/
theorem decodeBeforePushInOneCycle : Obligations.DecodeBeforePushInOneCycle := by
  intro s c rest hrst hdecode hpush hs
  obtain ⟨t, u, ht, hrest, hu, hsame⟩ := step_withoutPoll hrst hs
  obtain ⟨hdbf, hdec, hrep, hdue, hout⟩ := step_cycle_input hrst hs ht
  rw [hpush] at hdbf
  rw [hdecode] at hdec hrep hdue hout
  exact ⟨t, u, ht, hrest, hdbf, hdec, hrep, by rw [hout]; rfl, hdue, hu, hsame⟩

/-! ### The byte and the TICK -/

/-- What RX leaves of CMD it reads from CMD and the parameters alone, and the FLIP left to the extra cycle is nothing to it. -/
theorem receiveInCycle_cmd {s t : State} (b : Byte) (hcfg : s.cfg = t.cfg) (hcmd : s.cmd = t.cmd) :
    (receiveInCycle b s).cmd = (receiveByte b t).cmd := by
  have hflip : (receiveByte b t).cmd = (receiveInCycle b t).cmd := by rw [receiveInCycle_eq]; rfl
  rw [hflip]
  unfold receiveInCycle receiveByte
  rw [hcmd]
  cases t.cmd.st with
  | readData => unfold payloadWrite; rw [hcmd, hcfg]; rfl
  | seekMagic | readCode => rfl
  | resetWait | halted => exact hcmd

/-- Settles O55: `step_cycle_led` gives the order, and the SCAN step before the byte leaves CMD as it is. -/
theorem byteBeforeTickInOneCycle : Obligations.ByteBeforeTickInOneCycle := by
  intro s c rest hrst hvalid htick hready hs
  obtain ⟨t, ht, hrest, -, -, -, hcmd⟩ := step_cycle_led hrst hs
  obtain ⟨hscan, -, hcfg⟩ := cycleScan_keeps c s
  have htaken : rxTaken c s = true := by rw [rxTaken, hvalid, hready]; rfl
  refine ⟨t, ht, hrest, ?_⟩
  rw [hcmd, htick, cycleLed_of_taken htaken, receiveInCycle_cmd _ hcfg hscan]
  rfl

/-! ### rst -/

theorem step_rst {s : State} {rest : List Input} (hs : s.inbox = .rst :: rest) :
    step s = .next (applyRst (s.withInbox rest)) := by
  simp only [step, takeNext, hs, takeInput]

/-- `rst` wins over every other request of its cycle (R306, R330). -/
theorem step_cycle_rst {s : State} {c : CycleIn} {rest : List Input} (hrst : c.rst = true) (hs : s.inbox = .cycle c :: rest) :
    step s = .next (applyRst (s.withInbox rest)) := by
  rw [step_cycle hs, runCycle, if_pos hrst]

/-- R330, R332, R333: every block takes its reset value; the parameters, the inputs to come and the outputs stay. -/
theorem applyRst_fields (s : State) : (applyRst s).cfg = s.cfg ∧ (applyRst s).dbf = State.reset.dbf ∧
    (applyRst s).dec = State.reset.dec ∧ (applyRst s).lfs = State.reset.lfs ∧ (applyRst s).cmd = State.reset.cmd ∧
    (applyRst s).rep = State.reset.rep ∧ (applyRst s).inbox = s.inbox ∧ (applyRst s).out = s.out :=
  ⟨rfl, rfl, rfl, rfl, rfl, rfl, rfl, rfl⟩

/-- Settles O50: `rst` alone and in a cycle are both `applyRst`. -/
theorem rstRestoresResetState : Obligations.RstRestoresResetState := fun s rest =>
  ⟨fun hs => ⟨_, step_rst hs, applyRst_fields (s.withInbox rest)⟩,
    fun c hrst hs => ⟨by simp [rxReady, hrst], by simp [txValid, hrst], _, step_cycle_rst hrst hs,
      applyRst_fields (s.withInbox rest)⟩⟩

end Sys2Proof.Proofs
